-- ==== Sys2Proof/Word.lean ====
section
/-! DEFINITION. The two word sizes of the block: buffer elements of 8 bits and registers of 32 bits (R4). -/

namespace Sys2Proof

/-- An element of SRC, TMP or DST (R4, R40). -/
abbrev Byte := BitVec 8

/-- A control/status register (R4, R10). -/
abbrev Word := BitVec 32

end Sys2Proof
end

