-- ==== Sys2Proof/Syntax.lean ====
section
/-! DEFINITION. The rows of spec/opcode_table.json: five command words and five stream records, each
with the format it is written in (Parts A and B of 30_encoding.md). -/

namespace Sys2Proof

/-- The formats of 30_encoding.md. A stream says nothing of its own format (R76), so whoever decodes
is told which of these it reads. -/
inductive Format where
  | cmd32    -- the command word (R70)
  | nibrec   -- output of ENC.N1, ENC.N2, ENC.N4 (R77)
  | byterec  -- output of ENC.B8 (R78)
  | stagea   -- contents of TMP, internal to ENC.A8 (R79)
  | packseg  -- output of ENC.A8 (R80)
deriving DecidableEq, Repr

/-- One constructor per row of spec/opcode_table.json. Commands carry no fields: their operands are
`LEN` and SRC, DST and `OUTLEN` (R70). -/
inductive Instr where
  /-- `ENC.N1` (R127). -/
  | encN1
  /-- `ENC.N2` (R128). -/
  | encN2
  /-- `ENC.N4` (R129). -/
  | encN4
  /-- `ENC.B8` (R147). -/
  | encB8
  /-- `ENC.A8` (R180). -/
  | encA8
  /-- `NIBREC`: `length + 1` samples equal to `value` (R77). -/
  | nibrec (length value : BitVec 4)
  /-- `BYTEREC`: `length + 1` samples equal to `value` (R78). -/
  | byterec (length value : Byte)
  /-- `PACKSEG.REPEAT`: `count` samples equal to `value` (R80). -/
  | packsegRepeat (count : BitVec 7) (value : Byte)
  /-- `PACKSEG.LITERAL`: the control byte of a segment whose `count` samples follow as bytes (R80). -/
  | packsegLiteral (count : BitVec 7)
  /-- `STAGEA.INFO`: bit `7 - k` says that unit `k` of the batch is a run unit (R79). -/
  | stageaInfo (flags : Byte)
deriving DecidableEq, Repr

/-- The format a row of the table belongs to. -/
def Instr.format : Instr → Format
  | .encN1 => .cmd32
  | .encN2 => .cmd32
  | .encN4 => .cmd32
  | .encB8 => .cmd32
  | .encA8 => .cmd32
  | .nibrec _ _ => .nibrec
  | .byterec _ _ => .byterec
  | .packsegRepeat _ _ => .packseg
  | .packsegLiteral _ => .packseg
  | .stageaInfo _ => .stagea

end Sys2Proof
end

