-- ==== Sys2Proof/WellFormed.lean ====
section
/-! DEFINITION. Which terms of Instr the spec's encodings admit: a segment count is 1 to 127 (R80). The
value field of a nibble record is bounded by the width it is decoded for (R77, R221). -/

namespace Sys2Proof

/-- The count of a PACKSEG segment is 1 to 127; the control bytes 0x00 and 0x80 are reserved (R80).
Every field value of the other rows is admitted. -/
def Instr.wf : Instr → Bool
  | .encN1 => true
  | .encN2 => true
  | .encN4 => true
  | .encB8 => true
  | .encA8 => true
  | .nibrec _ _ => true
  | .byterec _ _ => true
  | .packsegRepeat count _ => count != 0#7
  | .packsegLiteral count => count != 0#7
  | .stageaInfo _ => true

/-- A nibble record is well-formed for bit width `w` when its value field is below `2^w` (R77, R221). -/
def Instr.fitsWidth (w : Nat) : Instr → Bool
  | .encN1 => true
  | .encN2 => true
  | .encN4 => true
  | .encB8 => true
  | .encA8 => true
  | .nibrec _ value => decide (value.toNat < 2 ^ w)
  | .byterec _ _ => true
  | .packsegRepeat _ _ => true
  | .packsegLiteral _ => true
  | .stageaInfo _ => true

end Sys2Proof
end

