-- ==== Sys2Proof/Decode.lean ====
section
/-! DEFINITION. The command word's decoder (R70-R74), the stream records' decoder (R77-R80), an encoder
for both, and the host's view of them by table rows. Every rejection has a name. -/

namespace Sys2Proof

/-- Why a word or a byte list is no instruction. The first four are the classes of R74, in the order
R73 tests them. -/
inductive DecodeError where
  /-- A bit of `CMD[31:6]` is set. -/
  | reservedBits
  /-- `BW` is none of 1, 2, 4, 8. -/
  | badWidth
  /-- `CM = 0`: UNCOMPRESSED, for which the block has no encoder (R203). -/
  | uncompressed
  /-- `ST = 1` with a width other than 8. -/
  | misplacedStrategy
  /-- A segment count of 0: the control bytes 0x00 and 0x80 (R80, R224). -/
  | reservedCount
  /-- The byte list ends inside a record (R222, R224). -/
  | truncated
  /-- Bytes are left over after one whole record. -/
  | trailing
  /-- A byte list where a command word is wanted, or the reverse. -/
  | wrongFormat
deriving DecidableEq, Repr

/-- `BW = CMD[3:0]`: the bit width as a plain number (R11, R70). -/
def cmdBW (c : Word) : Nat := (c.extractLsb' 0 4).toNat

/-- `CM = CMD[4]`: 0 is UNCOMPRESSED, 1 COMPRESSED (R11). -/
def cmdCM (c : Word) : Bool := c.getLsbD 4

/-- `ST = CMD[5]`: 0 is the simple, 1 the adaptive 8 bpp strategy (R11). -/
def cmdST (c : Word) : Bool := c.getLsbD 5

/-- `CMD[31:6]`, zero in every command (R11, R70). -/
def cmdReserved (c : Word) : BitVec 26 := c.extractLsb' 6 26

/-- `Decode` of R73, its lines in its order. -/
def decodeCommand (c : Word) : Except DecodeError Instr :=
  if cmdReserved c ≠ 0#26 then .error .reservedBits
  else if cmdBW c ≠ 1 ∧ cmdBW c ≠ 2 ∧ cmdBW c ≠ 4 ∧ cmdBW c ≠ 8 then .error .badWidth
  else if cmdCM c = false then .error .uncompressed
  else if cmdST c = true ∧ cmdBW c ≠ 8 then .error .misplacedStrategy
  else if cmdBW c = 1 then .ok .encN1
  else if cmdBW c = 2 then .ok .encN2
  else if cmdBW c = 4 then .ok .encN4
  else if cmdST c = false then .ok .encB8
  else .ok .encA8

/-- One record at the front of a byte list in format `f`, with the rest of the list. The literal bytes
of a PACKSEG literal segment stay in the rest (R80). -/
def decodeRecord (f : Format) (bs : List Byte) : Except DecodeError (Instr × List Byte) :=
  match f, bs with
  | .cmd32, _ => .error .wrongFormat
  | .nibrec, b :: rest => .ok (.nibrec (b.extractLsb' 4 4) (b.extractLsb' 0 4), rest)
  | .nibrec, [] => .error .truncated
  | .byterec, l :: v :: rest => .ok (.byterec l v, rest)
  | .byterec, _ => .error .truncated
  | .stagea, b :: rest => .ok (.stageaInfo b, rest)
  | .stagea, [] => .error .truncated
  | .packseg, [] => .error .truncated
  | .packseg, c :: rest =>
    if c.extractLsb' 0 7 = 0#7 then .error .reservedCount
    else if c.getLsbD 7 then
      match rest with
      | v :: rest' => .ok (.packsegRepeat (c.extractLsb' 0 7) v, rest')
      | [] => .error .truncated
    else .ok (.packsegLiteral (c.extractLsb' 0 7), rest)

/-- The two shapes an encoded instruction has: a word for `CMD`, or bytes of a stream. -/
inductive Code where
  | word (c : Word)
  | bytes (bs : List Byte)
deriving DecidableEq, Repr

/-- The encoding of each row of the table (R72, R77-R80). -/
def encode : Instr → Code
  | .encN1 => .word 0x00000011#32
  | .encN2 => .word 0x00000012#32
  | .encN4 => .word 0x00000014#32
  | .encB8 => .word 0x00000018#32
  | .encA8 => .word 0x00000038#32
  | .nibrec length value => .bytes [length ++ value]
  | .byterec length value => .bytes [length, value]
  | .packsegRepeat count value => .bytes [1#1 ++ count, value]
  | .packsegLiteral count => .bytes [0#1 ++ count]
  | .stageaInfo flags => .bytes [flags]

/-- Decoding one whole code in format `f`: total, every refusal named. -/
def decode (f : Format) (c : Code) : Except DecodeError Instr :=
  match f, c with
  | .cmd32, .word c => decodeCommand c
  | .cmd32, .bytes _ => .error .wrongFormat
  | _, .word _ => .error .wrongFormat
  | f, .bytes bs =>
    match decodeRecord f bs with
    | .ok (i, []) => .ok i
    | .ok (_, _ :: _) => .error .trailing
    | .error e => .error e

/-- Byte `j` of a table word: the table counts bits from the first byte's bit 0 upwards. -/
def tableByte (w j : Nat) : Byte := BitVec.ofNat 8 (w / 256 ^ j)

/-- The instruction an `Except` holds. -/
def okInstr : Except DecodeError (Instr × List Byte) → Option Instr
  | .ok (i, _) => some i
  | .error _ => none

/-- The host's question by table row. 32 bits are a command word. One byte alone does not say its own
format (R76); DESIGN CHOICE (log 14): it is read as PACKSEG, whose rows have a fixed bit, and a
repeat's value byte above it is zero. Two bytes are PACKSEG where bit 7 is set, else BYTEREC. -/
def decodeTableWord (nbits w : Nat) : Option Instr :=
  if nbits = 32 then
    match decodeCommand (BitVec.ofNat 32 w) with
    | .ok i => some i
    | .error _ => none
  else if nbits = 8 then okInstr (decodeRecord .packseg [tableByte w 0, 0#8])
  else if nbits = 16 then
    if (tableByte w 0).getLsbD 7 then okInstr (decodeRecord .packseg [tableByte w 0, tableByte w 1])
    else okInstr (decodeRecord .byterec [tableByte w 0, tableByte w 1])
  else none

end Sys2Proof
end

