-- ==== Sys2Proof/Config.lean ====
section
/-! DEFINITION. What an implementation fixes (the parameters of R4) and the values the spec leaves
unspecified (its `draw`s, R6): opaque, so no proof can know one. -/

namespace Sys2Proof

/-- The three private byte buffers (R40). -/
inductive Space where
  | src
  | tmp
  | dst
deriving DecidableEq, Repr

/-- The parameters of an instance (R4). Their constraints are `Params.ok`. -/
structure Params where
  /-- `NMAX`: the largest sample count an operation accepts. -/
  nmax : Nat
  /-- `SRC_BYTES`. -/
  srcBytes : Nat
  /-- `TMP_BYTES`. -/
  tmpBytes : Nat
  /-- `DST_BYTES`. -/
  dstBytes : Nat
  /-- `PACK_MSB_FIRST` (R42). -/
  packMsbFirst : Bool
  /-- `BASE`: where the platform puts the register window; only `Params.regAddr` reads it. -/
  base : Nat
deriving DecidableEq, Repr

/-- The constraints of R4. -/
abbrev Params.ok (p : Params) : Prop :=
  1 ≤ p.nmax ∧ p.nmax ≤ 2147483647 ∧ p.nmax ≤ p.srcBytes ∧
    p.nmax + (p.nmax + 7) / 8 ≤ p.tmpBytes ∧ 2 * p.nmax ≤ p.dstBytes

/-- The suggested defaults of R4: `NMAX = 2^24 - 1`, each buffer at its bound, most significant first.
DESIGN CHOICE: R4 suggests no `BASE`; 0 here (log 3). -/
def Params.default : Params where
  nmax := 16777215
  srcBytes := 16777215
  tmpBytes := 18874367
  dstBytes := 33554430
  packMsbFirst := true
  base := 0

/-- The number of bytes of a buffer (R40). -/
def Params.bytes (p : Params) : Space → Nat
  | .src => p.srcBytes
  | .tmp => p.tmpBytes
  | .dst => p.dstBytes

/-- Where register `n` sits for the platform: byte offset `4*n` from `BASE` (R10). -/
def Params.regAddr (p : Params) (n : Nat) : Nat := p.base + 4 * n

/-- FREE VALUE. The byte at an index of a buffer that nothing has written since the `epoch`-th reset
(U1): any value, the same at every read until it is written (R47; log 2). DESIGN CHOICE (log 19): one function
serves every instance and every run, so where two States agree on `epoch`, `sp` and `index` they read the same
never-written byte, although U1 and R262 tie neither to the other. -/
opaque Config.unwritten (epoch : Nat) (sp : Space) (index : Nat) : Byte

/-- FREE VALUE. The `i`-th unspecified value (`draw`) a host read returned (R6; log 7). DESIGN CHOICE (log 19):
one function serves every instance and every run, so two States with the same draw count draw the same, although
U4 and R262 tie neither to the other. -/
opaque Config.draw (i : Nat) : Word

end Sys2Proof
end

