-- ==== Sys2Proof/Machine/State.lean ====
section
/-! DEFINITION. The state of one NPRLE instance (10_state.md) as plain data, the reasons a step can stop,
and the state after reset (R33). -/

namespace Sys2Proof.Machine

/-- A buffer's contents: (index, byte) pairs with strictly rising indices. An index not listed holds no
byte written since reset (U1). -/
abbrev Memory := List Host.Cell

/-- The sequencing register's values (R20). -/
inductive Fsm where
  | idle
  | decode
  | nHead
  | nScan
  | nEmit
  | bHead
  | bScan
  | bEmit
  | aHead
  | aScan
  | aEmit
  | aEnd
  | pAwait
  | pUnit
  | pOvf
  | pEnd
  | finish
deriving DecidableEq, Repr

/-- Which kind of segment Stage B has open (R24). -/
inductive Mode where
  | none
  | run
  | lit
deriving DecidableEq, Repr

/-- The errors of R240 by name; `Flags.lean` gives their codes. `outOfRange` is never raised (R243). -/
inductive ErrCode where
  | none
  | unsupportedFormat
  | invalidInput
  | outOfRange
deriving DecidableEq, Repr

/-- Everything a host can do (R212). -/
inductive HostMove where
  /-- `HostRegRead(n)`. -/
  | regRead (n : Nat)
  /-- `HostRegWrite(n, v)`. -/
  | regWrite (n : Nat) (v : Word)
  /-- `HostSrcWrite(i, b)`. -/
  | srcWrite (i : Nat) (b : Byte)
  /-- `HostSrcRead(i)`. -/
  | srcRead (i : Nat)
  /-- `HostDstRead(i)`. -/
  | dstRead (i : Nat)
  /-- Reset (R270). -/
  | reset
deriving DecidableEq, Repr

/-- What happens next to the block. A list of turns is one interleaving of host and engine; the spec
gives no timing (R282), so every list is possible. -/
inductive Turn where
  /-- The host makes a move. -/
  | host (m : HostMove)
  /-- The engine makes one step-level transition. -/
  | engine
  /-- The engine makes all that is left of the operation in one transition (R278). -/
  | operation
deriving DecidableEq, Repr

/-- One instance: the registers of R10, the buffers of R17 to R19, the working registers of R20 to R25,
and the model's own fields. Counters and indices are naturals (R5, D27); data are bytes. -/
structure State where
  /-- The instance's parameters (R4): no step changes them (log 3). -/
  params : Params
  /-- `CMD` (R11). -/
  cmd : Word
  /-- `LEN` (R12). -/
  lenReg : Word
  /-- `STATUS` (R13). -/
  status : Word
  /-- `OUTLEN` (R14). -/
  outlen : Word
  /-- `TMPLEN` (R15). -/
  tmplen : Word
  /-- `SRC` (R17). -/
  src : Memory
  /-- `TMP` (R19). -/
  tmp : Memory
  /-- `DST` (R18). -/
  dst : Memory
  /-- The sequencing register (R20). -/
  fsm : Fsm
  /-- `N`: the sample count latched at acceptance (R21). -/
  n : Nat
  /-- The bit width latched at acceptance (R21). -/
  w : Nat
  /-- The sample cursor (R21). -/
  pos : Nat
  /-- The DST append position (R21). -/
  out : Nat
  /-- The value of the run being counted (R22). -/
  cur : Byte
  /-- The additional equal samples found (R22). -/
  len : Nat
  /-- The value of the byte at `pos`, or of the unit just read (R23, 43 §4). -/
  v : Byte
  /-- The physical run length, or the count of the unit just read (R23, 43 §4). -/
  r : Nat
  /-- The info byte being assembled or read (R23, R24). -/
  info : Byte
  /-- Units placed in or read from the batch (R23, R24). -/
  k : Nat
  /-- TMP index of the open batch's info byte (R23). -/
  ip : Nat
  /-- TMP append position (R23). -/
  t : Nat
  /-- TMP read cursor (R24). -/
  a : Nat
  /-- The kind of the open segment (R24). -/
  mode : Mode
  /-- Value of the open repeat stretch (R24). -/
  rv : Byte
  /-- Repeats not yet emitted (R24). -/
  rc : Nat
  /-- DST index of the open literal segment's control byte (R24). -/
  hdr : Nat
  /-- Bytes in the open literal segment (R24). -/
  lc : Nat
  /-- `GRP`: the last SRC byte fetched (R25). -/
  grp : Byte
  /-- `GIDX`: its index (R25). -/
  gidx : Nat
  /-- `GV`: whether `GRP` is valid (R25). -/
  gv : Bool
  /-- MODEL'S OWN: the turns to come, the next one first (log 4). -/
  turns : List Turn
  /-- MODEL'S OWN: what the latest host read returned, zero-extended (log 6). -/
  rdata : Word
  /-- MODEL'S OWN: how many draws host reads have returned (log 7). -/
  draws : Nat
  /-- MODEL'S OWN: how many resets have come since the run began (log 2). -/
  epoch : Nat
deriving DecidableEq, Repr

/-- Why the machine stops with a fault. -/
inductive Fault where
  /-- The engine formed an index at or past a buffer's capacity. Raised by `bufRead`'s users and by
  `bufWrite` in Ops.lean. SAFE: R31 says no rule forms such an index, and a stop allows no false claim. -/
  | bufferOverrun (sp : Space) (index : Nat)
deriving DecidableEq, Repr

/-- Why an instruction is refused. -/
inductive Refusal where
  /-- No meaning written. Raised by exec's arms only. SAFE: nothing can be claimed of it. -/
  | notModelled (mnemonic : String)
  /-- A PACKSEG record whose count is 0, the reserved control bytes 0x00 and 0x80 (R80, R224). Raised by
  the meanings of PACKSEG.REPEAT and PACKSEG.LITERAL. SAFE: the engine never forms one (R178). -/
  | reservedCount
deriving DecidableEq, Repr

/-- The three outcomes of the host's interface at this machine's types. -/
abbrev Out := Host.Outcome State Fault Refusal

/-- R33: registers 0, idle, `GV` 0, nothing listed in any buffer. The other working registers are
unspecified there; DESIGN CHOICE 0 and NONE (log 1). Parameters: the defaults of R4 (log 3). -/
def State.reset : State where
  params := Params.default
  cmd := 0#32
  lenReg := 0#32
  status := 0#32
  outlen := 0#32
  tmplen := 0#32
  src := []
  tmp := []
  dst := []
  fsm := .idle
  n := 0
  w := 0
  pos := 0
  out := 0
  cur := 0#8
  len := 0
  v := 0#8
  r := 0
  info := 0#8
  k := 0
  ip := 0
  t := 0
  a := 0
  mode := .none
  rv := 0#8
  rc := 0
  hdr := 0
  lc := 0
  grp := 0#8
  gidx := 0
  gv := false
  turns := []
  rdata := 0#32
  draws := 0
  epoch := 0

end Sys2Proof.Machine
end

