-- ==== Sys2Proof/Machine/Flags.lean ====
section
/-! DEFINITION. The flags of the block: the fields BUSY, DONE and ERR of `STATUS` (R13) and the error
codes (R240). -/

namespace Sys2Proof.Machine

/-- The code of an error in `STATUS.ERR` (R240). -/
def ErrCode.code : ErrCode → BitVec 3
  | .none => 0#3
  | .unsupportedFormat => 1#3
  | .invalidInput => 2#3
  | .outOfRange => 3#3

/-- `STATUS` from its fields: BUSY bit 0, DONE bit 1, ERR bits 6:4, reserved bits 0 (R13). -/
def statusWord (busy done : Bool) (e : ErrCode) : Word :=
  0#25 ++ e.code ++ 0#2 ++ BitVec.ofBool done ++ BitVec.ofBool busy

/-- `STATUS.BUSY` (R13). -/
def State.busyBit (s : State) : Bool := s.status.getLsbD 0

/-- `STATUS.DONE` (R13). -/
def State.doneBit (s : State) : Bool := s.status.getLsbD 1

/-- `STATUS.ERR` (R13). -/
def State.errField (s : State) : BitVec 3 := s.status.extractLsb' 4 3

/-- The block is working on an operation: `fsm != IDLE`, which is what BUSY shows (R20). -/
def State.busy (s : State) : Bool := decide (s.fsm ≠ .idle)

/-- DST holds an EncodedBuffer: `DONE = 1` and `ERR = None` (R212, R277). -/
def State.resultValid (s : State) : Bool := s.doneBit && s.errField == 0#3

end Sys2Proof.Machine
end

