-- ==== Sys2Proof/Machine/Ops.lean ====
section
/-! DEFINITION. The named operations over the buffers and registers: reads and writes of one byte, the
two append operations, command acceptance (R200), error entry (R244), completion (R206), reset (R270). -/

namespace Sys2Proof.Machine

/-- Carry on from a next state; a fault or a refusal stays. -/
def andThen (o : Out) (f : State → Out) : Out :=
  match o with
  | .next s => f s
  | .fault x => .fault x
  | .refused x => .refused x

/-- The byte listed at an index, if something has been written there since reset. -/
def Memory.read : Memory → Nat → Option Byte
  | [], _ => none
  | (x, b) :: m, i => if x = i then some b else Memory.read m i

/-- Store a byte at an index, keeping the indices strictly rising. -/
def Memory.write : Memory → Nat → Byte → Memory
  | [], i, b => [(i, b)]
  | (x, c) :: m, i, b =>
    if i < x then (i, b) :: (x, c) :: m
    else if i = x then (i, b) :: m
    else (x, c) :: Memory.write m i b

/-- The canonical form: strictly rising indices. -/
abbrev Memory.wf (m : Memory) : Prop := m.Pairwise (fun x y => x.1 < y.1)

/-- Every listed index is below a capacity. -/
abbrev Memory.within (cap : Nat) (m : Memory) : Prop := ∀ c ∈ m, c.1 < cap

/-- A buffer by its space. -/
def State.buf (s : State) : Space → Memory
  | .src => s.src
  | .tmp => s.tmp
  | .dst => s.dst

/-- Replace a buffer. -/
def State.setBuf (s : State) (sp : Space) (m : Memory) : State :=
  match sp with
  | .src => { s with src := m }
  | .tmp => { s with tmp := m }
  | .dst => { s with dst := m }

/-- The byte a buffer holds at an index: the one written, else the unspecified byte of this epoch (U1). -/
def State.byteAt (s : State) (sp : Space) (i : Nat) : Byte :=
  match Memory.read (s.buf sp) i with
  | some b => b
  | none => Config.unwritten s.epoch sp i

/-- `MemRead(SP, i, 1)` (R6): none at or past the buffer's capacity (R40). -/
def bufRead (sp : Space) (i : Nat) (s : State) : Option Byte :=
  if i < s.params.bytes sp then some (s.byteAt sp i) else none

/-- Go on with the byte at an index; an index past the capacity is a fault. -/
def withByte (sp : Space) (i : Nat) (s : State) (f : Byte → Out) : Out :=
  match bufRead sp i s with
  | some b => f b
  | none => .fault (.bufferOverrun sp i)

/-- `MemWrite(SP, i, 1, b)` (R6); an index past the capacity is a fault. -/
def bufWrite (sp : Space) (i : Nat) (b : Byte) (s : State) : Out :=
  if i < s.params.bytes sp then .next (s.setBuf sp (Memory.write (s.buf sp) i b))
  else .fault (.bufferOverrun sp i)

/-- `emit(b)`: `DST[out] <- b; out <- out + 1` (R6). -/
def emit (b : Byte) (s : State) : Out :=
  andThen (bufWrite .dst s.out b s) fun s' => .next { s' with out := s'.out + 1 }

/-- `TMP[t] <- b; t <- t + 1`: Stage A's append (R164, R165). -/
def tmpAppend (b : Byte) (s : State) : Out :=
  andThen (bufWrite .tmp s.t b s) fun s' => .next { s' with t := s'.t + 1 }

/-- The repeat segment's two bytes, `emit(0x80 | count); emit(value)` (R80, R171). -/
def emitRepeat (count : Nat) (value : Byte) (s : State) : Out :=
  andThen (emit (0x80#8 ||| BitVec.ofNat 8 count) s) (emit value)

/-- Closing a literal segment: the back-patch `DST[hdr] <- count`, after which none is open (R174). -/
def closeLiteral (count : Nat) (s : State) : Out :=
  andThen (bufWrite .dst s.hdr (BitVec.ofNat 8 count) s) fun s' => .next { s' with mode := .none }

/-- Command acceptance (R200), one step: `CMD <- c`, every assignment of R32, `fsm <- DECODE`. It is a
host's write to `CMD` on an idle block; `HostMoves.lean` keeps a busy block from it. -/
def State.accept (s : State) (c : Word) : State :=
  { s with
    cmd := c
    n := s.lenReg.toNat
    w := cmdBW c
    pos := 0
    out := 0
    cur := 0#8
    len := 0
    v := 0#8
    r := 0
    info := 0#8
    k := 0
    ip := 0
    t := 0
    a := 0
    mode := .none
    rv := 0#8
    rc := 0
    hdr := 0
    lc := 0
    gv := false
    outlen := 0#32
    tmplen := 0#32
    status := statusWord true false .none
    fsm := .decode }

/-- Error entry `raise E` (R244), one step: no output, `DONE` and the error's code, idle; `CMD`, `LEN` and
every buffer untouched. There is no return: the error stays readable until the next acceptance (R247). -/
def State.raise (s : State) (e : ErrCode) : State :=
  { s with
    outlen := 0#32
    tmplen := 0#32
    status := statusWord false true e
    fsm := .idle }

/-- Step FINISH (R206): `OUTLEN <- out`, `STATUS <- 0x02`, idle. -/
def State.complete (s : State) : State :=
  { s with
    outlen := BitVec.ofNat 32 s.out
    status := statusWord false true .none
    fsm := .idle }

/-- Reset as an event (R270, R271, R33): every register and buffer as after reset. The instance keeps its
parameters; the host's own schedule, last read value and draw count are not the block's to lose. The
bytes of the buffers are unspecified anew, so the epoch moves on. -/
def State.afterReset (s : State) : State :=
  { State.reset with
    params := s.params
    turns := s.turns
    rdata := s.rdata
    draws := s.draws
    epoch := s.epoch + 1 }

/-- A host read returns `x`. -/
def State.answer (s : State) (x : Word) : State := { s with rdata := x }

/-- A host read returns an unspecified word (R6 `draw`). -/
def State.answerDraw (s : State) : State :=
  { s with rdata := Config.draw s.draws, draws := s.draws + 1 }

/-- A host read of a buffer returns an unspecified byte (R41, R212). -/
def State.answerDrawByte (s : State) : State :=
  { s with rdata := ((Config.draw s.draws).setWidth 8).setWidth 32, draws := s.draws + 1 }

end Sys2Proof.Machine
end

