-- ==== Sys2Proof/Machine/Operands.lean ====
section
/-! DEFINITION. The one operand form of the block: a sample of the stream in SRC, cut out by the
bit-boundary aligner (R100-R104), and the run detector's scan step (R107). -/

namespace Sys2Proof.Machine

/-- How many samples share an SRC byte (R100). -/
def samplesPerByte (w : Nat) : Nat := 8 / w

/-- Lane `j` of a byte that holds `w`-bit samples (R42, R101). -/
def laneOf (msbFirst : Bool) (w j : Nat) (b : Byte) : Byte :=
  (b >>> (if msbFirst then 8 - w * (j + 1) else w * j)) &&& BitVec.ofNat 8 (2 ^ w - 1)

/-- `Sample(i)` of R101 read straight from SRC, for bit width `w`. -/
def State.sample (s : State) (w i : Nat) : Byte :=
  laneOf s.params.packMsbFirst w (i % samplesPerByte w) (s.byteAt .src (i / samplesPerByte w))

/-- The SampleStream of R100: the first `n` samples of SRC at bit width `w`. -/
def State.stream (s : State) (w n : Nat) : List Byte := (List.range n).map (s.sample w)

/-- The fetch of SRC byte `g` through the group register (R102). -/
def withGroup (g : Nat) (s : State) (f : Byte → State → Out) : Out :=
  if s.gv = true ∧ s.gidx = g then f s.grp s
  else withByte .src g s fun b => f b { s with grp := b, gidx := g, gv := true }

/-- `Sample(i)` at the step level (R101, R102). Its users test `i < N` first (R103). -/
def withSample (i : Nat) (s : State) (f : Byte → State → Out) : Out :=
  withGroup (i / samplesPerByte s.w) s fun b s' =>
    f (laneOf s.params.packMsbFirst s.w (i % samplesPerByte s.w) b) s'

/-- One scan step (R107): the cap's test, `i < N`, and the comparison with `x`, left to right, stopping at
the first that is false. Equal: `again`. Otherwise: `leave`. -/
def scan (below : Bool) (i : Nat) (x : Byte) (again leave : State → State) (s : State) : Out :=
  if below = true ∧ i < s.n then
    withSample i s fun y s' => .next (if y = x then again s' else leave s')
  else .next (leave s)

end Sys2Proof.Machine
end

