-- ==== Sys2Proof/Machine/Records.lean ====
section
/-! DEFINITION. The stream-record family: what each record of Part B of 30_encoding.md does to the machine
when the engine carries it out. The step that forms or reads the record adds the sequencing (`fsm`). -/

namespace Sys2Proof.Machine

/-- `NIBREC` (R77, R123): store the byte `length ++ value` at `DST[out]`; the record stands for
`length + 1` samples, which the cursor passes. -/
def execNibrec (length value : BitVec 4) (s : State) : Out :=
  andThen (emit (length ++ value) s) fun s' => .next { s' with pos := s'.pos + length.toNat + 1 }

/-- `BYTEREC` (R78, R143): store the length byte, then the value byte; the cursor passes `length + 1`
samples. -/
def execByterec (length value : Byte) (s : State) : Out :=
  andThen (emit length s) fun s1 =>
    andThen (emit value s1) fun s2 => .next { s2 with pos := s2.pos + length.toNat + 1 }

/-- `PACKSEG.REPEAT` (R80): the control byte `0x80 | count`, then the value byte. Count 0 is reserved. -/
def execPacksegRepeat (count : BitVec 7) (value : Byte) (s : State) : Out :=
  if count = 0#7 then .refused .reservedCount else emitRepeat count.toNat value s

/-- `PACKSEG.LITERAL` (R80, R174): the control byte of the segment open at `hdr`, whose bytes are already
in DST; the segment is closed. Count 0 is reserved. -/
def execPacksegLiteral (count : BitVec 7) (s : State) : Out :=
  if count = 0#7 then .refused .reservedCount else closeLiteral count.toNat s

/-- `STAGEA.INFO` (R79, R170): the batch opens with these flags; the info byte is passed over and never
reaches DST (R81). -/
def execStageaInfo (flags : Byte) (s : State) : Out :=
  .next { s with info := flags, a := s.a + 1, k := 0 }

end Sys2Proof.Machine
end

