-- ==== Sys2Proof/Machine/ByteEncoder.lean ====
section
/-! DEFINITION. The byte encoder's steps (42_byte_run_encoder.md, R142, R143). -/

namespace Sys2Proof.Machine

/-- Step `B_HEAD` (R142). -/
def stepBHead (s : State) : Out :=
  if s.n ≤ s.pos then .next { s with fsm := .finish }
  else withSample s.pos s fun x s' => .next { s' with cur := x, len := 0, fsm := .bScan }

/-- Step `B_SCAN` (R142). -/
def stepBScan (s : State) : Out :=
  scan (decide (s.len < 255)) (s.pos + 1 + s.len) s.cur
    (fun s' => { s' with len := s'.len + 1 }) (fun s' => { s' with fsm := .bEmit }) s

/-- Step `B_EMIT` (R143): the record of the counted run, then the next head. -/
def stepBEmit (s : State) : Out :=
  andThen (execByterec (BitVec.ofNat 8 s.len) s.cur s) fun s' => .next { s' with fsm := .bHead }

end Sys2Proof.Machine
end

