-- ==== Sys2Proof/Machine/NibbleEncoder.lean ====
section
/-! DEFINITION. The nibble encoder's steps (41_nibble_run_encoder.md, R121-R123). -/

namespace Sys2Proof.Machine

/-- Step `N_HEAD` (R121). -/
def stepNHead (s : State) : Out :=
  if s.n ≤ s.pos then .next { s with fsm := .finish }
  else withSample s.pos s fun x s' => .next { s' with cur := x, len := 0, fsm := .nScan }

/-- Step `N_SCAN` (R122). -/
def stepNScan (s : State) : Out :=
  scan (decide (s.len < 15)) (s.pos + 1 + s.len) s.cur
    (fun s' => { s' with len := s'.len + 1 }) (fun s' => { s' with fsm := .nEmit }) s

/-- Step `N_EMIT` (R123): the record of the counted run, then the next head. -/
def stepNEmit (s : State) : Out :=
  andThen (execNibrec (BitVec.ofNat 4 s.len) (s.cur.setWidth 4) s) fun s' => .next { s' with fsm := .nHead }

end Sys2Proof.Machine
end

