-- ==== Sys2Proof/Machine/Packer.lean ====
section
/-! DEFINITION. The adaptive packer's steps (43_adaptive_packer.md): Stage A (R162-R166) classifies the
stream into TMP, Stage B (R170-R175) repacks TMP into DST. -/

namespace Sys2Proof.Machine

/-- Step `A_HEAD` (R162). -/
def stepAHead (s : State) : Out :=
  if s.n ≤ s.pos then .next { s with fsm := .aEnd }
  else withSample s.pos s fun x s' => .next { s' with v := x, r := 1, fsm := .aScan }

/-- Step `A_SCAN` (R163). -/
def stepAScan (s : State) : Out :=
  scan (decide (s.r < 255)) (s.pos + s.r) s.v
    (fun s' => { s' with r := s'.r + 1 }) (fun s' => { s' with fsm := .aEmit }) s

/-- `A_EMIT`, first part (R164): with no batch open, reserve its info byte. -/
def openBatch (s : State) : Out :=
  if s.k = 0 then
    andThen (tmpAppend 0x00#8 { s with ip := s.t }) fun s' => .next { s' with info := 0x00#8 }
  else .next s

/-- `A_EMIT`, the unit's bytes (R165): a run unit for `r > 2`, else one literal unit. -/
def placeUnit (s : State) : Out :=
  if 2 < s.r then
    andThen (tmpAppend (BitVec.ofNat 8 s.r) { s with info := s.info ||| (0x80#8 >>> s.k) }) fun s1 =>
      andThen (tmpAppend s1.v s1) fun s2 => .next { s2 with pos := s2.pos + s2.r }
  else andThen (tmpAppend s.v s) fun s1 => .next { s1 with pos := s1.pos + 1 }

/-- `A_EMIT`, the batch's count (R165): after the eighth unit the info byte is back-patched. -/
def countUnit (s : State) : Out :=
  if s.k + 1 = 8 then andThen (bufWrite .tmp s.ip s.info s) fun s' => .next { s' with k := 0 }
  else .next { s with k := s.k + 1 }

/-- Step `A_EMIT` (R164, R165). -/
def stepAEmit (s : State) : Out :=
  andThen (openBatch s) fun s1 =>
    andThen (placeUnit s1) fun s2 =>
      andThen (countUnit s2) fun s3 => .next { s3 with fsm := .aHead }

/-- Step `A_END` (R166): the last batch's info byte, `TMPLEN`, and Stage B's registers. -/
def stepAEnd (s : State) : Out :=
  andThen (if 0 < s.k then bufWrite .tmp s.ip s.info s else .next s) fun s' =>
    .next { s' with
      tmplen := BitVec.ofNat 32 s'.t
      a := 0
      k := 8
      mode := .none
      rc := 0
      lc := 0
      out := 0
      fsm := .pAwait }

/-- Step `P_AWAIT` (R170). -/
def stepPAwait (s : State) : Out :=
  if s.tmplen.toNat ≤ s.a then .next { s with fsm := .pEnd }
  else if s.k = 8 then
    withByte .tmp s.a s fun b => andThen (execStageaInfo b s) fun s' => .next { s' with fsm := .pUnit }
  else .next { s with fsm := .pUnit }

/-- Flush of the open repeat stretch's remainder: `if rc > 0: emit(0x80 | rc); emit(rv)` (R171, R172, R175). -/
def flushRun (s : State) : Out := if 0 < s.rc then emitRepeat s.rc s.rv s else .next s

/-- Close the literal segment if one is open (R171, R175). -/
def closeIfLit (s : State) : Out := if s.mode = .lit then closeLiteral s.lc s else .next s

/-- R171: flush an open repeat stretch of another value than the unit's. -/
def flushIfOther (s : State) : Out :=
  if s.mode = .run ∧ s.rv ≠ s.v then andThen (flushRun s) fun s' => .next { s' with mode := .none }
  else .next s

/-- R171: open a repeat stretch unless one is open. -/
def openRun (s : State) : State :=
  if s.mode ≠ .run then { s with mode := .run, rv := s.v, rc := 0 } else s

/-- Step `P_UNIT`, event "run unit read" (R171). -/
def stepPRunUnit (s : State) : Out :=
  withByte .tmp s.a s fun count =>
    withByte .tmp (s.a + 1) s fun value =>
      andThen (closeIfLit { s with r := count.toNat, v := value, a := s.a + 2, k := s.k + 1 }) fun s1 =>
        andThen (flushIfOther s1) fun s2 =>
          .next { openRun s2 with rc := (openRun s2).rc + s2.r, fsm := .pOvf }

/-- R172: flush the open repeat stretch, if any. -/
def flushIfRun (s : State) : Out :=
  if s.mode = .run then andThen (flushRun s) fun s' => .next { s' with rc := 0, mode := .none }
  else .next s

/-- R172: open a literal segment, reserving its control byte, unless one is open. -/
def openLit (s : State) : Out :=
  if s.mode ≠ .lit then
    andThen (emit 0x00#8 { s with hdr := s.out }) fun s' => .next { s' with lc := 0, mode := .lit }
  else .next s

/-- R172: append the literal; at 127 the segment closes (literal overflow). -/
def appendLit (s : State) : Out :=
  andThen (emit s.v s) fun s' =>
    if s'.lc + 1 = 127 then closeLiteral 127 { s' with lc := s'.lc + 1 }
    else .next { s' with lc := s'.lc + 1 }

/-- Step `P_UNIT`, event "literal unit read" (R172). -/
def stepPLitUnit (s : State) : Out :=
  withByte .tmp s.a s fun value =>
    andThen (flushIfRun { s with v := value, a := s.a + 1, k := s.k + 1 }) fun s1 =>
      andThen (openLit s1) fun s2 =>
        andThen (appendLit s2) fun s3 => .next { s3 with fsm := .pAwait }

/-- Step `P_UNIT` (R171, R172): bit `7 - k` of the info byte names the unit's kind. -/
def stepPUnit (s : State) : Out :=
  if s.info.getLsbD (7 - s.k) then stepPRunUnit s else stepPLitUnit s

/-- Step `P_OVF` (R173): full segments of 127 while the counter holds that many. -/
def stepPOvf (s : State) : Out :=
  if 127 ≤ s.rc then
    andThen (execPacksegRepeat 127#7 s.rv s) fun s' => .next { s' with rc := s'.rc - 127 }
  else .next { s with fsm := .pAwait }

/-- Step `P_END` (R175): what is pending, and nothing else. -/
def stepPEnd (s : State) : Out :=
  andThen (if s.mode = .run then flushRun s else .next s) fun s1 =>
    andThen (closeIfLit s1) fun s2 => .next { s2 with mode := .none, fsm := .finish }

end Sys2Proof.Machine
end

