-- ==== Sys2Proof/Machine/Engine.lean ====
section
/-! DEFINITION. The engine: one step-level transition from any value of `fsm` (R20), and a run of them to
the operation's end (R278, R283). -/

namespace Sys2Proof.Machine

/-- Where a command is dispatched to (R205); a stream record is dispatched nowhere. -/
def headOf : Instr → Fsm
  | .encN1 => .nHead
  | .encN2 => .nHead
  | .encN4 => .nHead
  | .encB8 => .bHead
  | .encA8 => .aHead
  | .nibrec _ _ => .idle
  | .byterec _ _ => .idle
  | .packsegRepeat _ _ => .idle
  | .packsegLiteral _ => .idle
  | .stageaInfo _ => .idle

/-- Step `DECODE` (R201): the illegal word first (R202), then the over-long stream (R204), then dispatch
(R205). -/
def stepDecode (s : State) : Out :=
  match decodeCommand s.cmd with
  | .error _ => .next (s.raise .unsupportedFormat)
  | .ok i => if s.params.nmax < s.n then .next (s.raise .invalidInput) else .next { s with fsm := headOf i }

/-- One engine step (R52). An idle engine does nothing. -/
def engineStep (s : State) : Out :=
  match s.fsm with
  | .idle => .next s
  | .decode => stepDecode s
  | .nHead => stepNHead s
  | .nScan => stepNScan s
  | .nEmit => stepNEmit s
  | .bHead => stepBHead s
  | .bScan => stepBScan s
  | .bEmit => stepBEmit s
  | .aHead => stepAHead s
  | .aScan => stepAScan s
  | .aEmit => stepAEmit s
  | .aEnd => stepAEnd s
  | .pAwait => stepPAwait s
  | .pUnit => stepPUnit s
  | .pOvf => stepPOvf s
  | .pEnd => stepPEnd s
  | .finish => .next s.complete

/-- Engine steps until the block is idle, at most `fuel` of them. -/
def runEngine : Nat → State → Out
  | 0, s => .next s
  | fuel + 1, s => if s.fsm = .idle then .next s else andThen (engineStep s) (runEngine fuel)

/-- The bound of R283 on the steps of an operation. -/
def stepBound (n : Nat) : Nat := 10 * n + 6

end Sys2Proof.Machine
end

