-- ==== Sys2Proof/Machine/Commands.lean ====
section
/-! DEFINITION. The command family: each command's meaning is its whole operation (R2, R207) from the
state in which the engine has just decoded it: the length check (R204), then the encoder's steps to the
end. Acceptance (R200) has latched `N` and cleared the working registers before. -/

namespace Sys2Proof.Machine

/-- The operation at bit width `w` from the encoder's head state (R204, R205, R283). -/
def operate (w : Nat) (head : Fsm) (s : State) : Out :=
  if s.params.nmax < s.n then .next (s.raise .invalidInput)
  else runEngine (stepBound s.n) { s with w := w, fsm := head }

/-- `ENC.N1` (R127). -/
def execEncN1 (s : State) : Out := operate 1 .nHead s

/-- `ENC.N2` (R128). -/
def execEncN2 (s : State) : Out := operate 2 .nHead s

/-- `ENC.N4` (R129). -/
def execEncN4 (s : State) : Out := operate 4 .nHead s

/-- `ENC.B8` (R147). -/
def execEncB8 (s : State) : Out := operate 8 .bHead s

/-- `ENC.A8` (R180). -/
def execEncA8 (s : State) : Out := operate 8 .aHead s

end Sys2Proof.Machine
end

