-- ==== Sys2Proof/Machine/Dispatch.lean ====
section
/-! DEFINITION. The one match over Instr: each row of the table to its meaning. -/

namespace Sys2Proof.Machine

def exec (i : Instr) (s : State) : Host.Outcome State Fault Refusal :=
  match i with
  | .encN1 => Sys2Proof.Machine.execEncN1 s
  | .encN2 => Sys2Proof.Machine.execEncN2 s
  | .encN4 => Sys2Proof.Machine.execEncN4 s
  | .encB8 => Sys2Proof.Machine.execEncB8 s
  | .encA8 => Sys2Proof.Machine.execEncA8 s
  | .nibrec length value => Sys2Proof.Machine.execNibrec length value s
  | .byterec length value => Sys2Proof.Machine.execByterec length value s
  | .packsegRepeat count value => Sys2Proof.Machine.execPacksegRepeat count value s
  | .packsegLiteral count => Sys2Proof.Machine.execPacksegLiteral count s
  | .stageaInfo flags => Sys2Proof.Machine.execStageaInfo flags s

end Sys2Proof.Machine
end

