-- ==== Sys2Proof/Machine/HostMoves.lean ====
section
/-! DEFINITION. The host's moves (R212) and the notation of R75 for lists of them. No move blocks, stops
or raises an error. -/

namespace Sys2Proof.Machine

/-- `HostRegWrite(n, v)` (R11-R16, R212): a write to `CMD` on an idle block is a command, a write to `LEN`
on an idle block is stored; every other write, and every write while BUSY (R275), is ignored. -/
def State.regWrite (s : State) (n : Nat) (v : Word) : State :=
  if s.busy then s
  else
    match n with
    | 0 => s.accept v
    | 1 => { s with lenReg := v }
    | _ => s

/-- `HostRegRead(n)` (R11-R16, R212): while BUSY, `OUTLEN` and `TMPLEN` read as a draw (R274); an unmapped
number reads 0. -/
def State.regRead (s : State) (n : Nat) : State :=
  match n with
  | 0 => s.answer s.cmd
  | 1 => s.answer s.lenReg
  | 2 => s.answer s.status
  | 3 => if s.busy then s.answerDraw else s.answer s.outlen
  | 4 => if s.busy then s.answerDraw else s.answer s.tmplen
  | _ => s.answer 0#32

/-- `HostSrcWrite(i, b)` (R17, R41, R275). -/
def State.srcWrite (s : State) (i : Nat) (b : Byte) : State :=
  if s.busy = false ∧ i < s.params.srcBytes then { s with src := Memory.write s.src i b } else s

/-- `HostSrcRead(i)` (R17, R41). -/
def State.srcRead (s : State) (i : Nat) : State :=
  if i < s.params.srcBytes then s.answer ((s.byteAt .src i).setWidth 32) else s.answerDrawByte

/-- `HostDstRead(i)` (R18, R41, R212): a byte of the current EncodedBuffer, else a draw. -/
def State.dstRead (s : State) (i : Nat) : State :=
  if i < s.params.dstBytes ∧ s.busy = false ∧ s.resultValid = true ∧ i < s.outlen.toNat
  then s.answer ((s.byteAt .dst i).setWidth 32) else s.answerDrawByte

/-- What a host move does to the block (R212). -/
def hostMove (m : HostMove) (s : State) : State :=
  match m with
  | .regRead n => s.regRead n
  | .regWrite n v => s.regWrite n v
  | .srcWrite i b => s.srcWrite i b
  | .srcRead i => s.srcRead i
  | .dstRead i => s.dstRead i
  | .reset => s.afterReset

/-- `WSRC i, [b0 b1 ...]` (R75). -/
def wsrc : Nat → List Byte → List Turn
  | _, [] => []
  | i, b :: bs => .host (.srcWrite i b) :: wsrc (i + 1) bs

/-- `WLEN n` (R75). -/
def wlen (n : Word) : List Turn := [.host (.regWrite 1 n)]

/-- `WCMD c` (R75). -/
def wcmd (c : Word) : List Turn := [.host (.regWrite 0 c)]

/-- `ENC.N1` and the other four: the write of the command's word (R75). A record is no host line. -/
def enc (i : Instr) : List Turn :=
  match encode i with
  | .word c => wcmd c
  | .bytes _ => []

/-- `WAIT` (R75), one of its schedules: `k` reads of `STATUS` that come too early, then the operation's
end, then the read that sees it. -/
def wait (k : Nat) : List Turn :=
  List.replicate k (.host (.regRead 2)) ++ [.operation, .host (.regRead 2)]

/-- `RCMD`, `RLEN`, `RSTAT`, `ROUT`, `RTMP` are `rreg 0` to `rreg 4` (R75). -/
def rreg (n : Nat) : List Turn := [.host (.regRead n)]

/-- `RDST i` (R75). -/
def rdst (i : Nat) : List Turn := [.host (.dstRead i)]

/-- The modes of `ENCODE w, mode` (R75). -/
inductive EncodeMode where
  | rle
  | rle8
  | pack
deriving DecidableEq, Repr

/-- The command `ENCODE w, mode` stands for (R75); no other pair has one. -/
def encodeCommand (w : Nat) (mode : EncodeMode) : Option Instr :=
  match w, mode with
  | 1, .rle => some .encN1
  | 2, .rle => some .encN2
  | 4, .rle => some .encN4
  | 8, .rle8 => some .encB8
  | 8, .pack => some .encA8
  | _, _ => none

end Sys2Proof.Machine
end

