-- ==== Sys2Proof/Machine/Turns.lean ====
section
/-! DEFINITION. How the block moves on: host moves and engine transitions in the order the schedule gives,
what the engine runs next, and where an instruction must stand to be run next. -/

namespace Sys2Proof.Machine

/-- All that is left of the operation in one transition (R278). In `DECODE` the word in `CMD` is what
the engine runs: an illegal one is refused (R202), a command has its meaning. -/
def runOperation (s : State) : Out :=
  if s.fsm = .decode then
    match decodeCommand s.cmd with
    | .ok i => exec i s
    | .error _ => .next (s.raise .unsupportedFormat)
  else runEngine (stepBound s.n) s

/-- One turn. -/
def takeTurn (t : Turn) (s : State) : Out :=
  match t with
  | .host m => .next (hostMove m s)
  | .engine => engineStep s
  | .operation => runOperation s

/-- The next turn of the schedule; when it is empty nothing is left to come from outside and the engine
finishes what it has begun. -/
def nextTurn (s : State) : Out :=
  match s.turns with
  | [] => runOperation s
  | t :: ts => takeTurn t { s with turns := ts }

/-- Put an instruction where the next step runs it, and let the engine have that step. A command: as the
acceptance of its word leaves the block. A record: in the registers it is formed from, or at the TMP
cursor it is read at. -/
def State.place (s : State) (i : Instr) : State :=
  match i with
  | .encN1 => { s.accept 0x00000011#32 with turns := [] }
  | .encN2 => { s.accept 0x00000012#32 with turns := [] }
  | .encN4 => { s.accept 0x00000014#32 with turns := [] }
  | .encB8 => { s.accept 0x00000018#32 with turns := [] }
  | .encA8 => { s.accept 0x00000038#32 with turns := [] }
  | .nibrec length value =>
    { s with
      len := length.toNat, cur := value.setWidth 8, fsm := .nEmit
      status := statusWord true false .none, turns := [.engine] }
  | .byterec length value =>
    { s with
      len := length.toNat, cur := value, fsm := .bEmit
      status := statusWord true false .none, turns := [.engine] }
  | .packsegRepeat count value =>
    { s with
      mode := .run, rc := count.toNat, rv := value, fsm := .pEnd
      status := statusWord true false .none, turns := [.engine] }
  | .packsegLiteral count =>
    { s with
      mode := .lit, lc := count.toNat, fsm := .pEnd
      status := statusWord true false .none, turns := [.engine] }
  | .stageaInfo flags =>
    { s with
      tmp := Memory.write s.tmp s.a flags, tmplen := BitVec.ofNat 32 (s.a + 1), k := 8, fsm := .pAwait
      status := statusWord true false .none, turns := [.engine] }

/-- The word of a table row where the step fetches: a decoded instruction in its place; a 32-bit word that
is no command is accepted like any other (R200) and refused by the step (R202); bytes that decode to no
record are formed by no step. -/
def State.placeWord (s : State) (nbits w : Nat) : State :=
  match decodeTableWord nbits w with
  | some i => s.place i
  | none => if nbits = 32 then { s.accept (BitVec.ofNat 32 w) with turns := [] } else s

end Sys2Proof.Machine
end

