-- ==== Sys2Proof/Machine/Encoders.lean ====
section
/-! DEFINITION. The operation level (R7): the encoders as pure functions on the list of samples. The list
`S` and the position `p` are the spec's; a loop `while p < N` runs under the fuel `N`, since each pass
moves `p` on by at least 1 (R106). -/

namespace Sys2Proof.Machine

/-- How many elements at the front of a list equal `x`, counting at most `cap`. -/
def leading (x : Byte) : Nat → List Byte → Nat
  | 0, _ => 0
  | _ + 1, [] => 0
  | cap + 1, y :: ys => if y = x then leading x cap ys + 1 else 0

/-- `RunLen(p, cap)` (R105): the samples from `p` on that equal `S[p]`, itself counted, at most `cap`. -/
def runLen (S : List Byte) (p cap : Nat) : Nat :=
  match S.drop p with
  | [] => 0
  | x :: xs => 1 + leading x (cap - 1) xs

/-- The loop of `NibEnc` (R120). -/
def nibEncFrom (S : List Byte) : Nat → Nat → List Byte
  | 0, _ => []
  | fuel + 1, p =>
    match S[p]? with
    | none => []
    | some x => (BitVec.ofNat 8 (runLen S p 16 - 1) <<< 4 ||| x) :: nibEncFrom S fuel (p + runLen S p 16)

/-- `NibEnc(S)` (R120). -/
def nibEnc (S : List Byte) : List Byte := nibEncFrom S S.length 0

/-- The loop of `ByteEnc` (R140). -/
def byteEncFrom (S : List Byte) : Nat → Nat → List Byte
  | 0, _ => []
  | fuel + 1, p =>
    match S[p]? with
    | none => []
    | some x => BitVec.ofNat 8 (runLen S p 256 - 1) :: x :: byteEncFrom S fuel (p + runLen S p 256)

/-- `ByteEnc(S)` (R140). -/
def byteEnc (S : List Byte) : List Byte := byteEncFrom S S.length 0

/-- Stage A's units (R160): `run R v` is `R` samples equal to `v`, `lit b` the sample `b`. -/
inductive AUnit where
  | run (r : Nat) (v : Byte)
  | lit (b : Byte)
deriving DecidableEq, Repr

/-- The loop of `UnitsA` (R160). -/
def unitsAFrom (S : List Byte) : Nat → Nat → List AUnit
  | 0, _ => []
  | fuel + 1, p =>
    match S[p]? with
    | none => []
    | some x =>
      if 2 < runLen S p 255 then .run (runLen S p 255) x :: unitsAFrom S fuel (p + runLen S p 255)
      else .lit x :: unitsAFrom S fuel (p + 1)

/-- `UnitsA(S)` (R160). -/
def unitsA (S : List Byte) : List AUnit := unitsAFrom S S.length 0

/-- The bytes of a unit in TMP (R79, R161). -/
def AUnit.bytes : AUnit → List Byte
  | .run r v => [BitVec.ofNat 8 r, v]
  | .lit b => [b]

/-- The samples a unit stands for (R79, R229). -/
def AUnit.samples : AUnit → List Byte
  | .run r v => List.replicate r v
  | .lit b => [b]

/-- The info byte's bits for the units from position `k` of a batch on (R161). -/
def infoFrom : Nat → List AUnit → Byte
  | _, [] => 0x00#8
  | k, .run _ _ :: us => (0x80#8 >>> k) ||| infoFrom (k + 1) us
  | k, .lit _ :: us => infoFrom (k + 1) us

/-- A batch in TMP: its info byte, then its units' bytes (R161). -/
def batchBytes (us : List AUnit) : List Byte := infoFrom 0 us :: us.flatMap AUnit.bytes

/-- The batches of a unit list, eight units each but the last (R161). -/
def layoutFrom : Nat → List AUnit → List Byte
  | 0, _ => []
  | _ + 1, [] => []
  | fuel + 1, u :: us => batchBytes ((u :: us).take 8) ++ layoutFrom fuel ((u :: us).drop 8)

/-- A unit list in the STAGEA format (R79, R161). -/
def layout (us : List AUnit) : List Byte := layoutFrom us.length us

/-- `StageA(S)` (R161). -/
def stageA (S : List Byte) : List Byte := layout (unitsA S)

/-- `ParseA` from inside a batch whose info byte is `info` and of which `k` units are read; 8 means that no
batch is open (R168). Lists Stage A cannot have made have no value (R168, U12). -/
def parseAFrom : Byte → Nat → List Byte → Option (List AUnit)
  | _, _, [] => some []
  | info, k, b :: rest =>
    if k = 8 then
      match rest with
      | [] => none
      | c :: rest' => parseAFrom b 0 (c :: rest')
    else if info.getLsbD (7 - k) then
      match rest with
      | [] => none
      | v :: rest' => (parseAFrom info (k + 1) rest').map fun us => .run b.toNat v :: us
    else (parseAFrom info (k + 1) rest).map fun us => .lit b :: us

/-- `ParseA(T)` (R168). -/
def parseA (T : List Byte) : Option (List AUnit) := parseAFrom 0x00#8 8 T

/-- Stage B's stretches (R169): consecutive literal units, or consecutive run units of one value. -/
inductive Stretch where
  | lits (bs : List Byte)
  | reps (v : Byte) (total : Nat)
deriving DecidableEq, Repr

/-- Put a unit before a list of stretches, into its first stretch where it belongs to that one. -/
def joinUnit (u : AUnit) (ss : List Stretch) : List Stretch :=
  match u, ss with
  | .lit b, .lits bs :: rest => .lits (b :: bs) :: rest
  | .lit b, rest => .lits [b] :: rest
  | .run r v, .reps v' t :: rest => if v = v' then .reps v (r + t) :: rest else .reps v r :: .reps v' t :: rest
  | .run r v, rest => .reps v r :: rest

/-- A unit list cut into maximal stretches (R169). -/
def stretches (us : List AUnit) : List Stretch := us.foldr joinUnit []

/-- The literal segments of a literal stretch, at most 127 bytes each (R169). -/
def litSegments : Nat → List Byte → List Byte
  | 0, _ => []
  | _ + 1, [] => []
  | fuel + 1, b :: bs =>
    BitVec.ofNat 8 ((b :: bs).take 127).length :: (b :: bs).take 127 ++ litSegments fuel ((b :: bs).drop 127)

/-- The repeat segments of a repeat stretch, at most 127 repeats each (R169). -/
def repSegments (v : Byte) (total : Nat) : List Byte :=
  (List.replicate (total / 127) [0xFF#8, v]).flatten ++
    (if total % 127 = 0 then [] else [0x80#8 ||| BitVec.ofNat 8 (total % 127), v])

/-- The segments of a stretch (R169). -/
def Stretch.bytes : Stretch → List Byte
  | .lits bs => litSegments bs.length bs
  | .reps v total => repSegments v total

/-- `StageB(U)` (R169). -/
def stageB (us : List AUnit) : List Byte := (stretches us).flatMap Stretch.bytes

/-- `PackEnc(S)` (R181). -/
def packEnc (S : List Byte) : List Byte := stageB (unitsA S)

end Sys2Proof.Machine
end

