-- ==== Sys2Proof/Machine/ReferenceDecoders.lean ====
section
/-! DEFINITION. The reference decoders (45_reference_decoders.md): pure functions to state correctness
with, no part of the hardware (R3, R220). -/

namespace Sys2Proof.Machine

/-- The samples one record stands for, and what is left of the bytes that follow its encoding: a literal
segment's samples are the next `count` of them (R77, R78, R80). -/
def recordSamples : Instr → List Byte → Option (List Byte × List Byte)
  | .nibrec length value, rest => some (List.replicate (length.toNat + 1) (value.setWidth 8), rest)
  | .byterec length value, rest => some (List.replicate (length.toNat + 1) value, rest)
  | .packsegRepeat count value, rest => some (List.replicate count.toNat value, rest)
  | .packsegLiteral count, rest =>
    if count.toNat ≤ rest.length then some (rest.take count.toNat, rest.drop count.toNat) else none
  | .stageaInfo _, _ => none
  | .encN1, _ => none
  | .encN2, _ => none
  | .encN4, _ => none
  | .encB8, _ => none
  | .encA8, _ => none

/-- Decode records in format `f` to the end of the list; each takes at least one byte. -/
def decodeStreamFrom (f : Format) : Nat → List Byte → Option (List Byte)
  | _, [] => some []
  | 0, _ :: _ => none
  | fuel + 1, b :: bs =>
    match decodeRecord f (b :: bs) with
    | .error _ => none
    | .ok (i, rest) =>
      match recordSamples i rest with
      | none => none
      | some (samples, rest') => (decodeStreamFrom f fuel rest').map fun more => samples ++ more

/-- `NibDec(B)` (R221). -/
def nibDec (B : List Byte) : Option (List Byte) := decodeStreamFrom .nibrec B.length B

/-- A nibble stream is well-formed for width `w` when every value field is below `2^w` (R221). -/
def nibWellFormed (w : Nat) (B : List Byte) : Bool := B.all fun b => decide ((b.extractLsb' 0 4).toNat < 2 ^ w)

/-- `ByteDec(B)` (R222); a list of odd length has no value. -/
def byteDec (B : List Byte) : Option (List Byte) := decodeStreamFrom .byterec B.length B

/-- `PackDec(B)` (R223); a reserved control byte or a truncated segment has no value (R224). -/
def packDec (B : List Byte) : Option (List Byte) := decodeStreamFrom .packseg B.length B

/-- The counts of the segments a PACKSEG stream opens with, up to its end or the first malformed one. -/
def segmentCountsFrom : Nat → List Byte → List Nat
  | 0, _ => []
  | fuel + 1, B =>
    match decodeRecord .packseg B with
    | .ok (.packsegRepeat count _, rest) => count.toNat :: segmentCountsFrom fuel rest
    | .ok (.packsegLiteral count, rest) => count.toNat :: segmentCountsFrom fuel (rest.drop count.toNat)
    | _ => []

/-- The segment counts of a PACKSEG stream (R80, R229). -/
def segmentCounts (B : List Byte) : List Nat := segmentCountsFrom B.length B

end Sys2Proof.Machine
end

