-- ==== Sys2Proof/Safety.lean ====
section
/-! DEFINITION. The terms claims are made in: the result of an operation (R284), and the invariants a run
keeps (R13, R20, R31). -/

namespace Sys2Proof.Machine

/-- The first `n` bytes of a buffer. -/
def State.bytesOf (s : State) (sp : Space) (n : Nat) : List Byte := (List.range n).map (s.byteAt sp)

/-- The `n` bytes of a buffer from index `i` on. -/
def State.bytesFrom (s : State) (sp : Space) (i n : Nat) : List Byte := (List.range' i n).map (s.byteAt sp)

/-- `DST[0 .. OUTLEN-1]` (R14, R284). -/
def State.encodedBuffer (s : State) : List Byte := s.bytesOf .dst s.outlen.toNat

/-- `TMP[0 .. TMPLEN-1]`, Stage A's buffer (R15). -/
def State.stageABuffer (s : State) : List Byte := s.bytesOf .tmp s.tmplen.toNat

/-- The SampleStream of the next command at bit width `w`: `LEN` samples of SRC (R100). -/
def State.input (s : State) (w : Nat) : List Byte := s.stream w s.lenReg.toNat

/-- The result of an operation that has ended (R284). -/
def State.result (s : State) : Word × Word × Word × List Byte := (s.status, s.outlen, s.tmplen, s.encodedBuffer)

/-- Every buffer is in canonical form and lists only indices it has. -/
def State.BuffersWf (s : State) : Prop :=
  (Memory.wf s.src ∧ Memory.within s.params.srcBytes s.src) ∧
    (Memory.wf s.tmp ∧ Memory.within s.params.tmpBytes s.tmp) ∧
      (Memory.wf s.dst ∧ Memory.within s.params.dstBytes s.dst)

/-- R13, R20: `STATUS` is 0x01 exactly while the engine works, and else one of the four idle values. -/
def State.StatusOk (s : State) : Prop :=
  (s.status = 0x01#32 ↔ s.fsm ≠ .idle) ∧
    (s.status = 0x00#32 ∨ s.status = 0x01#32 ∨ s.status = 0x02#32 ∨ s.status = 0x12#32 ∨ s.status = 0x22#32)

/-- Exactly `k` engine steps. -/
def engineSteps : Nat → State → Out
  | 0, s => .next s
  | k + 1, s => andThen (engineStep s) (engineSteps k)

/-- R31 in the nibble encoder: the latched values a dispatch guarantees, and `out <= pos <= N`. -/
def State.NibBounds (s : State) : Prop :=
  s.n ≤ s.params.nmax ∧ (s.w = 1 ∨ s.w = 2 ∨ s.w = 4) ∧ s.pos ≤ s.n ∧ s.out ≤ s.pos

/-- R31 in the byte encoder: `out <= 2*pos`. -/
def State.ByteBounds (s : State) : Prop :=
  s.n ≤ s.params.nmax ∧ s.w = 8 ∧ s.pos ≤ s.n ∧ s.out ≤ 2 * s.pos

/-- What a unit of Stage A is: a run unit's count is 3 to 255 (R79, R160). -/
def AUnit.fits : AUnit → Prop
  | .run r _ => 3 ≤ r ∧ r ≤ 255
  | .lit _ => True

/-- How many samples a unit list stands for (R79). -/
def unitSamples (us : List AUnit) : Nat := (us.flatMap AUnit.samples).length

/-- Stage A's buffer so far (R161, R164, R165): the closed batches, eight units each, then the open batch of
`k` units with the placeholder where its info byte, assembled in `info`, will be back-patched. They stand
for the first `pos` samples. -/
def State.StageALaid (s : State) : Prop :=
  ∃ closed batch : List AUnit,
    closed.length % 8 = 0 ∧ batch.length = s.k ∧ s.k < 8 ∧ (∀ u ∈ closed ++ batch, u.fits) ∧
      unitSamples (closed ++ batch) = s.pos ∧
      s.bytesOf .tmp s.t =
        layout closed ++ (if s.k = 0 then [] else 0x00#8 :: batch.flatMap AUnit.bytes) ∧
      (0 < s.k → s.ip = (layout closed).length ∧ s.info = infoFrom 0 batch)

/-- R31 in Stage A: `t <= pos + ceil(pos/8)`, from the units laid out so far. -/
def State.StageABounds (s : State) : Prop :=
  s.n ≤ s.params.nmax ∧ s.w = 8 ∧ s.pos ≤ s.n ∧ s.t ≤ s.pos + (s.pos + 7) / 8 ∧ s.StageALaid

/-- R31 and R24 in Stage B: `a <= TMPLEN` with the cursor at a unit boundary, where ParseA reads the units
that are left; an open literal segment is its control byte and `lc` bytes at the end of DST; and the bytes
emitted, two for each repeat held back and two for each sample still to come, are at most `2*N`. -/
def State.StageBBounds (s : State) : Prop :=
  s.n ≤ s.params.nmax ∧ s.tmplen.toNat ≤ s.n + (s.n + 7) / 8 ∧ s.a ≤ s.tmplen.toNat ∧ s.k ≤ 8 ∧
    (s.mode = .lit → 1 ≤ s.lc ∧ s.lc ≤ 126 ∧ s.out = s.hdr + 1 + s.lc) ∧
    ∃ rest : List AUnit, parseAFrom s.info s.k (s.bytesFrom .tmp s.a (s.tmplen.toNat - s.a)) = some rest ∧
      s.out + (if s.mode = .run then 2 * s.rc else 0) + 2 * unitSamples rest ≤ 2 * s.n

/-- R31's bounds at each value of `fsm`, with what the steps before it have established. -/
def State.BoundsOk (s : State) : Prop :=
  s.params.ok ∧
    match s.fsm with
    | .idle => True
    | .decode =>
      s.n = s.lenReg.toNat ∧ s.w = cmdBW s.cmd ∧ s.pos = 0 ∧ s.out = 0 ∧ s.t = 0 ∧ s.k = 0
    | .nHead => s.NibBounds
    | .nScan => s.NibBounds ∧ s.len ≤ 15 ∧ s.pos + s.len + 1 ≤ s.n
    | .nEmit => s.NibBounds ∧ s.len ≤ 15 ∧ s.pos + s.len + 1 ≤ s.n
    | .bHead => s.ByteBounds
    | .bScan => s.ByteBounds ∧ s.len ≤ 255 ∧ s.pos + s.len + 1 ≤ s.n
    | .bEmit => s.ByteBounds ∧ s.len ≤ 255 ∧ s.pos + s.len + 1 ≤ s.n
    | .aHead => s.StageABounds
    | .aScan => s.StageABounds ∧ 1 ≤ s.r ∧ s.r ≤ 255 ∧ s.pos + s.r ≤ s.n
    | .aEmit => s.StageABounds ∧ 1 ≤ s.r ∧ s.r ≤ 255 ∧ s.pos + s.r ≤ s.n
    | .aEnd => s.StageABounds ∧ s.pos = s.n
    | .pAwait => s.StageBBounds ∧ s.rc ≤ 126
    | .pUnit => s.StageBBounds ∧ s.rc ≤ 126 ∧ s.k < 8 ∧ s.a < s.tmplen.toNat
    | .pOvf => s.StageBBounds ∧ s.mode = .run ∧ s.rc ≤ 381
    | .pEnd => s.StageBBounds ∧ s.rc ≤ 126 ∧ s.a = s.tmplen.toNat
    | .finish => s.n ≤ s.params.nmax ∧ s.out ≤ 2 * s.n

end Sys2Proof.Machine
end

