-- ==== Sys2Proof/Certificates/Slice0/Obligations.lean ====
section
/-! DEFINITION. The statements for the provers. Each docstring says which rule of spec/ it formalises. An
accepted command is `s.accept c` for any state `s`: acceptance (R200) leaves the block so. -/

open Sys2Proof Sys2Proof.Machine

/-! ### Encodings -/

/-- R72, R77-R80, words written out from the spec's encodings. A sanity statement. -/
def Obligations.SampleWordsDecode : Prop :=
  decode .cmd32 (.word 0b00000000000000000000000000010001#32) = .ok .encN1 ∧
  decode .cmd32 (.word 0b00000000000000000000000000111000#32) = .ok .encA8 ∧
  decode .nibrec (.bytes [0b11110001#8]) = .ok (.nibrec 15#4 1#4) ∧
  decode .byterec (.bytes [0b00000010#8, 0b00000101#8]) = .ok (.byterec 2#8 5#8) ∧
  decode .packseg (.bytes [0b10000011#8, 0b00000111#8]) = .ok (.packsegRepeat 3#7 7#8) ∧
  decode .packseg (.bytes [0b01111111#8]) = .ok (.packsegLiteral 127#7) ∧
  decode .stagea (.bytes [0b01000000#8]) = .ok (.stageaInfo 0x40#8)

/-- R72: a word is a command exactly when it equals one of the five values. -/
def Obligations.CommandsAreExactlyFiveWords : Prop :=
  ∀ (c : Word) (i : Instr), decodeCommand c = .ok i ↔
    (c = 0x00000011#32 ∧ i = .encN1) ∨ (c = 0x00000012#32 ∧ i = .encN2) ∨ (c = 0x00000014#32 ∧ i = .encN4) ∨
      (c = 0x00000018#32 ∧ i = .encB8) ∨ (c = 0x00000038#32 ∧ i = .encA8)

/-- R74: the four classes of illegal words, each with its condition on the word's number. -/
def Obligations.IllegalWordsByClass : Prop :=
  ∀ c : Word,
    (decodeCommand c = .error .reservedBits ↔ 64 ≤ c.toNat) ∧
    (decodeCommand c = .error .badWidth ↔
      c.toNat < 64 ∧ c.toNat % 16 ≠ 1 ∧ c.toNat % 16 ≠ 2 ∧ c.toNat % 16 ≠ 4 ∧ c.toNat % 16 ≠ 8) ∧
    (decodeCommand c = .error .uncompressed ↔
      c ∈ [0x01#32, 0x02#32, 0x04#32, 0x08#32, 0x21#32, 0x22#32, 0x24#32, 0x28#32]) ∧
    (decodeCommand c = .error .misplacedStrategy ↔ c ∈ [0x31#32, 0x32#32, 0x34#32])

/-- Every row of the table, at every value of its fields the encoding admits, decodes from its own code. -/
def Obligations.DecodeOfEncode : Prop :=
  ∀ i : Instr, i.wf = true → decode i.format (encode i) = .ok i

/-- Whatever a decoder accepts is well-formed, of that format, and encodes to what was read. -/
def Obligations.EncodeOfDecode : Prop :=
  ∀ (f : Format) (c : Code) (i : Instr), decode f c = .ok i → i.wf = true ∧ i.format = f ∧ encode i = c

/-- R80, R224: the control bytes 0x00 and 0x80 are refused, whatever follows, and so are the records they
would be. -/
def Obligations.ReservedCountsRefused : Prop :=
  (∀ rest : List Byte, decodeRecord .packseg (0x00#8 :: rest) = .error .reservedCount ∧
    decodeRecord .packseg (0x80#8 :: rest) = .error .reservedCount) ∧
  ∀ (value : Byte) (s : State), exec (.packsegRepeat 0#7 value) s = .refused .reservedCount ∧
    exec (.packsegLiteral 0#7) s = .refused .reservedCount

/-! ### A step runs what it fetches -/

/-- With nothing pending from outside, the step in DECODE is the meaning of the command in `CMD`; and
`place` puts a command there. -/
def Obligations.StepRunsTheDecodedCommand : Prop :=
  (∀ (s : State) (i : Instr), s.turns = [] → s.fsm = .decode → decodeCommand s.cmd = .ok i →
    step s = exec i s) ∧
  ∀ (s : State) (i : Instr), i.format = .cmd32 → step (s.place i) = exec i (s.place i)

/-- The engine's turn carries out the record that its registers or TMP hold, and then moves `fsm` on. -/
def Obligations.StepRunsTheRecord : Prop :=
  ∀ (s : State) (ts : List Turn), s.turns = .engine :: ts →
    (s.fsm = .nEmit → step s =
      andThen (exec (.nibrec (BitVec.ofNat 4 s.len) (s.cur.setWidth 4)) { s with turns := ts })
        fun t => .next { t with fsm := .nHead }) ∧
    (s.fsm = .bEmit → step s =
      andThen (exec (.byterec (BitVec.ofNat 8 s.len) s.cur) { s with turns := ts })
        fun t => .next { t with fsm := .bHead }) ∧
    (s.fsm = .pAwait → s.a < s.tmplen.toNat → s.a < s.params.tmpBytes → s.k = 8 → step s =
      andThen (exec (.stageaInfo (s.byteAt .tmp s.a)) { s with turns := ts })
        fun t => .next { t with fsm := .pUnit }) ∧
    (s.fsm = .pOvf → 127 ≤ s.rc → step s =
      andThen (exec (.packsegRepeat 127#7 s.rv) { s with turns := ts })
        fun t => .next { t with rc := t.rc - 127 }) ∧
    (∀ c : BitVec 7, s.fsm = .pEnd → s.mode = .run → c ≠ 0#7 → s.rc = c.toNat → step s =
      andThen (exec (.packsegRepeat c s.rv) { s with turns := ts })
        fun t => .next { t with mode := .none, fsm := .finish }) ∧
    (∀ c : BitVec 7, s.fsm = .pEnd → s.mode = .lit → c ≠ 0#7 → s.lc = c.toNat → step s =
      andThen (exec (.packsegLiteral c) { s with turns := ts })
        fun t => .next { t with mode := .none, fsm := .finish })

/-! ### Command acceptance, errors, dispatch -/

/-- R200: the host's write of `c` to `CMD` on an idle block, every assignment of R32; on a busy block the
write is ignored entirely. -/
def Obligations.CommandAcceptance : Prop :=
  ∀ (s : State) (ts : List Turn) (c : Word), s.turns = .host (.regWrite 0 c) :: ts →
    (s.fsm = .idle → step s = .next { s with
      turns := ts, cmd := c, n := s.lenReg.toNat, w := (c.extractLsb' 0 4).toNat, pos := 0, out := 0
      cur := 0#8, len := 0, v := 0#8, r := 0, info := 0#8, k := 0, ip := 0, t := 0, a := 0, mode := .none
      rv := 0#8, rc := 0, hdr := 0, lc := 0, gv := false, outlen := 0#32, tmplen := 0#32
      status := 0x01#32, fsm := .decode }) ∧
    (s.fsm ≠ .idle → step s = .next { s with turns := ts })

/-- R202, R244, R246: an illegal word, whatever `LEN` is, ends with UnsupportedFormat; the state entered
differs from the one before in `OUTLEN`, `TMPLEN`, `STATUS` and `fsm` only. -/
def Obligations.IllegalWordEntersError : Prop :=
  ∀ (s : State) (e : DecodeError), s.turns = [] → s.fsm = .decode → decodeCommand s.cmd = .error e →
    step s = .next { s with outlen := 0#32, tmplen := 0#32, status := 0x12#32, fsm := .idle }

/-- R204, R244: a legal command with `N > NMAX` ends with InvalidInput, for each of the five. -/
def Obligations.OverlongStreamEntersError : Prop :=
  ∀ (s : State) (i : Instr), i.format = .cmd32 → s.params.nmax < s.n →
    exec i s = .next { s with outlen := 0#32, tmplen := 0#32, status := 0x22#32, fsm := .idle }

/-- R205: the engine's step in DECODE for a legal command with `N <= NMAX`. -/
def Obligations.DispatchGoesToTheEncoder : Prop :=
  ∀ (s : State) (ts : List Turn) (i : Instr), s.turns = .engine :: ts → s.fsm = .decode →
    decodeCommand s.cmd = .ok i → s.n ≤ s.params.nmax →
    (i = .encN1 ∨ i = .encN2 ∨ i = .encN4 → step s = .next { s with turns := ts, fsm := .nHead }) ∧
    (i = .encB8 → step s = .next { s with turns := ts, fsm := .bHead }) ∧
    (i = .encA8 → step s = .next { s with turns := ts, fsm := .aHead })

/-! ### The host's moves and reset -/

/-- R212: the table of host moves. A `draw` is the model's free value `Config.draw` (log 7), `rdata` the model's
place for what a read returns (log 6), `afterReset` the state of R270 (log 17). -/
def Obligations.HostMovesTable : Prop :=
  ∀ (s : State) (ts : List Turn),
    let next (m : HostMove) : Host.Outcome State Fault Refusal := step { s with turns := .host m :: ts }
    let u : State := { s with turns := ts }
    let read (x : Word) : Host.Outcome State Fault Refusal := .next { u with rdata := x }
    let draw : Host.Outcome State Fault Refusal :=
      .next { u with rdata := Config.draw s.draws, draws := s.draws + 1 }
    let drawByte : Host.Outcome State Fault Refusal :=
      .next { u with rdata := ((Config.draw s.draws).setWidth 8).setWidth 32, draws := s.draws + 1 }
    (∀ c, s.fsm = .idle → next (.regWrite 0 c) = .next (u.accept c)) ∧
    (∀ x, s.fsm = .idle → next (.regWrite 1 x) = .next { u with lenReg := x }) ∧
    (∀ n x, 2 ≤ n → next (.regWrite n x) = .next u) ∧
    (∀ n x, s.fsm ≠ .idle → next (.regWrite n x) = .next u) ∧
    next (.regRead 0) = read s.cmd ∧ next (.regRead 1) = read s.lenReg ∧ next (.regRead 2) = read s.status ∧
    (s.fsm = .idle → next (.regRead 3) = read s.outlen ∧ next (.regRead 4) = read s.tmplen) ∧
    (s.fsm ≠ .idle → next (.regRead 3) = draw ∧ next (.regRead 4) = draw) ∧
    (∀ n, 5 ≤ n → next (.regRead n) = read 0#32) ∧
    (∀ i b, s.fsm = .idle → i < s.params.srcBytes →
      next (.srcWrite i b) = .next { u with src := Memory.write s.src i b }) ∧
    (∀ i b, s.fsm ≠ .idle ∨ s.params.srcBytes ≤ i → next (.srcWrite i b) = .next u) ∧
    (∀ i, i < s.params.srcBytes → next (.srcRead i) = read ((s.byteAt .src i).setWidth 32)) ∧
    (∀ i, s.params.srcBytes ≤ i → next (.srcRead i) = drawByte) ∧
    (∀ i, i < s.params.dstBytes → s.fsm = .idle → s.doneBit = true → s.errField = 0#3 → i < s.outlen.toNat →
      next (.dstRead i) = read ((s.byteAt .dst i).setWidth 32)) ∧
    (∀ i, s.params.dstBytes ≤ i ∨ s.fsm ≠ .idle ∨ s.doneBit = false ∨ s.errField ≠ 0#3 ∨ s.outlen.toNat ≤ i →
      next (.dstRead i) = drawByte) ∧
    next .reset = .next u.afterReset

/-- R275: while the engine works, every host write is ignored. -/
def Obligations.WritesWhileBusyAreIgnored : Prop :=
  ∀ (s : State) (ts : List Turn), s.fsm ≠ .idle →
    (∀ n x, step { s with turns := .host (.regWrite n x) :: ts } = .next { s with turns := ts }) ∧
    ∀ i b, step { s with turns := .host (.srcWrite i b) :: ts } = .next { s with turns := ts }

/-- R209: from completion to the next acceptance the results stay, whatever else the host does. -/
def Obligations.ResultsAreStable : Prop :=
  ∀ (s : State) (ts : List Turn) (m : HostMove), s.fsm = .idle → s.turns = .host m :: ts →
    m ≠ .reset → (∀ c, m ≠ .regWrite 0 c) →
    ∃ t, step s = .next t ∧ t.status = s.status ∧ t.outlen = s.outlen ∧ t.tmplen = s.tmplen ∧ t.cmd = s.cmd ∧
      t.encodedBuffer = s.encodedBuffer

/-- R270, R271, R33: reset at any moment. The registers, `fsm` and `GV` are the rule's. That each buffer lists
nothing and the epoch moves on is the model's form of unspecified bytes (log 2), and that the parameters
stay is its choice too (logs 3, 17). The values of working registers the spec leaves unspecified (log 1) are
not stated. -/
def Obligations.ResetFromAnyState : Prop :=
  ∀ (s : State) (ts : List Turn), s.turns = .host .reset :: ts →
    ∃ t, step s = .next t ∧ t.cmd = 0#32 ∧ t.lenReg = 0#32 ∧ t.status = 0#32 ∧ t.outlen = 0#32 ∧ t.tmplen = 0#32 ∧
      t.fsm = .idle ∧ t.gv = false ∧ t.src = [] ∧ t.tmp = [] ∧ t.dst = [] ∧ t.epoch = s.epoch + 1 ∧
      t.params = s.params

/-- R33: the values the spec gives for reset. -/
def Obligations.ResetValues : Prop :=
  State.reset.cmd = 0#32 ∧ State.reset.lenReg = 0#32 ∧ State.reset.status = 0#32 ∧ State.reset.outlen = 0#32 ∧
    State.reset.tmplen = 0#32 ∧ State.reset.fsm = .idle ∧ State.reset.gv = false

/-- R53, R275, R278: a host move other than reset that comes while an operation runs changes nothing of how
the operation ends; only the value the host has read differs. -/
def Obligations.HostMovesDuringAnOperationDoNotTouchIt : Prop :=
  ∀ (s t : State) (m : HostMove), s.fsm ≠ .idle → m ≠ .reset →
    step { s with turns := [.operation] } = .next t →
    ∃ u, step { s with turns := [.host m, .operation] } = .next u ∧
      step u = .next { t with rdata := u.rdata, draws := u.draws }

/-- R278: an operation made in one transition ends as it does when the engine takes its steps one by one. -/
def Obligations.OneTransitionEqualsManySteps : Prop :=
  ∀ s t : State, s.fsm ≠ .idle → (s.fsm = .decode → s.w = cmdBW s.cmd) →
    step { s with turns := [.operation] } = .next t → t.fsm = .idle →
    ∃ u, step { s with turns := [.engine] } = .next u ∧ step { u with turns := [.operation] } = .next t

/-! ### The stream records -/

/-- R77: NIBREC stores `(length << 4) | value` at the append position. -/
def Obligations.NibrecStores : Prop :=
  ∀ (length value : BitVec 4) (s : State), s.out < s.params.dstBytes →
    exec (.nibrec length value) s = .next { s with
      dst := Memory.write s.dst s.out (length.setWidth 8 <<< 4 ||| value.setWidth 8)
      out := s.out + 1
      pos := s.pos + (length.toNat + 1) }

/-- R78: BYTEREC stores the length byte, then the value byte. -/
def Obligations.ByterecStores : Prop :=
  ∀ (length value : Byte) (s : State), s.out + 1 < s.params.dstBytes →
    exec (.byterec length value) s = .next { s with
      dst := Memory.write (Memory.write s.dst s.out length) (s.out + 1) value
      out := s.out + 2
      pos := s.pos + (length.toNat + 1) }

/-- R80: a repeat segment is the control byte `0x80 | count` and the value; a literal segment's control byte
is its count, stored where the segment was opened (R174). -/
def Obligations.SegmentsStore : Prop :=
  (∀ (count : BitVec 7) (value : Byte) (s : State), count ≠ 0#7 → s.out + 1 < s.params.dstBytes →
    exec (.packsegRepeat count value) s = .next { s with
      dst := Memory.write (Memory.write s.dst s.out (0x80#8 ||| count.setWidth 8)) (s.out + 1) value
      out := s.out + 2 }) ∧
  ∀ (count : BitVec 7) (s : State), count ≠ 0#7 → s.hdr < s.params.dstBytes →
    exec (.packsegLiteral count) s = .next { s with
      dst := Memory.write s.dst s.hdr (count.setWidth 8)
      mode := .none }

/-- R170: an info byte opens a batch of units, and nothing of it reaches a buffer (R81). -/
def Obligations.InfoByteOpensABatch : Prop :=
  ∀ (flags : Byte) (s : State), exec (.stageaInfo flags) s = .next { s with info := flags, a := s.a + 1, k := 0 }

/-- The frame of the records: which registers stay, and every byte of memory outside the bytes stored. -/
def Obligations.RecordFrames : Prop :=
  (∀ (length value : BitVec 4) (s t : State), exec (.nibrec length value) s = .next t →
    t = { s with dst := t.dst, out := t.out, pos := t.pos } ∧
    ∀ sp j, ¬(sp = .dst ∧ j = s.out) → t.byteAt sp j = s.byteAt sp j) ∧
  (∀ (length value : Byte) (s t : State), exec (.byterec length value) s = .next t →
    t = { s with dst := t.dst, out := t.out, pos := t.pos } ∧
    ∀ sp j, ¬(sp = .dst ∧ (j = s.out ∨ j = s.out + 1)) → t.byteAt sp j = s.byteAt sp j) ∧
  (∀ (count : BitVec 7) (value : Byte) (s t : State), exec (.packsegRepeat count value) s = .next t →
    t = { s with dst := t.dst, out := t.out } ∧
    ∀ sp j, ¬(sp = .dst ∧ (j = s.out ∨ j = s.out + 1)) → t.byteAt sp j = s.byteAt sp j) ∧
  (∀ (count : BitVec 7) (s t : State), exec (.packsegLiteral count) s = .next t →
    t = { s with dst := t.dst, mode := t.mode } ∧
    ∀ sp j, ¬(sp = .dst ∧ j = s.hdr) → t.byteAt sp j = s.byteAt sp j) ∧
  ∀ (flags : Byte) (s t : State), exec (.stageaInfo flags) s = .next t →
    t = { s with info := t.info, a := t.a, k := t.k } ∧ ∀ sp j, t.byteAt sp j = s.byteAt sp j

/-! ### The commands -/

/-- R127, R128, R129: the nibble commands complete for every stream of at most `NMAX` samples, with
`DST[0 .. OUTLEN-1] = NibEnc(S)`. -/
def Obligations.NibbleCommandsEncode : Prop :=
  ∀ s : State, s.params.ok → s.lenReg.toNat ≤ s.params.nmax →
    (∃ t, exec .encN1 (s.accept 0x00000011#32) = .next t ∧ t.fsm = .idle ∧ t.status = 0x02#32 ∧
      t.outlen.toNat = (nibEnc (s.input 1)).length ∧ t.encodedBuffer = nibEnc (s.input 1) ∧ t.tmplen = 0#32) ∧
    (∃ t, exec .encN2 (s.accept 0x00000012#32) = .next t ∧ t.fsm = .idle ∧ t.status = 0x02#32 ∧
      t.outlen.toNat = (nibEnc (s.input 2)).length ∧ t.encodedBuffer = nibEnc (s.input 2) ∧ t.tmplen = 0#32) ∧
    ∃ t, exec .encN4 (s.accept 0x00000014#32) = .next t ∧ t.fsm = .idle ∧ t.status = 0x02#32 ∧
      t.outlen.toNat = (nibEnc (s.input 4)).length ∧ t.encodedBuffer = nibEnc (s.input 4) ∧ t.tmplen = 0#32

/-- R147: ENC.B8 completes with `DST[0 .. OUTLEN-1] = ByteEnc(S)`. -/
def Obligations.ByteCommandEncodes : Prop :=
  ∀ s : State, s.params.ok → s.lenReg.toNat ≤ s.params.nmax →
    ∃ t, exec .encB8 (s.accept 0x00000018#32) = .next t ∧ t.fsm = .idle ∧ t.status = 0x02#32 ∧
      t.outlen.toNat = (byteEnc (s.input 8)).length ∧ t.encodedBuffer = byteEnc (s.input 8) ∧ t.tmplen = 0#32

/-- R180: ENC.A8 completes with `DST[0 .. OUTLEN-1] = PackEnc(S)` and `TMP[0 .. TMPLEN-1] = StageA(S)`. -/
def Obligations.PackCommandEncodes : Prop :=
  ∀ s : State, s.params.ok → s.lenReg.toNat ≤ s.params.nmax →
    ∃ t, exec .encA8 (s.accept 0x00000038#32) = .next t ∧ t.fsm = .idle ∧ t.status = 0x02#32 ∧
      t.outlen.toNat = (packEnc (s.input 8)).length ∧ t.encodedBuffer = packEnc (s.input 8) ∧
      t.tmplen.toNat = (stageA (s.input 8)).length ∧ t.stageABuffer = stageA (s.input 8)

/-- R207: how every operation ends, for every word accepted, every `LEN` and every SRC content. -/
def Obligations.OperationSummary : Prop :=
  ∀ (s : State) (c : Word), s.params.ok →
    ∃ t, step { s.accept c with turns := [] } = .next t ∧
      t.fsm = .idle ∧ t.cmd = c ∧ t.lenReg = s.lenReg ∧ (∀ i, t.byteAt .src i = s.byteAt .src i) ∧
      match decodeCommand c with
      | .error _ =>
        t.status = 0x12#32 ∧ t.outlen = 0#32 ∧ t.tmplen = 0#32 ∧ ∀ i, t.byteAt .dst i = s.byteAt .dst i
      | .ok i =>
        if s.params.nmax < s.lenReg.toNat then
          t.status = 0x22#32 ∧ t.outlen = 0#32 ∧ t.tmplen = 0#32 ∧ ∀ i, t.byteAt .dst i = s.byteAt .dst i
        else
          t.status = 0x02#32 ∧
            ((i = .encN1 ∨ i = .encN2 ∨ i = .encN4) ∧ t.tmplen = 0#32 ∧
                t.outlen.toNat = (nibEnc (s.input (cmdBW c))).length ∧
                t.encodedBuffer = nibEnc (s.input (cmdBW c)) ∨
              i = .encB8 ∧ t.tmplen = 0#32 ∧ t.outlen.toNat = (byteEnc (s.input 8)).length ∧
                t.encodedBuffer = byteEnc (s.input 8) ∨
              i = .encA8 ∧ t.tmplen.toNat = (stageA (s.input 8)).length ∧
                t.outlen.toNat = (packEnc (s.input 8)).length ∧ t.encodedBuffer = packEnc (s.input 8))

/-- R213: the empty stream succeeds for all five commands; no SRC byte is fetched (the group register stays
invalid) and no buffer is written. -/
def Obligations.EmptyStreamSucceeds : Prop :=
  ∀ (s : State) (i : Instr) (c : Word), s.lenReg = 0#32 → decodeCommand c = .ok i →
    ∃ t, exec i (s.accept c) = .next t ∧ t.status = 0x02#32 ∧ t.outlen = 0#32 ∧ t.tmplen = 0#32 ∧ t.gv = false ∧
      t.fsm = .idle ∧ t.src = s.src ∧ t.tmp = s.tmp ∧ t.dst = s.dst

/-- The frame of the commands on registers, from any state: `CMD`, `LEN`, `N`, SRC and whatever is not the
engine's stay (R17, R56). -/
def Obligations.CommandFrame : Prop :=
  ∀ (i : Instr) (s t : State), i.format = .cmd32 → exec i s = .next t →
    t.cmd = s.cmd ∧ t.lenReg = s.lenReg ∧ t.n = s.n ∧ t.params = s.params ∧ t.turns = s.turns ∧ t.rdata = s.rdata ∧
      t.draws = s.draws ∧ t.epoch = s.epoch ∧ ∀ j, t.byteAt .src j = s.byteAt .src j

/-- R49, R50: the nibble and byte commands store to `DST[0 .. OUTLEN-1]` only, and never to TMP. -/
def Obligations.NibbleAndByteFootprint : Prop :=
  ∀ (s t : State) (i : Instr) (c : Word), s.params.ok → decodeCommand c = .ok i → i ≠ .encA8 →
    exec i (s.accept c) = .next t →
    (∀ j, t.byteAt .tmp j = s.byteAt .tmp j) ∧ ∀ j, t.outlen.toNat ≤ j → t.byteAt .dst j = s.byteAt .dst j

/-- R49, R50: ENC.A8 stores to `DST[0 .. OUTLEN-1]` and `TMP[0 .. TMPLEN-1]` only. -/
def Obligations.PackFootprint : Prop :=
  ∀ s t : State, s.params.ok → exec .encA8 (s.accept 0x00000038#32) = .next t →
    (∀ j, t.tmplen.toNat ≤ j → t.byteAt .tmp j = s.byteAt .tmp j) ∧
      ∀ j, t.outlen.toNat ≤ j → t.byteAt .dst j = s.byteAt .dst j

/-- R32, R48: the result of an operation is a function of the accepted word, `LEN`, and the SRC bytes the
stream occupies, and of nothing else. -/
def Obligations.ResultDependsOnTheInputAlone : Prop :=
  ∀ (s u : State) (c : Word), s.params.ok → u.params = s.params → u.lenReg = s.lenReg →
    (∀ g, g < (s.lenReg.toNat * cmdBW c + 7) / 8 → u.byteAt .src g = s.byteAt .src g) →
    ∃ t v, step { s.accept c with turns := [] } = .next t ∧ step { u.accept c with turns := [] } = .next v ∧
      v.result = t.result

/-- R283: every operation ends, within `10*N + 6` engine steps of its acceptance; a refused one in one. -/
def Obligations.OperationTerminates : Prop :=
  ∀ (s : State) (c : Word), s.params.ok →
    (∃ k t, k ≤ 10 * s.lenReg.toNat + 6 ∧ engineSteps k (s.accept c) = .next t ∧ t.fsm = .idle) ∧
    ((∃ e, decodeCommand c = .error e) ∨ s.params.nmax < s.lenReg.toNat →
      ∃ t, engineSteps 1 (s.accept c) = .next t ∧ t.fsm = .idle)

/-! ### The aligner and the run detector -/

/-- R42: where a sample lies in its SRC byte, bit by bit, for both packing orders. -/
def Obligations.SampleBits : Prop :=
  ∀ (s : State) (w i b : Nat), w = 1 ∨ w = 2 ∨ w = 4 ∨ w = 8 → b < 8 →
    (s.sample w i).getLsbD b =
      (decide (b < w) &&
        (s.byteAt .src (i / (8 / w))).getLsbD
          (if s.params.packMsbFirst then 8 - w * (i % (8 / w) + 1) + b else w * (i % (8 / w)) + b))

/-- R46: the padding bits of a partial trailing group, and every bit past the stream, do not matter. -/
def Obligations.PaddingBitsAreNeverRead : Prop :=
  ∀ (s u : State) (w n : Nat), w = 1 ∨ w = 2 ∨ w = 4 ∨ w = 8 → u.params = s.params →
    (∀ p, p < n * w →
      (u.byteAt .src (p / 8)).getLsbD (if s.params.packMsbFirst ∧ w ≠ 8 then 7 - p % 8 else p % 8) =
        (s.byteAt .src (p / 8)).getLsbD (if s.params.packMsbFirst ∧ w ≠ 8 then 7 - p % 8 else p % 8)) →
    u.stream w n = s.stream w n

/-- R105, R106: `RunLen(p, cap)` is the largest `r` with `1 <= r <= min(cap, N - p)` and all of
`S[p], ..., S[p+r-1]` equal. -/
def Obligations.RunLenIsTheLongestRun : Prop :=
  ∀ (S : List Byte) (p cap : Nat), p < S.length → 1 ≤ cap →
    1 ≤ runLen S p cap ∧ runLen S p cap ≤ min cap (S.length - p) ∧
    (∀ j, j < runLen S p cap → S[p + j]? = S[p]?) ∧
    (runLen S p cap < cap → p + runLen S p cap < S.length → S[p + runLen S p cap]? ≠ S[p]?) ∧
    (2 ≤ runLen S p cap → runLen S p cap < cap → runLen S (p + 1) cap = runLen S p cap - 1)

/-! ### The step-level machines agree with the pure functions -/

/-- R124: the nibble machine. A record of length field `l` takes `2 + (l + 1)` steps. -/
def Obligations.NibbleMachineAgrees : Prop :=
  ∀ s : State, s.params.ok → s.n ≤ s.params.nmax → s.w = 1 ∨ s.w = 2 ∨ s.w = 4 → s.gv = false →
    s.fsm = .nHead → s.pos = 0 → s.out = 0 →
    ∃ k t, k ≤ 1 + ((nibEnc (s.stream s.w s.n)).map fun b => 2 + ((b.extractLsb' 4 4).toNat + 1)).sum ∧
      k ≤ 3 * s.n + 1 ∧ engineSteps k s = .next t ∧ t.fsm = .finish ∧ t.pos = s.n ∧
      t.bytesOf .dst t.out = nibEnc (s.stream s.w s.n)

/-- R144: the byte machine. -/
def Obligations.ByteMachineAgrees : Prop :=
  ∀ s : State, s.params.ok → s.n ≤ s.params.nmax → s.w = 8 → s.gv = false →
    s.fsm = .bHead → s.pos = 0 → s.out = 0 →
    ∃ k t, k ≤ 3 * s.n + 1 ∧ engineSteps k s = .next t ∧ t.fsm = .finish ∧ t.pos = s.n ∧
      t.bytesOf .dst t.out = byteEnc (s.stream 8 s.n)

/-- R167: Stage A's machine, its step bound and its size bound. -/
def Obligations.StageAMachineAgrees : Prop :=
  ∀ s : State, s.params.ok → s.n ≤ s.params.nmax → s.w = 8 → s.gv = false →
    s.fsm = .aHead → s.pos = 0 → s.t = 0 → s.k = 0 →
    ∃ k t, k ≤ 4 * s.n + 2 ∧ engineSteps k s = .next t ∧ t.fsm = .pAwait ∧ t.pos = s.n ∧
      t.stageABuffer = stageA (s.stream 8 s.n) ∧ t.tmplen.toNat ≤ s.n + (s.n + 7) / 8 ∧
      t.a = 0 ∧ t.k = 8 ∧ t.mode = .none ∧ t.rc = 0 ∧ t.lc = 0 ∧ t.out = 0

/-- R177: Stage B's machine, from the registers R166 sets and a buffer Stage A can have left. -/
def Obligations.StageBMachineAgrees : Prop :=
  ∀ (s : State) (S : List Byte) (us : List AUnit), s.params.ok → s.n ≤ s.params.nmax → S.length = s.n →
    s.stageABuffer = stageA S → parseA s.stageABuffer = some us →
    s.fsm = .pAwait → s.a = 0 → s.k = 8 → s.mode = .none → s.rc = 0 → s.lc = 0 → s.out = 0 →
    ∃ k t, k ≤ 6 * s.n + 2 ∧ engineSteps k s = .next t ∧ t.fsm = .finish ∧ t.bytesOf .dst t.out = stageB us

/-! ### The encoders and their decoders -/

/-- R125: a nibble record's value field is below `2^w`. -/
def Obligations.NibbleValueField : Prop :=
  ∀ (S : List Byte) (w : Nat), w = 1 ∨ w = 2 ∨ w = 4 → (∀ x ∈ S, x.toNat < 2 ^ w) →
    ∀ b ∈ nibEnc S, (b.extractLsb' 0 4).toNat < 2 ^ w

/-- R126 (b), (e): `ceil(N/16) <= OUTLEN <= N`. -/
def Obligations.NibbleOutputSize : Prop :=
  ∀ S : List Byte, (S.length + 15) / 16 ≤ (nibEnc S).length ∧ (nibEnc S).length ≤ S.length

/-- R146: `OUTLEN` is even and `2*ceil(N/256) <= OUTLEN <= 2*N`; the upper bound is met when no two adjacent
samples are equal. -/
def Obligations.ByteOutputSize : Prop :=
  ∀ S : List Byte, (byteEnc S).length % 2 = 0 ∧ 2 * ((S.length + 255) / 256) ≤ (byteEnc S).length ∧
    (byteEnc S).length ≤ 2 * S.length ∧
    ((∀ j, j + 1 < S.length → S[j]? ≠ S[j + 1]?) → (byteEnc S).length = 2 * S.length)

/-- R179 (a), (b), (c): the packer's output is at most `2*N` and at most `N + ceil(N/127)` bytes, and exactly
that many for input with no three consecutive equal bytes. -/
def Obligations.PackOutputSize : Prop :=
  ∀ S : List Byte, (packEnc S).length ≤ 2 * S.length ∧ (packEnc S).length ≤ S.length + (S.length + 126) / 127 ∧
    ((∀ j, j + 2 < S.length → ¬(S[j]? = S[j + 1]? ∧ S[j + 1]? = S[j + 2]?)) →
      (packEnc S).length = S.length + (S.length + 126) / 127)

/-- R168, R181: Stage B reads back the units Stage A laid out. -/
def Obligations.ParseUndoesLayout : Prop :=
  ∀ S : List Byte, parseA (stageA S) = some (unitsA S) ∧ (parseA (stageA S)).map stageB = some (packEnc S)

/-- R227: the nibble round trip. -/
def Obligations.NibbleRoundTrip : Prop :=
  ∀ (S : List Byte) (w : Nat), w = 1 ∨ w = 2 ∨ w = 4 → (∀ x ∈ S, x.toNat < 2 ^ w) → nibDec (nibEnc S) = some S

/-- R228: the byte round trip. -/
def Obligations.ByteRoundTrip : Prop :=
  ∀ S : List Byte, byteDec (byteEnc S) = some S ∧ (byteEnc S).length % 2 = 0

/-- R229: the adaptive round trip, and at the intermediate level. -/
def Obligations.PackRoundTrip : Prop :=
  ∀ S : List Byte, packDec (packEnc S) = some S ∧ (segmentCounts (packEnc S)).sum = S.length ∧
    (unitsA S).flatMap AUnit.samples = S

/-- R227-R229 for the hardware: what a command leaves in DST decodes to the samples of SRC. -/
def Obligations.HardwareOutputDecodes : Prop :=
  ∀ s t : State, s.params.ok → s.lenReg.toNat ≤ s.params.nmax →
    (exec .encN1 (s.accept 0x00000011#32) = .next t → nibDec t.encodedBuffer = some (s.input 1)) ∧
    (exec .encN2 (s.accept 0x00000012#32) = .next t → nibDec t.encodedBuffer = some (s.input 2)) ∧
    (exec .encN4 (s.accept 0x00000014#32) = .next t → nibDec t.encodedBuffer = some (s.input 4)) ∧
    (exec .encB8 (s.accept 0x00000018#32) = .next t → byteDec t.encodedBuffer = some (s.input 8)) ∧
    (exec .encA8 (s.accept 0x00000038#32) = .next t → packDec t.encodedBuffer = some (s.input 8))

/-! ### Invariants that every step keeps -/

/-- Every buffer stays in canonical form and within its capacity. -/
def Obligations.StepKeepsBuffersCanonical : Prop :=
  ∀ s t : State, s.BuffersWf → step s = .next t → t.BuffersWf

/-- R13, R20: `STATUS` takes its five values only, and BUSY exactly while the engine works. -/
def Obligations.StepKeepsStatus : Prop :=
  ∀ s t : State, s.StatusOk → step s = .next t → t.StatusOk

/-- R31 and R24, in all four encoders' states: the bounds on the cursors and counters stay, and under them no
engine step forms an index its buffer does not have: every engine step answers a next state. -/
def Obligations.StepKeepsBounds : Prop :=
  (∀ s t : State, s.BoundsOk → step s = .next t → t.BoundsOk) ∧
    ∀ s : State, s.BoundsOk → ∃ t, engineStep s = .next t

/-- The three invariants hold right after reset. -/
def Obligations.ResetMeetsTheInvariants : Prop :=
  State.reset.BuffersWf ∧ State.reset.StatusOk ∧ State.reset.BoundsOk

/-- R56, R17, R4: the engine never writes `CMD`, `LEN` or SRC, and no step changes the parameters. -/
def Obligations.EngineKeepsItsInputs : Prop :=
  (∀ s t : State, step s = .next t → t.params = s.params) ∧
    ∀ (s t : State) (ts : List Turn),
      s.turns = .engine :: ts ∨ s.turns = .operation :: ts ∨ (s.turns = [] ∧ ts = []) → step s = .next t →
      t.cmd = s.cmd ∧ t.lenReg = s.lenReg ∧ t.src = s.src ∧ t.turns = ts

/-! ### Step rules -/

/-- R121, R123, and R122 but for its last sentence: the three steps of the nibble encoder, for an aligner whose group register is truthful
(R102), inside SRC and DST. Only `GRP`, `GIDX`, `GV` may also change where a sample is read. -/
def Obligations.NibbleSteps : Prop :=
  ∀ (s : State) (ts : List Turn), s.turns = .engine :: ts → (s.gv = true → s.grp = s.byteAt .src s.gidx) →
    s.n ≤ s.params.srcBytes → s.w = 1 ∨ s.w = 2 ∨ s.w = 4 →
    (s.fsm = .nHead → s.n ≤ s.pos → step s = .next { s with turns := ts, fsm := .finish }) ∧
    (s.fsm = .nHead → s.pos < s.n → ∃ grp gidx gv, step s = .next { s with
      turns := ts, cur := s.sample s.w s.pos, len := 0, fsm := .nScan, grp := grp, gidx := gidx, gv := gv }) ∧
    (s.fsm = .nScan → s.len < 15 → s.pos + 1 + s.len < s.n → s.sample s.w (s.pos + 1 + s.len) = s.cur →
      ∃ grp gidx gv, step s = .next { s with
        turns := ts, len := s.len + 1, grp := grp, gidx := gidx, gv := gv }) ∧
    (s.fsm = .nScan →
      15 ≤ s.len ∨ s.n ≤ s.pos + 1 + s.len ∨ s.sample s.w (s.pos + 1 + s.len) ≠ s.cur →
      ∃ grp gidx gv, step s = .next { s with
        turns := ts, fsm := .nEmit, grp := grp, gidx := gidx, gv := gv }) ∧
    (s.fsm = .nEmit → s.len ≤ 15 → s.cur.toNat ≤ 15 → s.out < s.params.dstBytes → step s = .next { s with
      turns := ts, dst := Memory.write s.dst s.out (BitVec.ofNat 8 s.len <<< 4 ||| s.cur)
      out := s.out + 1, pos := s.pos + s.len + 1, fsm := .nHead })

/-- R107, R122, R142, R163: from a head step on, each scan leaves with the run's length at its cap, 16, 256
or 255, after one step for each sample of the run, with the cursor and the buffers as they were. -/
def Obligations.ScansCountTheRun : Prop :=
  ∀ s : State, (s.gv = true → s.grp = s.byteAt .src s.gidx) → s.n ≤ s.params.srcBytes → s.pos < s.n →
    (s.fsm = .nHead → s.w = 1 ∨ s.w = 2 ∨ s.w = 4 →
      ∃ t, engineSteps (1 + runLen (s.stream s.w s.n) s.pos 16) s = .next t ∧ t.fsm = .nEmit ∧
        t.cur = s.sample s.w s.pos ∧ t.len + 1 = runLen (s.stream s.w s.n) s.pos 16 ∧
        (t.pos, t.out, t.src, t.tmp, t.dst) = (s.pos, s.out, s.src, s.tmp, s.dst)) ∧
    (s.fsm = .bHead → s.w = 8 →
      ∃ t, engineSteps (1 + runLen (s.stream 8 s.n) s.pos 256) s = .next t ∧ t.fsm = .bEmit ∧
        t.cur = s.byteAt .src s.pos ∧ t.len + 1 = runLen (s.stream 8 s.n) s.pos 256 ∧
        (t.pos, t.out, t.src, t.tmp, t.dst) = (s.pos, s.out, s.src, s.tmp, s.dst)) ∧
    (s.fsm = .aHead → s.w = 8 →
      ∃ t, engineSteps (1 + runLen (s.stream 8 s.n) s.pos 255) s = .next t ∧ t.fsm = .aEmit ∧
        t.v = s.byteAt .src s.pos ∧ t.r = runLen (s.stream 8 s.n) s.pos 255 ∧
        (t.pos, t.out, t.src, t.tmp, t.dst) = (s.pos, s.out, s.src, s.tmp, s.dst))

/-- R143: step B_EMIT. -/
def Obligations.ByteEmitStep : Prop :=
  ∀ (s : State) (ts : List Turn), s.turns = .engine :: ts → s.fsm = .bEmit → s.len ≤ 255 →
    s.out + 1 < s.params.dstBytes →
    step s = .next { s with
      turns := ts, dst := Memory.write (Memory.write s.dst s.out (BitVec.ofNat 8 s.len)) (s.out + 1) s.cur
      out := s.out + 2, pos := s.pos + s.len + 1, fsm := .bHead }

/-- R170-R175: every step of Stage B, P_AWAIT, P_UNIT with a run unit and with a literal unit, P_OVF and
P_END, at each mode, inside TMP and DST. -/
def Obligations.StageBSteps : Prop :=
  ∀ (s : State) (ts : List Turn), s.turns = .engine :: ts →
    (s.fsm = .pAwait →
      (s.tmplen.toNat ≤ s.a → step s = .next { s with turns := ts, fsm := .pEnd }) ∧
      (s.a < s.tmplen.toNat → s.k = 8 → s.a < s.params.tmpBytes → step s = .next { s with
        turns := ts, info := s.byteAt .tmp s.a, a := s.a + 1, k := 0, fsm := .pUnit }) ∧
      (s.a < s.tmplen.toNat → s.k ≠ 8 → step s = .next { s with turns := ts, fsm := .pUnit })) ∧
    (s.fsm = .pUnit → s.k < 8 → s.info.getLsbD (7 - s.k) = true → s.a + 1 < s.params.tmpBytes →
      let count := (s.byteAt .tmp s.a).toNat
      let value := s.byteAt .tmp (s.a + 1)
      (s.mode = .none → step s = .next { s with
        turns := ts, r := count, v := value, a := s.a + 2, k := s.k + 1
        mode := .run, rv := value, rc := count, fsm := .pOvf }) ∧
      (s.mode = .lit → s.hdr < s.params.dstBytes → step s = .next { s with
        turns := ts, r := count, v := value, a := s.a + 2, k := s.k + 1
        dst := Memory.write s.dst s.hdr (BitVec.ofNat 8 s.lc)
        mode := .run, rv := value, rc := count, fsm := .pOvf }) ∧
      (s.mode = .run → s.rv = value → step s = .next { s with
        turns := ts, r := count, v := value, a := s.a + 2, k := s.k + 1
        rc := s.rc + count, fsm := .pOvf }) ∧
      (s.mode = .run → s.rv ≠ value → s.rc = 0 → step s = .next { s with
        turns := ts, r := count, v := value, a := s.a + 2, k := s.k + 1
        rv := value, rc := count, fsm := .pOvf }) ∧
      (s.mode = .run → s.rv ≠ value → 0 < s.rc → s.out + 1 < s.params.dstBytes → step s = .next { s with
        turns := ts, r := count, v := value, a := s.a + 2, k := s.k + 1
        dst := Memory.write (Memory.write s.dst s.out (0x80#8 ||| BitVec.ofNat 8 s.rc)) (s.out + 1) s.rv
        out := s.out + 2, rv := value, rc := count, fsm := .pOvf })) ∧
    (s.fsm = .pUnit → s.k < 8 → s.info.getLsbD (7 - s.k) = false → s.a < s.params.tmpBytes →
      let value := s.byteAt .tmp s.a
      (s.mode = .none → s.out + 1 < s.params.dstBytes → step s = .next { s with
        turns := ts, v := value, a := s.a + 1, k := s.k + 1
        dst := Memory.write (Memory.write s.dst s.out 0x00#8) (s.out + 1) value
        hdr := s.out, out := s.out + 2, lc := 1, mode := .lit, fsm := .pAwait }) ∧
      (s.mode = .lit → s.lc ≠ 126 → s.out < s.params.dstBytes → step s = .next { s with
        turns := ts, v := value, a := s.a + 1, k := s.k + 1
        dst := Memory.write s.dst s.out value
        out := s.out + 1, lc := s.lc + 1, fsm := .pAwait }) ∧
      (s.mode = .lit → s.lc = 126 → s.out < s.params.dstBytes → s.hdr < s.params.dstBytes → step s = .next { s with
        turns := ts, v := value, a := s.a + 1, k := s.k + 1
        dst := Memory.write (Memory.write s.dst s.out value) s.hdr 127#8
        out := s.out + 1, lc := 127, mode := .none, fsm := .pAwait }) ∧
      (s.mode = .run → s.rc = 0 → s.out + 1 < s.params.dstBytes → step s = .next { s with
        turns := ts, v := value, a := s.a + 1, k := s.k + 1
        dst := Memory.write (Memory.write s.dst s.out 0x00#8) (s.out + 1) value
        hdr := s.out, out := s.out + 2, lc := 1, mode := .lit, fsm := .pAwait }) ∧
      (s.mode = .run → 0 < s.rc → s.out + 3 < s.params.dstBytes → step s = .next { s with
        turns := ts, v := value, a := s.a + 1, k := s.k + 1
        dst := Memory.write (Memory.write (Memory.write (Memory.write s.dst
          s.out (0x80#8 ||| BitVec.ofNat 8 s.rc)) (s.out + 1) s.rv) (s.out + 2) 0x00#8) (s.out + 3) value
        hdr := s.out + 2, out := s.out + 4, rc := 0, lc := 1, mode := .lit, fsm := .pAwait })) ∧
    (s.fsm = .pOvf →
      (127 ≤ s.rc → s.out + 1 < s.params.dstBytes → step s = .next { s with
        turns := ts, dst := Memory.write (Memory.write s.dst s.out 0xFF#8) (s.out + 1) s.rv
        out := s.out + 2, rc := s.rc - 127 }) ∧
      (s.rc < 127 → step s = .next { s with turns := ts, fsm := .pAwait })) ∧
    (s.fsm = .pEnd →
      (s.mode = .run → 0 < s.rc → s.rc ≤ 126 → s.out + 1 < s.params.dstBytes → step s = .next { s with
        turns := ts
        dst := Memory.write (Memory.write s.dst s.out (0x80#8 ||| BitVec.ofNat 8 s.rc)) (s.out + 1) s.rv
        out := s.out + 2, mode := .none, fsm := .finish }) ∧
      (s.mode = .run → s.rc = 0 → step s = .next { s with turns := ts, mode := .none, fsm := .finish }) ∧
      (s.mode = .lit → s.hdr < s.params.dstBytes → step s = .next { s with
        turns := ts, dst := Memory.write s.dst s.hdr (BitVec.ofNat 8 s.lc), mode := .none, fsm := .finish }) ∧
      (s.mode = .none → step s = .next { s with turns := ts, mode := .none, fsm := .finish }))

/-- R206: step FINISH. -/
def Obligations.FinishStep : Prop :=
  ∀ (s : State) (ts : List Turn), s.turns = .engine :: ts → s.fsm = .finish →
    step s = .next { s with
      turns := ts, outlen := BitVec.ofNat 32 s.out, status := 0x02#32, fsm := .idle }
end

