-- ==== Sys2Proof/Laws/Memory.lean ====
section
/-! SUPPORT. The laws of a buffer's contents: a read after a write, and the canonical form, which every
write keeps. -/

namespace Sys2Proof.Machine

/-- A byte written is read back. -/
@[simp] theorem Memory.read_write_same (m : Memory) (i : Nat) (b : Byte) :
    Memory.read (Memory.write m i b) i = some b := by
  induction m with
  | nil => simp [Memory.write, Memory.read]
  | cons c m ih =>
    obtain ⟨x, d⟩ := c
    simp only [Memory.write]
    split
    · simp [Memory.read]
    · split
      · simp [Memory.read]
      · rename_i _ hne
        simp [Memory.read, Ne.symm hne, ih]

/-- A write leaves every other index alone. -/
theorem Memory.read_write_other (m : Memory) {i j : Nat} (b : Byte) (h : j ≠ i) :
    Memory.read (Memory.write m i b) j = Memory.read m j := by
  induction m with
  | nil => simp [Memory.write, Memory.read, h.symm]
  | cons c m ih =>
    obtain ⟨x, d⟩ := c
    simp only [Memory.write]
    split
    · simp [Memory.read, h.symm]
    · split
      · rename_i _ heq
        subst heq
        simp [Memory.read, h.symm]
      · simp [Memory.read, ih]

/-- The cells of a buffer after a write: the new one and old ones. -/
theorem Memory.mem_write {m : Memory} {i : Nat} {b : Byte} {c : Host.Cell} (h : c ∈ Memory.write m i b) :
    c = (i, b) ∨ c ∈ m := by
  induction m with
  | nil => simpa [Memory.write] using h
  | cons d m ih =>
    obtain ⟨x, e⟩ := d
    simp only [Memory.write] at h
    split at h
    · simpa using h
    · split at h
      · rcases List.mem_cons.mp h with h | h
        · exact .inl h
        · exact .inr (List.mem_cons_of_mem _ h)
      · rcases List.mem_cons.mp h with h | h
        · exact .inr (h ▸ List.mem_cons_self ..)
        · exact (ih h).imp_right (List.mem_cons_of_mem _)

/-- A write keeps the canonical form. -/
theorem Memory.wf_write {m : Memory} (h : Memory.wf m) (i : Nat) (b : Byte) : Memory.wf (Memory.write m i b) := by
  induction m with
  | nil => simp [Memory.write, Memory.wf]
  | cons c m ih =>
    obtain ⟨x, d⟩ := c
    obtain ⟨hx, hm⟩ := List.pairwise_cons.mp h
    simp only [Memory.write]
    split
    · rename_i hlt
      refine List.pairwise_cons.mpr ⟨fun e he => ?_, h⟩
      rcases List.mem_cons.mp he with he | he
      · simpa [he] using hlt
      · exact lt_trans hlt (hx e he)
    · split
      · rename_i _ heq
        subst heq
        exact List.pairwise_cons.mpr ⟨hx, hm⟩
      · rename_i hnlt hne
        refine List.pairwise_cons.mpr ⟨fun e he => ?_, ih hm⟩
        rcases Memory.mem_write he with he | he
        · subst he
          show x < i
          omega
        · exact hx e he

/-- A write below a capacity keeps every index below it. -/
theorem Memory.within_write {m : Memory} {cap : Nat} (h : Memory.within cap m) {i : Nat} (hi : i < cap) (b : Byte) :
    Memory.within cap (Memory.write m i b) := by
  intro c hc
  rcases Memory.mem_write hc with hc | hc
  · simpa [hc] using hi
  · exact h c hc

/-- In canonical form a buffer is determined by what it reads as: equal reads, equal data. -/
theorem Memory.ext_of_wf {m m' : Memory} (h : Memory.wf m) (h' : Memory.wf m')
    (hr : ∀ i, Memory.read m i = Memory.read m' i) : m = m' := by
  have none_of_lt : ∀ (l : Memory) (i : Nat), (∀ c ∈ l, i < c.1) → Memory.read l i = none := by
    intro l i hl
    induction l with
    | nil => rfl
    | cons c l ih =>
      obtain ⟨x, d⟩ := c
      have hx : i < x := hl (x, d) (List.mem_cons_self ..)
      simp only [Memory.read, if_neg (show x ≠ i by omega)]
      exact ih fun e he => hl e (List.mem_cons_of_mem _ he)
  induction m generalizing m' with
  | nil =>
    cases m' with
    | nil => rfl
    | cons c l => simpa [Memory.read] using hr c.1
  | cons c l ih =>
    cases m' with
    | nil => simpa [Memory.read] using hr c.1
    | cons c' l' =>
      obtain ⟨x, d⟩ := c
      obtain ⟨x', d'⟩ := c'
      obtain ⟨hx, hl⟩ := List.pairwise_cons.mp h
      obtain ⟨hx', hl'⟩ := List.pairwise_cons.mp h'
      have hxx : x = x' := by
        rcases lt_trichotomy x x' with hlt | heq | hgt
        · have := hr x
          rw [none_of_lt ((x', d') :: l') x (by
            intro e he
            rcases List.mem_cons.mp he with he | he
            · simpa [he] using hlt
            · exact lt_trans hlt (hx' e he))] at this
          simp [Memory.read] at this
        · exact heq
        · have := hr x'
          rw [none_of_lt ((x, d) :: l) x' (by
            intro e he
            rcases List.mem_cons.mp he with he | he
            · simpa [he] using hgt
            · exact lt_trans hgt (hx e he))] at this
          simp [Memory.read] at this
      subst hxx
      have hd : d = d' := by simpa [Memory.read] using hr x
      subst hd
      refine congrArg _ (ih hl hl' fun i => ?_)
      rcases eq_or_ne x i with hi | hi
      · subst hi
        rw [none_of_lt l x hx, none_of_lt l' x hx']
      · simpa [Memory.read, hi] using hr i

end Sys2Proof.Machine
end

