-- ==== Sys2Proof/Laws/State.lean ====
section
/-! SUPPORT. The small lemmas of the state's named updates: one per field per update, so that no proof
unfolds a record update. -/

namespace Sys2Proof.Machine

variable (s : State)

/-! ### Command acceptance -/

@[simp] theorem State.accept_params (c : Word) : (s.accept c).params = s.params := rfl
@[simp] theorem State.accept_cmd (c : Word) : (s.accept c).cmd = c := rfl
@[simp] theorem State.accept_lenReg (c : Word) : (s.accept c).lenReg = s.lenReg := rfl
@[simp] theorem State.accept_status (c : Word) : (s.accept c).status = statusWord true false .none := rfl
@[simp] theorem State.accept_outlen (c : Word) : (s.accept c).outlen = 0#32 := rfl
@[simp] theorem State.accept_tmplen (c : Word) : (s.accept c).tmplen = 0#32 := rfl
@[simp] theorem State.accept_src (c : Word) : (s.accept c).src = s.src := rfl
@[simp] theorem State.accept_tmp (c : Word) : (s.accept c).tmp = s.tmp := rfl
@[simp] theorem State.accept_dst (c : Word) : (s.accept c).dst = s.dst := rfl
@[simp] theorem State.accept_fsm (c : Word) : (s.accept c).fsm = .decode := rfl
@[simp] theorem State.accept_n (c : Word) : (s.accept c).n = s.lenReg.toNat := rfl
@[simp] theorem State.accept_w (c : Word) : (s.accept c).w = cmdBW c := rfl
@[simp] theorem State.accept_pos (c : Word) : (s.accept c).pos = 0 := rfl
@[simp] theorem State.accept_out (c : Word) : (s.accept c).out = 0 := rfl
@[simp] theorem State.accept_cur (c : Word) : (s.accept c).cur = 0#8 := rfl
@[simp] theorem State.accept_len (c : Word) : (s.accept c).len = 0 := rfl
@[simp] theorem State.accept_v (c : Word) : (s.accept c).v = 0#8 := rfl
@[simp] theorem State.accept_r (c : Word) : (s.accept c).r = 0 := rfl
@[simp] theorem State.accept_info (c : Word) : (s.accept c).info = 0#8 := rfl
@[simp] theorem State.accept_k (c : Word) : (s.accept c).k = 0 := rfl
@[simp] theorem State.accept_ip (c : Word) : (s.accept c).ip = 0 := rfl
@[simp] theorem State.accept_t (c : Word) : (s.accept c).t = 0 := rfl
@[simp] theorem State.accept_a (c : Word) : (s.accept c).a = 0 := rfl
@[simp] theorem State.accept_mode (c : Word) : (s.accept c).mode = .none := rfl
@[simp] theorem State.accept_rv (c : Word) : (s.accept c).rv = 0#8 := rfl
@[simp] theorem State.accept_rc (c : Word) : (s.accept c).rc = 0 := rfl
@[simp] theorem State.accept_hdr (c : Word) : (s.accept c).hdr = 0 := rfl
@[simp] theorem State.accept_lc (c : Word) : (s.accept c).lc = 0 := rfl
@[simp] theorem State.accept_grp (c : Word) : (s.accept c).grp = s.grp := rfl
@[simp] theorem State.accept_gidx (c : Word) : (s.accept c).gidx = s.gidx := rfl
@[simp] theorem State.accept_gv (c : Word) : (s.accept c).gv = false := rfl
@[simp] theorem State.accept_turns (c : Word) : (s.accept c).turns = s.turns := rfl
@[simp] theorem State.accept_rdata (c : Word) : (s.accept c).rdata = s.rdata := rfl
@[simp] theorem State.accept_draws (c : Word) : (s.accept c).draws = s.draws := rfl
@[simp] theorem State.accept_epoch (c : Word) : (s.accept c).epoch = s.epoch := rfl

/-! ### Error entry -/

@[simp] theorem State.raise_params (e : ErrCode) : (s.raise e).params = s.params := rfl
@[simp] theorem State.raise_cmd (e : ErrCode) : (s.raise e).cmd = s.cmd := rfl
@[simp] theorem State.raise_lenReg (e : ErrCode) : (s.raise e).lenReg = s.lenReg := rfl
@[simp] theorem State.raise_status (e : ErrCode) : (s.raise e).status = statusWord false true e := rfl
@[simp] theorem State.raise_outlen (e : ErrCode) : (s.raise e).outlen = 0#32 := rfl
@[simp] theorem State.raise_tmplen (e : ErrCode) : (s.raise e).tmplen = 0#32 := rfl
@[simp] theorem State.raise_src (e : ErrCode) : (s.raise e).src = s.src := rfl
@[simp] theorem State.raise_tmp (e : ErrCode) : (s.raise e).tmp = s.tmp := rfl
@[simp] theorem State.raise_dst (e : ErrCode) : (s.raise e).dst = s.dst := rfl
@[simp] theorem State.raise_fsm (e : ErrCode) : (s.raise e).fsm = .idle := rfl
@[simp] theorem State.raise_n (e : ErrCode) : (s.raise e).n = s.n := rfl
@[simp] theorem State.raise_w (e : ErrCode) : (s.raise e).w = s.w := rfl
@[simp] theorem State.raise_pos (e : ErrCode) : (s.raise e).pos = s.pos := rfl
@[simp] theorem State.raise_out (e : ErrCode) : (s.raise e).out = s.out := rfl
@[simp] theorem State.raise_cur (e : ErrCode) : (s.raise e).cur = s.cur := rfl
@[simp] theorem State.raise_len (e : ErrCode) : (s.raise e).len = s.len := rfl
@[simp] theorem State.raise_v (e : ErrCode) : (s.raise e).v = s.v := rfl
@[simp] theorem State.raise_r (e : ErrCode) : (s.raise e).r = s.r := rfl
@[simp] theorem State.raise_info (e : ErrCode) : (s.raise e).info = s.info := rfl
@[simp] theorem State.raise_k (e : ErrCode) : (s.raise e).k = s.k := rfl
@[simp] theorem State.raise_ip (e : ErrCode) : (s.raise e).ip = s.ip := rfl
@[simp] theorem State.raise_t (e : ErrCode) : (s.raise e).t = s.t := rfl
@[simp] theorem State.raise_a (e : ErrCode) : (s.raise e).a = s.a := rfl
@[simp] theorem State.raise_mode (e : ErrCode) : (s.raise e).mode = s.mode := rfl
@[simp] theorem State.raise_rv (e : ErrCode) : (s.raise e).rv = s.rv := rfl
@[simp] theorem State.raise_rc (e : ErrCode) : (s.raise e).rc = s.rc := rfl
@[simp] theorem State.raise_hdr (e : ErrCode) : (s.raise e).hdr = s.hdr := rfl
@[simp] theorem State.raise_lc (e : ErrCode) : (s.raise e).lc = s.lc := rfl
@[simp] theorem State.raise_grp (e : ErrCode) : (s.raise e).grp = s.grp := rfl
@[simp] theorem State.raise_gidx (e : ErrCode) : (s.raise e).gidx = s.gidx := rfl
@[simp] theorem State.raise_gv (e : ErrCode) : (s.raise e).gv = s.gv := rfl
@[simp] theorem State.raise_turns (e : ErrCode) : (s.raise e).turns = s.turns := rfl
@[simp] theorem State.raise_rdata (e : ErrCode) : (s.raise e).rdata = s.rdata := rfl
@[simp] theorem State.raise_draws (e : ErrCode) : (s.raise e).draws = s.draws := rfl
@[simp] theorem State.raise_epoch (e : ErrCode) : (s.raise e).epoch = s.epoch := rfl

/-! ### Completion -/

@[simp] theorem State.complete_params : (s.complete).params = s.params := rfl
@[simp] theorem State.complete_cmd : (s.complete).cmd = s.cmd := rfl
@[simp] theorem State.complete_lenReg : (s.complete).lenReg = s.lenReg := rfl
@[simp] theorem State.complete_status : (s.complete).status = statusWord false true .none := rfl
@[simp] theorem State.complete_outlen : (s.complete).outlen = BitVec.ofNat 32 s.out := rfl
@[simp] theorem State.complete_tmplen : (s.complete).tmplen = s.tmplen := rfl
@[simp] theorem State.complete_src : (s.complete).src = s.src := rfl
@[simp] theorem State.complete_tmp : (s.complete).tmp = s.tmp := rfl
@[simp] theorem State.complete_dst : (s.complete).dst = s.dst := rfl
@[simp] theorem State.complete_fsm : (s.complete).fsm = .idle := rfl
@[simp] theorem State.complete_n : (s.complete).n = s.n := rfl
@[simp] theorem State.complete_w : (s.complete).w = s.w := rfl
@[simp] theorem State.complete_pos : (s.complete).pos = s.pos := rfl
@[simp] theorem State.complete_out : (s.complete).out = s.out := rfl
@[simp] theorem State.complete_cur : (s.complete).cur = s.cur := rfl
@[simp] theorem State.complete_len : (s.complete).len = s.len := rfl
@[simp] theorem State.complete_v : (s.complete).v = s.v := rfl
@[simp] theorem State.complete_r : (s.complete).r = s.r := rfl
@[simp] theorem State.complete_info : (s.complete).info = s.info := rfl
@[simp] theorem State.complete_k : (s.complete).k = s.k := rfl
@[simp] theorem State.complete_ip : (s.complete).ip = s.ip := rfl
@[simp] theorem State.complete_t : (s.complete).t = s.t := rfl
@[simp] theorem State.complete_a : (s.complete).a = s.a := rfl
@[simp] theorem State.complete_mode : (s.complete).mode = s.mode := rfl
@[simp] theorem State.complete_rv : (s.complete).rv = s.rv := rfl
@[simp] theorem State.complete_rc : (s.complete).rc = s.rc := rfl
@[simp] theorem State.complete_hdr : (s.complete).hdr = s.hdr := rfl
@[simp] theorem State.complete_lc : (s.complete).lc = s.lc := rfl
@[simp] theorem State.complete_grp : (s.complete).grp = s.grp := rfl
@[simp] theorem State.complete_gidx : (s.complete).gidx = s.gidx := rfl
@[simp] theorem State.complete_gv : (s.complete).gv = s.gv := rfl
@[simp] theorem State.complete_turns : (s.complete).turns = s.turns := rfl
@[simp] theorem State.complete_rdata : (s.complete).rdata = s.rdata := rfl
@[simp] theorem State.complete_draws : (s.complete).draws = s.draws := rfl
@[simp] theorem State.complete_epoch : (s.complete).epoch = s.epoch := rfl

/-! ### Reset as an event -/

@[simp] theorem State.afterReset_params : (s.afterReset).params = s.params := rfl
@[simp] theorem State.afterReset_cmd : (s.afterReset).cmd = 0#32 := rfl
@[simp] theorem State.afterReset_lenReg : (s.afterReset).lenReg = 0#32 := rfl
@[simp] theorem State.afterReset_status : (s.afterReset).status = 0#32 := rfl
@[simp] theorem State.afterReset_outlen : (s.afterReset).outlen = 0#32 := rfl
@[simp] theorem State.afterReset_tmplen : (s.afterReset).tmplen = 0#32 := rfl
@[simp] theorem State.afterReset_src : (s.afterReset).src = [] := rfl
@[simp] theorem State.afterReset_tmp : (s.afterReset).tmp = [] := rfl
@[simp] theorem State.afterReset_dst : (s.afterReset).dst = [] := rfl
@[simp] theorem State.afterReset_fsm : (s.afterReset).fsm = .idle := rfl
@[simp] theorem State.afterReset_n : (s.afterReset).n = 0 := rfl
@[simp] theorem State.afterReset_w : (s.afterReset).w = 0 := rfl
@[simp] theorem State.afterReset_pos : (s.afterReset).pos = 0 := rfl
@[simp] theorem State.afterReset_out : (s.afterReset).out = 0 := rfl
@[simp] theorem State.afterReset_cur : (s.afterReset).cur = 0#8 := rfl
@[simp] theorem State.afterReset_len : (s.afterReset).len = 0 := rfl
@[simp] theorem State.afterReset_v : (s.afterReset).v = 0#8 := rfl
@[simp] theorem State.afterReset_r : (s.afterReset).r = 0 := rfl
@[simp] theorem State.afterReset_info : (s.afterReset).info = 0#8 := rfl
@[simp] theorem State.afterReset_k : (s.afterReset).k = 0 := rfl
@[simp] theorem State.afterReset_ip : (s.afterReset).ip = 0 := rfl
@[simp] theorem State.afterReset_t : (s.afterReset).t = 0 := rfl
@[simp] theorem State.afterReset_a : (s.afterReset).a = 0 := rfl
@[simp] theorem State.afterReset_mode : (s.afterReset).mode = .none := rfl
@[simp] theorem State.afterReset_rv : (s.afterReset).rv = 0#8 := rfl
@[simp] theorem State.afterReset_rc : (s.afterReset).rc = 0 := rfl
@[simp] theorem State.afterReset_hdr : (s.afterReset).hdr = 0 := rfl
@[simp] theorem State.afterReset_lc : (s.afterReset).lc = 0 := rfl
@[simp] theorem State.afterReset_grp : (s.afterReset).grp = 0#8 := rfl
@[simp] theorem State.afterReset_gidx : (s.afterReset).gidx = 0 := rfl
@[simp] theorem State.afterReset_gv : (s.afterReset).gv = false := rfl
@[simp] theorem State.afterReset_turns : (s.afterReset).turns = s.turns := rfl
@[simp] theorem State.afterReset_rdata : (s.afterReset).rdata = s.rdata := rfl
@[simp] theorem State.afterReset_draws : (s.afterReset).draws = s.draws := rfl
@[simp] theorem State.afterReset_epoch : (s.afterReset).epoch = s.epoch + 1 := rfl

/-! ### The answers of host reads -/

@[simp] theorem State.answer_params (x : Word) : (s.answer x).params = s.params := rfl
@[simp] theorem State.answer_cmd (x : Word) : (s.answer x).cmd = s.cmd := rfl
@[simp] theorem State.answer_lenReg (x : Word) : (s.answer x).lenReg = s.lenReg := rfl
@[simp] theorem State.answer_status (x : Word) : (s.answer x).status = s.status := rfl
@[simp] theorem State.answer_outlen (x : Word) : (s.answer x).outlen = s.outlen := rfl
@[simp] theorem State.answer_tmplen (x : Word) : (s.answer x).tmplen = s.tmplen := rfl
@[simp] theorem State.answer_src (x : Word) : (s.answer x).src = s.src := rfl
@[simp] theorem State.answer_tmp (x : Word) : (s.answer x).tmp = s.tmp := rfl
@[simp] theorem State.answer_dst (x : Word) : (s.answer x).dst = s.dst := rfl
@[simp] theorem State.answer_fsm (x : Word) : (s.answer x).fsm = s.fsm := rfl
@[simp] theorem State.answer_n (x : Word) : (s.answer x).n = s.n := rfl
@[simp] theorem State.answer_w (x : Word) : (s.answer x).w = s.w := rfl
@[simp] theorem State.answer_pos (x : Word) : (s.answer x).pos = s.pos := rfl
@[simp] theorem State.answer_out (x : Word) : (s.answer x).out = s.out := rfl
@[simp] theorem State.answer_cur (x : Word) : (s.answer x).cur = s.cur := rfl
@[simp] theorem State.answer_len (x : Word) : (s.answer x).len = s.len := rfl
@[simp] theorem State.answer_v (x : Word) : (s.answer x).v = s.v := rfl
@[simp] theorem State.answer_r (x : Word) : (s.answer x).r = s.r := rfl
@[simp] theorem State.answer_info (x : Word) : (s.answer x).info = s.info := rfl
@[simp] theorem State.answer_k (x : Word) : (s.answer x).k = s.k := rfl
@[simp] theorem State.answer_ip (x : Word) : (s.answer x).ip = s.ip := rfl
@[simp] theorem State.answer_t (x : Word) : (s.answer x).t = s.t := rfl
@[simp] theorem State.answer_a (x : Word) : (s.answer x).a = s.a := rfl
@[simp] theorem State.answer_mode (x : Word) : (s.answer x).mode = s.mode := rfl
@[simp] theorem State.answer_rv (x : Word) : (s.answer x).rv = s.rv := rfl
@[simp] theorem State.answer_rc (x : Word) : (s.answer x).rc = s.rc := rfl
@[simp] theorem State.answer_hdr (x : Word) : (s.answer x).hdr = s.hdr := rfl
@[simp] theorem State.answer_lc (x : Word) : (s.answer x).lc = s.lc := rfl
@[simp] theorem State.answer_grp (x : Word) : (s.answer x).grp = s.grp := rfl
@[simp] theorem State.answer_gidx (x : Word) : (s.answer x).gidx = s.gidx := rfl
@[simp] theorem State.answer_gv (x : Word) : (s.answer x).gv = s.gv := rfl
@[simp] theorem State.answer_turns (x : Word) : (s.answer x).turns = s.turns := rfl
@[simp] theorem State.answer_rdata (x : Word) : (s.answer x).rdata = x := rfl
@[simp] theorem State.answer_draws (x : Word) : (s.answer x).draws = s.draws := rfl
@[simp] theorem State.answer_epoch (x : Word) : (s.answer x).epoch = s.epoch := rfl

/-! ### An unspecified word -/

@[simp] theorem State.answerDraw_params : (s.answerDraw).params = s.params := rfl
@[simp] theorem State.answerDraw_cmd : (s.answerDraw).cmd = s.cmd := rfl
@[simp] theorem State.answerDraw_lenReg : (s.answerDraw).lenReg = s.lenReg := rfl
@[simp] theorem State.answerDraw_status : (s.answerDraw).status = s.status := rfl
@[simp] theorem State.answerDraw_outlen : (s.answerDraw).outlen = s.outlen := rfl
@[simp] theorem State.answerDraw_tmplen : (s.answerDraw).tmplen = s.tmplen := rfl
@[simp] theorem State.answerDraw_src : (s.answerDraw).src = s.src := rfl
@[simp] theorem State.answerDraw_tmp : (s.answerDraw).tmp = s.tmp := rfl
@[simp] theorem State.answerDraw_dst : (s.answerDraw).dst = s.dst := rfl
@[simp] theorem State.answerDraw_fsm : (s.answerDraw).fsm = s.fsm := rfl
@[simp] theorem State.answerDraw_n : (s.answerDraw).n = s.n := rfl
@[simp] theorem State.answerDraw_w : (s.answerDraw).w = s.w := rfl
@[simp] theorem State.answerDraw_pos : (s.answerDraw).pos = s.pos := rfl
@[simp] theorem State.answerDraw_out : (s.answerDraw).out = s.out := rfl
@[simp] theorem State.answerDraw_cur : (s.answerDraw).cur = s.cur := rfl
@[simp] theorem State.answerDraw_len : (s.answerDraw).len = s.len := rfl
@[simp] theorem State.answerDraw_v : (s.answerDraw).v = s.v := rfl
@[simp] theorem State.answerDraw_r : (s.answerDraw).r = s.r := rfl
@[simp] theorem State.answerDraw_info : (s.answerDraw).info = s.info := rfl
@[simp] theorem State.answerDraw_k : (s.answerDraw).k = s.k := rfl
@[simp] theorem State.answerDraw_ip : (s.answerDraw).ip = s.ip := rfl
@[simp] theorem State.answerDraw_t : (s.answerDraw).t = s.t := rfl
@[simp] theorem State.answerDraw_a : (s.answerDraw).a = s.a := rfl
@[simp] theorem State.answerDraw_mode : (s.answerDraw).mode = s.mode := rfl
@[simp] theorem State.answerDraw_rv : (s.answerDraw).rv = s.rv := rfl
@[simp] theorem State.answerDraw_rc : (s.answerDraw).rc = s.rc := rfl
@[simp] theorem State.answerDraw_hdr : (s.answerDraw).hdr = s.hdr := rfl
@[simp] theorem State.answerDraw_lc : (s.answerDraw).lc = s.lc := rfl
@[simp] theorem State.answerDraw_grp : (s.answerDraw).grp = s.grp := rfl
@[simp] theorem State.answerDraw_gidx : (s.answerDraw).gidx = s.gidx := rfl
@[simp] theorem State.answerDraw_gv : (s.answerDraw).gv = s.gv := rfl
@[simp] theorem State.answerDraw_turns : (s.answerDraw).turns = s.turns := rfl
@[simp] theorem State.answerDraw_rdata : (s.answerDraw).rdata = Config.draw s.draws := rfl
@[simp] theorem State.answerDraw_draws : (s.answerDraw).draws = s.draws + 1 := rfl
@[simp] theorem State.answerDraw_epoch : (s.answerDraw).epoch = s.epoch := rfl

/-! ### An unspecified byte -/

@[simp] theorem State.answerDrawByte_params : (s.answerDrawByte).params = s.params := rfl
@[simp] theorem State.answerDrawByte_cmd : (s.answerDrawByte).cmd = s.cmd := rfl
@[simp] theorem State.answerDrawByte_lenReg : (s.answerDrawByte).lenReg = s.lenReg := rfl
@[simp] theorem State.answerDrawByte_status : (s.answerDrawByte).status = s.status := rfl
@[simp] theorem State.answerDrawByte_outlen : (s.answerDrawByte).outlen = s.outlen := rfl
@[simp] theorem State.answerDrawByte_tmplen : (s.answerDrawByte).tmplen = s.tmplen := rfl
@[simp] theorem State.answerDrawByte_src : (s.answerDrawByte).src = s.src := rfl
@[simp] theorem State.answerDrawByte_tmp : (s.answerDrawByte).tmp = s.tmp := rfl
@[simp] theorem State.answerDrawByte_dst : (s.answerDrawByte).dst = s.dst := rfl
@[simp] theorem State.answerDrawByte_fsm : (s.answerDrawByte).fsm = s.fsm := rfl
@[simp] theorem State.answerDrawByte_n : (s.answerDrawByte).n = s.n := rfl
@[simp] theorem State.answerDrawByte_w : (s.answerDrawByte).w = s.w := rfl
@[simp] theorem State.answerDrawByte_pos : (s.answerDrawByte).pos = s.pos := rfl
@[simp] theorem State.answerDrawByte_out : (s.answerDrawByte).out = s.out := rfl
@[simp] theorem State.answerDrawByte_cur : (s.answerDrawByte).cur = s.cur := rfl
@[simp] theorem State.answerDrawByte_len : (s.answerDrawByte).len = s.len := rfl
@[simp] theorem State.answerDrawByte_v : (s.answerDrawByte).v = s.v := rfl
@[simp] theorem State.answerDrawByte_r : (s.answerDrawByte).r = s.r := rfl
@[simp] theorem State.answerDrawByte_info : (s.answerDrawByte).info = s.info := rfl
@[simp] theorem State.answerDrawByte_k : (s.answerDrawByte).k = s.k := rfl
@[simp] theorem State.answerDrawByte_ip : (s.answerDrawByte).ip = s.ip := rfl
@[simp] theorem State.answerDrawByte_t : (s.answerDrawByte).t = s.t := rfl
@[simp] theorem State.answerDrawByte_a : (s.answerDrawByte).a = s.a := rfl
@[simp] theorem State.answerDrawByte_mode : (s.answerDrawByte).mode = s.mode := rfl
@[simp] theorem State.answerDrawByte_rv : (s.answerDrawByte).rv = s.rv := rfl
@[simp] theorem State.answerDrawByte_rc : (s.answerDrawByte).rc = s.rc := rfl
@[simp] theorem State.answerDrawByte_hdr : (s.answerDrawByte).hdr = s.hdr := rfl
@[simp] theorem State.answerDrawByte_lc : (s.answerDrawByte).lc = s.lc := rfl
@[simp] theorem State.answerDrawByte_grp : (s.answerDrawByte).grp = s.grp := rfl
@[simp] theorem State.answerDrawByte_gidx : (s.answerDrawByte).gidx = s.gidx := rfl
@[simp] theorem State.answerDrawByte_gv : (s.answerDrawByte).gv = s.gv := rfl
@[simp] theorem State.answerDrawByte_turns : (s.answerDrawByte).turns = s.turns := rfl
@[simp] theorem State.answerDrawByte_rdata : (s.answerDrawByte).rdata = ((Config.draw s.draws).setWidth 8).setWidth 32 := rfl
@[simp] theorem State.answerDrawByte_draws : (s.answerDrawByte).draws = s.draws + 1 := rfl
@[simp] theorem State.answerDrawByte_epoch : (s.answerDrawByte).epoch = s.epoch := rfl

/-! ### Replacing a buffer -/

@[simp] theorem State.setBuf_params (sp : Space) (m : Memory) : (s.setBuf sp m).params = s.params := by cases sp <;> rfl
@[simp] theorem State.setBuf_cmd (sp : Space) (m : Memory) : (s.setBuf sp m).cmd = s.cmd := by cases sp <;> rfl
@[simp] theorem State.setBuf_lenReg (sp : Space) (m : Memory) : (s.setBuf sp m).lenReg = s.lenReg := by cases sp <;> rfl
@[simp] theorem State.setBuf_status (sp : Space) (m : Memory) : (s.setBuf sp m).status = s.status := by cases sp <;> rfl
@[simp] theorem State.setBuf_outlen (sp : Space) (m : Memory) : (s.setBuf sp m).outlen = s.outlen := by cases sp <;> rfl
@[simp] theorem State.setBuf_tmplen (sp : Space) (m : Memory) : (s.setBuf sp m).tmplen = s.tmplen := by cases sp <;> rfl
@[simp] theorem State.setBuf_fsm (sp : Space) (m : Memory) : (s.setBuf sp m).fsm = s.fsm := by cases sp <;> rfl
@[simp] theorem State.setBuf_n (sp : Space) (m : Memory) : (s.setBuf sp m).n = s.n := by cases sp <;> rfl
@[simp] theorem State.setBuf_w (sp : Space) (m : Memory) : (s.setBuf sp m).w = s.w := by cases sp <;> rfl
@[simp] theorem State.setBuf_pos (sp : Space) (m : Memory) : (s.setBuf sp m).pos = s.pos := by cases sp <;> rfl
@[simp] theorem State.setBuf_out (sp : Space) (m : Memory) : (s.setBuf sp m).out = s.out := by cases sp <;> rfl
@[simp] theorem State.setBuf_cur (sp : Space) (m : Memory) : (s.setBuf sp m).cur = s.cur := by cases sp <;> rfl
@[simp] theorem State.setBuf_len (sp : Space) (m : Memory) : (s.setBuf sp m).len = s.len := by cases sp <;> rfl
@[simp] theorem State.setBuf_v (sp : Space) (m : Memory) : (s.setBuf sp m).v = s.v := by cases sp <;> rfl
@[simp] theorem State.setBuf_r (sp : Space) (m : Memory) : (s.setBuf sp m).r = s.r := by cases sp <;> rfl
@[simp] theorem State.setBuf_info (sp : Space) (m : Memory) : (s.setBuf sp m).info = s.info := by cases sp <;> rfl
@[simp] theorem State.setBuf_k (sp : Space) (m : Memory) : (s.setBuf sp m).k = s.k := by cases sp <;> rfl
@[simp] theorem State.setBuf_ip (sp : Space) (m : Memory) : (s.setBuf sp m).ip = s.ip := by cases sp <;> rfl
@[simp] theorem State.setBuf_t (sp : Space) (m : Memory) : (s.setBuf sp m).t = s.t := by cases sp <;> rfl
@[simp] theorem State.setBuf_a (sp : Space) (m : Memory) : (s.setBuf sp m).a = s.a := by cases sp <;> rfl
@[simp] theorem State.setBuf_mode (sp : Space) (m : Memory) : (s.setBuf sp m).mode = s.mode := by cases sp <;> rfl
@[simp] theorem State.setBuf_rv (sp : Space) (m : Memory) : (s.setBuf sp m).rv = s.rv := by cases sp <;> rfl
@[simp] theorem State.setBuf_rc (sp : Space) (m : Memory) : (s.setBuf sp m).rc = s.rc := by cases sp <;> rfl
@[simp] theorem State.setBuf_hdr (sp : Space) (m : Memory) : (s.setBuf sp m).hdr = s.hdr := by cases sp <;> rfl
@[simp] theorem State.setBuf_lc (sp : Space) (m : Memory) : (s.setBuf sp m).lc = s.lc := by cases sp <;> rfl
@[simp] theorem State.setBuf_grp (sp : Space) (m : Memory) : (s.setBuf sp m).grp = s.grp := by cases sp <;> rfl
@[simp] theorem State.setBuf_gidx (sp : Space) (m : Memory) : (s.setBuf sp m).gidx = s.gidx := by cases sp <;> rfl
@[simp] theorem State.setBuf_gv (sp : Space) (m : Memory) : (s.setBuf sp m).gv = s.gv := by cases sp <;> rfl
@[simp] theorem State.setBuf_turns (sp : Space) (m : Memory) : (s.setBuf sp m).turns = s.turns := by cases sp <;> rfl
@[simp] theorem State.setBuf_rdata (sp : Space) (m : Memory) : (s.setBuf sp m).rdata = s.rdata := by cases sp <;> rfl
@[simp] theorem State.setBuf_draws (sp : Space) (m : Memory) : (s.setBuf sp m).draws = s.draws := by cases sp <;> rfl
@[simp] theorem State.setBuf_epoch (sp : Space) (m : Memory) : (s.setBuf sp m).epoch = s.epoch := by cases sp <;> rfl

/-- The buffer replaced holds the new contents. -/
@[simp] theorem State.setBuf_buf (sp : Space) (m : Memory) : (s.setBuf sp m).buf sp = m := by cases sp <;> rfl

/-- The other buffers stay. -/
theorem State.setBuf_buf_other (sp q : Space) (m : Memory) (h : q ≠ sp) : (s.setBuf sp m).buf q = s.buf q := by
  cases sp <;> cases q <;> first | rfl | exact absurd rfl h

@[simp] theorem State.buf_src : s.buf .src = s.src := rfl
@[simp] theorem State.buf_tmp : s.buf .tmp = s.tmp := rfl
@[simp] theorem State.buf_dst : s.buf .dst = s.dst := rfl
@[simp] theorem State.setBuf_src_eq (m : Memory) : s.setBuf .src m = { s with src := m } := rfl
@[simp] theorem State.setBuf_tmp_eq (m : Memory) : s.setBuf .tmp m = { s with tmp := m } := rfl
@[simp] theorem State.setBuf_dst_eq (m : Memory) : s.setBuf .dst m = { s with dst := m } := rfl

end Sys2Proof.Machine
end

