-- ==== Sys2Proof/Laws/Ops.lean ====
section
/-! SUPPORT. One lemma for each shared operation: when it answers a next state, and which. -/

namespace Sys2Proof.Machine

@[simp] theorem andThen_of_next (s : State) (f : State → Out) : andThen (.next s) f = f s := rfl
@[simp] theorem andThen_of_fault (x : Fault) (f : State → Out) : andThen (.fault x) f = .fault x := rfl
@[simp] theorem andThen_of_refused (x : Refusal) (f : State → Out) : andThen (.refused x) f = .refused x := rfl

/-- A chain answers a next state when both its links do. -/
theorem andThen_next {o : Out} {f : State → Out} {t : State} :
    andThen o f = .next t ↔ ∃ s, o = .next s ∧ f s = .next t := by
  cases o <;> simp [andThen]

theorem andThen_assoc (o : Out) (f g : State → Out) :
    andThen (andThen o f) g = andThen o fun s => andThen (f s) g := by cases o <;> rfl

/-- The byte a buffer holds after a store: the one stored at the index, elsewhere what was there. -/
theorem byteAt_setBuf_write (s : State) (sp q : Space) (i j : Nat) (b : Byte) :
    (s.setBuf sp (Memory.write (s.buf sp) i b)).byteAt q j =
      if q = sp ∧ j = i then b else s.byteAt q j := by
  rcases eq_or_ne q sp with rfl | hq
  · rcases eq_or_ne j i with rfl | hj
    · simp [State.byteAt]
    · simp [State.byteAt, hj, Memory.read_write_other _ b hj]
  · simp [State.byteAt, State.setBuf_buf_other s sp q _ hq, hq]

/-- An indexed read answers when the index is one the buffer has. -/
theorem withByte_next {sp : Space} {i : Nat} {s t : State} {f : Byte → Out} :
    withByte sp i s f = .next t ↔ i < s.params.bytes sp ∧ f (s.byteAt sp i) = .next t := by
  unfold withByte bufRead
  by_cases h : i < s.params.bytes sp <;> simp [h]

theorem withByte_of_lt {sp : Space} {i : Nat} {s : State} {f : Byte → Out} (h : i < s.params.bytes sp) :
    withByte sp i s f = f (s.byteAt sp i) := by simp [withByte, bufRead, h]

/-- A store answers when the index is one the buffer has, and changes that buffer only. -/
theorem bufWrite_next {sp : Space} {i : Nat} {b : Byte} {s t : State} :
    bufWrite sp i b s = .next t ↔
      i < s.params.bytes sp ∧ t = s.setBuf sp (Memory.write (s.buf sp) i b) := by
  unfold bufWrite
  by_cases h : i < s.params.bytes sp <;> simp [h, eq_comm]

theorem bufWrite_of_lt {sp : Space} {i : Nat} {b : Byte} {s : State} (h : i < s.params.bytes sp) :
    bufWrite sp i b s = .next (s.setBuf sp (Memory.write (s.buf sp) i b)) := by simp [bufWrite, h]

/-- `emit` appends one byte to DST. -/
theorem emit_next {b : Byte} {s t : State} :
    emit b s = .next t ↔
      s.out < s.params.dstBytes ∧ t = { s with dst := Memory.write s.dst s.out b, out := s.out + 1 } := by
  unfold emit bufWrite
  by_cases h : s.out < s.params.dstBytes <;> simp [h, Params.bytes, eq_comm]

theorem emit_of_lt {b : Byte} {s : State} (h : s.out < s.params.dstBytes) :
    emit b s = .next { s with dst := Memory.write s.dst s.out b, out := s.out + 1 } := emit_next.mpr ⟨h, rfl⟩

/-- Stage A's append: one byte to TMP. -/
theorem tmpAppend_next {b : Byte} {s t : State} :
    tmpAppend b s = .next t ↔
      s.t < s.params.tmpBytes ∧ t = { s with tmp := Memory.write s.tmp s.t b, t := s.t + 1 } := by
  unfold tmpAppend bufWrite
  by_cases h : s.t < s.params.tmpBytes <;> simp [h, Params.bytes, eq_comm]

theorem tmpAppend_of_lt {b : Byte} {s : State} (h : s.t < s.params.tmpBytes) :
    tmpAppend b s = .next { s with tmp := Memory.write s.tmp s.t b, t := s.t + 1 } := tmpAppend_next.mpr ⟨h, rfl⟩

/-- A repeat segment is two appended bytes. -/
theorem emitRepeat_next {c : Nat} {v : Byte} {s t : State} :
    emitRepeat c v s = .next t ↔
      s.out + 1 < s.params.dstBytes ∧
        t = { s with
              dst := Memory.write (Memory.write s.dst s.out (0x80#8 ||| BitVec.ofNat 8 c)) (s.out + 1) v
              out := s.out + 2 } := by
  simp only [emitRepeat, andThen_next, emit_next]
  constructor
  · rintro ⟨s', ⟨h, rfl⟩, h', rfl⟩
    exact ⟨h', rfl⟩
  · rintro ⟨h, rfl⟩
    exact ⟨_, ⟨by omega, rfl⟩, h, rfl⟩

/-- Closing a literal segment is one back-patched byte. -/
theorem closeLiteral_next {c : Nat} {s t : State} :
    closeLiteral c s = .next t ↔
      s.hdr < s.params.dstBytes ∧
        t = { s with dst := Memory.write s.dst s.hdr (BitVec.ofNat 8 c), mode := .none } := by
  unfold closeLiteral bufWrite
  by_cases h : s.hdr < s.params.dstBytes <;> simp [h, Params.bytes, eq_comm]

end Sys2Proof.Machine
end

