-- ==== Sys2Proof/Laws/Operands.lean ====
section
/-! SUPPORT. What the aligner and the run detector can do: they touch nothing but the group register, and
with a truthful group register the aligner reads `Sample(i)` (R102). -/

namespace Sys2Proof.Machine

/-- The state after the fetch of SRC byte `g`: only the group register may change. -/
def fetched (s : State) (g : Nat) : State :=
  if s.gv = true ∧ s.gidx = g then s else { s with grp := s.byteAt .src g, gidx := g, gv := true }

/-- `GRP`, where valid, is the SRC byte `GIDX` names. -/
abbrev State.GroupOk (s : State) : Prop := s.gv = true → s.grp = s.byteAt .src s.gidx

/-- A group fetch either uses `GRP` or reads SRC within its capacity. -/
theorem withGroup_next {g : Nat} {s t : State} {f : Byte → State → Out} :
    withGroup g s f = .next t ↔
      ((s.gv = true ∧ s.gidx = g) ∧ f s.grp s = .next t) ∨
        (¬(s.gv = true ∧ s.gidx = g) ∧ g < s.params.srcBytes ∧
          f (s.byteAt .src g) { s with grp := s.byteAt .src g, gidx := g, gv := true } = .next t) := by
  unfold withGroup
  by_cases h : s.gv = true ∧ s.gidx = g <;> simp [h, withByte_next, Params.bytes]

/-- With a truthful group register and the byte inside SRC, the fetch gives the SRC byte. -/
theorem withGroup_of_ok {g : Nat} {s : State} {f : Byte → State → Out} (hok : s.GroupOk)
    (hg : g < s.params.srcBytes) : withGroup g s f = f (s.byteAt .src g) (fetched s g) := by
  unfold withGroup fetched
  by_cases h : s.gv = true ∧ s.gidx = g
  · simp only [if_pos h]
    rw [hok h.1, h.2]
  · simp only [if_neg h]
    exact withByte_of_lt hg

/-- With a truthful group register and the byte inside SRC, the aligner gives `Sample(i)` (R102). -/
theorem withSample_of_ok {i : Nat} {s : State} {f : Byte → State → Out} (hok : s.GroupOk)
    (hg : i / samplesPerByte s.w < s.params.srcBytes) :
    withSample i s f = f (s.sample s.w i) (fetched s (i / samplesPerByte s.w)) := by
  unfold withSample State.sample
  rw [withGroup_of_ok hok hg]

/-- A group fetch keeps the group register truthful. -/
theorem fetched_ok {s : State} (h : s.GroupOk) (g : Nat) : (fetched s g).GroupOk := by
  unfold fetched
  split
  · exact h
  · intro _
    rfl

/-- The aligner passes on a byte and a state that differs in the group register only. -/
theorem withSample_next {i : Nat} {s t : State} {f : Byte → State → Out} (h : withSample i s f = .next t) :
    ∃ (x : Byte) (grp : Byte) (gidx : Nat) (gv : Bool),
      f x { s with grp := grp, gidx := gidx, gv := gv } = .next t := by
  unfold withSample at h
  rcases withGroup_next.mp h with ⟨_, h⟩ | ⟨_, _, h⟩
  · exact ⟨_, s.grp, s.gidx, s.gv, h⟩
  · exact ⟨_, _, _, _, h⟩

/-- Inside SRC the aligner always passes on a byte, with a change of the group register only. -/
theorem withSample_total {i : Nat} {s : State} (f : Byte → State → Out)
    (hi : i / samplesPerByte s.w < s.params.srcBytes) :
    ∃ (x : Byte) (grp : Byte) (gidx : Nat) (gv : Bool),
      withSample i s f = f x { s with grp := grp, gidx := gidx, gv := gv } := by
  unfold withSample withGroup
  split
  · exact ⟨_, s.grp, s.gidx, s.gv, rfl⟩
  · exact ⟨_, _, _, _, withByte_of_lt hi⟩

/-- Inside SRC a scan step always goes on or leaves, with a change of the group register only; it goes on
only below the cap and below `N`. -/
theorem scan_total {below : Bool} {i : Nat} {x : Byte} (again leave : State → State) {s : State}
    (hi : i < s.n → i / samplesPerByte s.w < s.params.srcBytes) :
    ∃ grp gidx gv, scan below i x again leave s = .next (leave { s with grp := grp, gidx := gidx, gv := gv }) ∨
      (below = true ∧ i < s.n ∧
        scan below i x again leave s = .next (again { s with grp := grp, gidx := gidx, gv := gv })) := by
  unfold scan
  split
  · rename_i hc
    obtain ⟨y, grp, gidx, gv, h⟩ := withSample_total (fun y s' => .next (if y = x then again s' else leave s')) (hi hc.2)
    refine ⟨grp, gidx, gv, ?_⟩
    rw [h]
    split
    · exact .inr ⟨hc.1, hc.2, rfl⟩
    · exact .inl rfl
  · exact ⟨s.grp, s.gidx, s.gv, .inl rfl⟩

/-- A scan step goes on or leaves, from a state that differs in the group register only. It goes on only
below the cap and below `N` (R103, R107). -/
theorem scan_next {below : Bool} {i : Nat} {x : Byte} {again leave : State → State} {s t : State}
    (h : scan below i x again leave s = .next t) :
    (∃ grp gidx gv, t = leave { s with grp := grp, gidx := gidx, gv := gv }) ∨
      (below = true ∧ i < s.n ∧ ∃ grp gidx gv, t = again { s with grp := grp, gidx := gidx, gv := gv }) := by
  unfold scan at h
  split at h
  · rename_i hc
    obtain ⟨y, grp, gidx, gv, h⟩ := withSample_next h
    split at h
    · exact .inr ⟨hc.1, hc.2, grp, gidx, gv, by cases h; rfl⟩
    · exact .inl ⟨grp, gidx, gv, by cases h; rfl⟩
  · exact .inl ⟨s.grp, s.gidx, s.gv, by cases h; rfl⟩

/-- A lane holds `w` bits (R104). -/
theorem laneOf_lt (msb : Bool) (w j : Nat) (b : Byte) (hw : w ≤ 8) : (laneOf msb w j b).toNat < 2 ^ w := by
  have h1 : 2 ^ w ≤ 256 := by
    calc 2 ^ w ≤ 2 ^ 8 := Nat.pow_le_pow_right (by decide) hw
      _ = 256 := by decide
  have h2 : 0 < 2 ^ w := Nat.pos_of_ne_zero (by positivity)
  unfold laneOf
  rw [BitVec.toNat_and, BitVec.toNat_ofNat]
  calc _ ≤ (2 ^ w - 1) % 2 ^ 8 := Nat.and_le_right
    _ < 2 ^ w := by
      rw [Nat.mod_eq_of_lt (by omega)]
      omega

end Sys2Proof.Machine
end

