-- ==== Sys2Proof/Laws/Engine.lean ====
section
/-! SUPPORT. What an engine step can do, said once (`engineStep_cases`), and the induction over a run of
steps. -/

namespace Sys2Proof.Machine

/-- Whatever next state `o` answers satisfies `P`. -/
def Ends (P : State → Prop) (o : Out) : Prop := ∀ t, o = .next t → P t

theorem Ends.next {P : State → Prop} {t : State} (h : P t) : Ends P (.next t) := by
  intro u hu
  cases hu
  exact h

theorem Ends.andThen {P Q : State → Prop} {o : Out} {f : State → Out} (ho : Ends P o)
    (hf : ∀ s, P s → Ends Q (f s)) : Ends Q (andThen o f) := by
  intro t ht
  obtain ⟨s, hs, h⟩ := andThen_next.mp ht
  exact hf s (ho s hs) t h

theorem Ends.withByte {P : State → Prop} {sp : Space} {i : Nat} {s : State} {f : Byte → Out}
    (h : ∀ b, Ends P (f b)) : Ends P (withByte sp i s f) := fun t ht => h _ t (withByte_next.mp ht).2

theorem Ends.ite {P : State → Prop} {c : Prop} [Decidable c] {o o' : Out} (h : c → Ends P o)
    (h' : ¬c → Ends P o') : Ends P (if c then o else o') := by
  split
  · exact h ‹_›
  · exact h' ‹_›

/-- What no step of an encoder touches, and the two buffers it may write. -/
def State.outer (s : State) :=
  (s.params, s.cmd, s.lenReg, s.src, s.turns, s.rdata, s.draws, s.epoch, s.n, s.w, s.status, s.outlen)

/-- A buffer in canonical form within its capacity. -/
abbrev Memory.good (cap : Nat) (m : Memory) : Prop := Memory.wf m ∧ Memory.within cap m

/-- An encoder's step at work: the outer state stays, TMP and DST stay good. -/
structure Work (s t : State) : Prop where
  outer : t.outer = s.outer
  tmp : Memory.good s.params.tmpBytes s.tmp → Memory.good t.params.tmpBytes t.tmp
  dst : Memory.good s.params.dstBytes s.dst → Memory.good t.params.dstBytes t.dst

theorem Work.refl (s : State) : Work s s := ⟨rfl, id, id⟩

/-- A change of working registers is work. -/
theorem Work.regs {s s' t : State} (h : Work s s') (hv : (t.outer, t.tmp, t.dst) = (s'.outer, s'.tmp, s'.dst)) :
    Work s t := by
  obtain ⟨ho, ht, hd⟩ := (by simpa using hv : t.outer = s'.outer ∧ t.tmp = s'.tmp ∧ t.dst = s'.dst)
  have hp : t.params = s'.params := congrArg Prod.fst ho
  refine ⟨ho.trans h.outer, ?_, ?_⟩
  · rw [hp, ht]
    exact h.tmp
  · rw [hp, hd]
    exact h.dst

theorem Memory.good_write {m : Memory} {cap i : Nat} (h : Memory.good cap m) (hi : i < cap) (b : Byte) :
    Memory.good cap (Memory.write m i b) := ⟨Memory.wf_write h.1 i b, Memory.within_write h.2 hi b⟩

/-- A store into DST is work. -/
theorem Work.storeDst {s s' : State} (h : Work s s') {i : Nat} {b : Byte} (hi : i < s'.params.dstBytes) :
    Work s { s' with dst := Memory.write s'.dst i b } :=
  ⟨h.outer, h.tmp, fun hg => Memory.good_write (h.dst hg) hi b⟩

/-- A store into TMP is work. -/
theorem Work.storeTmp {s s' : State} (h : Work s s') {i : Nat} {b : Byte} (hi : i < s'.params.tmpBytes) :
    Work s { s' with tmp := Memory.write s'.tmp i b } :=
  ⟨h.outer, fun hg => Memory.good_write (h.tmp hg) hi b, h.dst⟩

theorem Work.emit {s s' : State} (h : Work s s') (b : Byte) : Ends (Work s) (emit b s') := by
  intro t ht
  obtain ⟨hlt, rfl⟩ := emit_next.mp ht
  exact (h.storeDst hlt).regs rfl

theorem Work.tmpAppend {s s' : State} (h : Work s s') (b : Byte) : Ends (Work s) (tmpAppend b s') := by
  intro t ht
  obtain ⟨hlt, rfl⟩ := tmpAppend_next.mp ht
  exact (h.storeTmp hlt).regs rfl

theorem Work.backPatch {s s' : State} (h : Work s s') (i : Nat) (b : Byte) : Ends (Work s) (bufWrite .tmp i b s') := by
  intro t ht
  obtain ⟨hlt, rfl⟩ := bufWrite_next.mp ht
  exact h.storeTmp hlt

theorem Work.emitRepeat {s s' : State} (h : Work s s') (c : Nat) (v : Byte) :
    Ends (Work s) (emitRepeat c v s') := (h.emit _).andThen fun _ h1 => h1.emit _

theorem Work.closeLiteral {s s' : State} (h : Work s s') (c : Nat) : Ends (Work s) (closeLiteral c s') := by
  intro t ht
  obtain ⟨hlt, rfl⟩ := closeLiteral_next.mp ht
  exact (h.storeDst hlt).regs rfl

theorem Work.withSample {s s' : State} (h : Work s s') {P : State → Prop} (i : Nat) (f : Byte → State → Out)
    (hf : ∀ x u, Work s u → Ends P (f x u)) : Ends P (withSample i s' f) := by
  intro t ht
  obtain ⟨x, grp, gidx, gv, ht⟩ := withSample_next ht
  exact hf x { s' with grp := grp, gidx := gidx, gv := gv } (h.regs rfl) t ht

/-- A step at work goes on: it is not idle after it. -/
abbrev Working (s t : State) : Prop := Work s t ∧ t.fsm ≠ .idle

theorem stepNHead_work (s : State) : Ends (Working s) (stepNHead s) :=
  .ite (fun _ => .next ⟨(Work.refl s).regs rfl, nofun⟩) fun _ =>
    (Work.refl s).withSample _ _ fun _ _ h => .next ⟨h.regs rfl, nofun⟩

theorem scan_work {s : State} {below : Bool} {i : Nat} {x : Byte} {again leave : State → State}
    (ha : ∀ u, Work s u → u.fsm = s.fsm → Working s (again u)) (hl : ∀ u, Work s u → Working s (leave u)) :
    Ends (Working s) (scan below i x again leave s) := by
  intro t ht
  rcases scan_next ht with ⟨grp, gidx, gv, rfl⟩ | ⟨_, _, grp, gidx, gv, rfl⟩
  · exact hl _ ((Work.refl s).regs rfl)
  · exact ha _ ((Work.refl s).regs rfl) rfl

theorem stepNScan_work (s : State) (hs : s.fsm ≠ .idle) : Ends (Working s) (stepNScan s) :=
  scan_work (fun _ h he => ⟨h.regs rfl, by simpa [he] using hs⟩) fun _ h => ⟨h.regs rfl, nofun⟩

theorem stepNEmit_work (s : State) : Ends (Working s) (stepNEmit s) :=
  Ends.andThen (P := Work s) (((Work.refl s).emit _).andThen fun _ h => .next (h.regs rfl)) fun _ h =>
    .next ⟨h.regs rfl, nofun⟩

theorem stepBHead_work (s : State) : Ends (Working s) (stepBHead s) :=
  .ite (fun _ => .next ⟨(Work.refl s).regs rfl, nofun⟩) fun _ =>
    (Work.refl s).withSample _ _ fun _ _ h => .next ⟨h.regs rfl, nofun⟩

theorem stepBScan_work (s : State) (hs : s.fsm ≠ .idle) : Ends (Working s) (stepBScan s) :=
  scan_work (fun _ h he => ⟨h.regs rfl, by simpa [he] using hs⟩) fun _ h => ⟨h.regs rfl, nofun⟩

theorem stepBEmit_work (s : State) : Ends (Working s) (stepBEmit s) :=
  Ends.andThen (P := Work s)
    (((Work.refl s).emit _).andThen fun _ h => (h.emit _).andThen fun _ h => .next (h.regs rfl))
    fun _ h => .next ⟨h.regs rfl, nofun⟩

theorem stepAHead_work (s : State) : Ends (Working s) (stepAHead s) :=
  .ite (fun _ => .next ⟨(Work.refl s).regs rfl, nofun⟩) fun _ =>
    (Work.refl s).withSample _ _ fun _ _ h => .next ⟨h.regs rfl, nofun⟩

theorem stepAScan_work (s : State) (hs : s.fsm ≠ .idle) : Ends (Working s) (stepAScan s) :=
  scan_work (fun _ h he => ⟨h.regs rfl, by simpa [he] using hs⟩) fun _ h => ⟨h.regs rfl, nofun⟩

theorem openBatch_work {s s' : State} (h : Work s s') : Ends (Work s) (openBatch s') :=
  .ite (fun _ => (Work.tmpAppend (s' := { s' with ip := s'.t }) (h.regs rfl) _).andThen
    fun _ h => .next (h.regs rfl)) fun _ => .next h

theorem placeUnit_work {s s' : State} (h : Work s s') : Ends (Work s) (placeUnit s') :=
  .ite
    (fun _ => (Work.tmpAppend (s' := { s' with info := s'.info ||| (0x80#8 >>> s'.k) }) (h.regs rfl) _).andThen fun _ h =>
      (h.tmpAppend _).andThen fun _ h => .next (h.regs rfl))
    fun _ => (h.tmpAppend _).andThen fun _ h => .next (h.regs rfl)

theorem countUnit_work {s s' : State} (h : Work s s') : Ends (Work s) (countUnit s') :=
  .ite (fun _ => (h.backPatch _ _).andThen fun _ h => .next (h.regs rfl)) fun _ => .next (h.regs rfl)

theorem stepAEmit_work (s : State) : Ends (Working s) (stepAEmit s) :=
  (openBatch_work (Work.refl s)).andThen fun _ h => (placeUnit_work h).andThen fun _ h =>
    (countUnit_work h).andThen fun _ h => .next ⟨h.regs rfl, nofun⟩

theorem stepAEnd_work (s : State) : Ends (Working s) (stepAEnd s) :=
  Ends.andThen (P := Work s) (.ite (fun _ => (Work.refl s).backPatch _ _) fun _ => .next (Work.refl s)) fun _ h =>
    .next ⟨h.regs rfl, nofun⟩

theorem stepPAwait_work (s : State) : Ends (Working s) (stepPAwait s) :=
  .ite (fun _ => .next ⟨(Work.refl s).regs rfl, nofun⟩) fun _ =>
    .ite (fun _ => .withByte fun _ => .next ⟨(Work.refl s).regs rfl, nofun⟩) fun _ =>
      .next ⟨(Work.refl s).regs rfl, nofun⟩

theorem flushRun_work {s s' : State} (h : Work s s') : Ends (Work s) (flushRun s') :=
  .ite (fun _ => h.emitRepeat _ _) fun _ => .next h

theorem closeIfLit_work {s s' : State} (h : Work s s') : Ends (Work s) (closeIfLit s') :=
  .ite (fun _ => h.closeLiteral _) fun _ => .next h

theorem flushIfOther_work {s s' : State} (h : Work s s') : Ends (Work s) (flushIfOther s') :=
  .ite (fun _ => (flushRun_work h).andThen fun _ h => .next (h.regs rfl)) fun _ => .next h

theorem openRun_work {s s' : State} (h : Work s s') : Work s (openRun s') := by
  unfold openRun
  split
  · exact h.regs rfl
  · exact h

theorem stepPRunUnit_work (s : State) : Ends (Working s) (stepPRunUnit s) :=
  .withByte fun _ => .withByte fun _ => by
    refine Ends.andThen (P := Work s) (closeIfLit_work ?_) fun _ h => ?_
    · exact (Work.refl s).regs rfl
    · exact (flushIfOther_work h).andThen fun _ h => .next ⟨(openRun_work h).regs rfl, nofun⟩

theorem flushIfRun_work {s s' : State} (h : Work s s') : Ends (Work s) (flushIfRun s') :=
  .ite (fun _ => (flushRun_work h).andThen fun _ h => .next (h.regs rfl)) fun _ => .next h

theorem openLit_work {s s' : State} (h : Work s s') : Ends (Work s) (openLit s') :=
  .ite (fun _ => (Work.emit (s' := { s' with hdr := s'.out }) (h.regs rfl) _).andThen
    fun _ h => .next (h.regs rfl)) fun _ => .next h

theorem appendLit_work {s s' : State} (h : Work s s') : Ends (Work s) (appendLit s') :=
  (h.emit _).andThen fun u h =>
    .ite (fun _ => Work.closeLiteral (s' := { u with lc := u.lc + 1 }) (h.regs rfl) _) fun _ => .next (h.regs rfl)

theorem stepPLitUnit_work (s : State) : Ends (Working s) (stepPLitUnit s) :=
  .withByte fun _ => by
    refine Ends.andThen (P := Work s) (flushIfRun_work ?_) fun _ h => ?_
    · exact (Work.refl s).regs rfl
    · exact (openLit_work h).andThen fun _ h => (appendLit_work h).andThen fun _ h => .next ⟨h.regs rfl, nofun⟩

theorem stepPUnit_work (s : State) : Ends (Working s) (stepPUnit s) :=
  .ite (fun _ => stepPRunUnit_work s) fun _ => stepPLitUnit_work s

/-- A repeat segment of an admitted count is its two bytes. -/
theorem execPacksegRepeat_of_ne {count : BitVec 7} {value : Byte} {s : State} (h : count ≠ 0#7) :
    execPacksegRepeat count value s = emitRepeat count.toNat value s := if_neg h

/-- A literal segment of an admitted count is its back-patched control byte. -/
theorem execPacksegLiteral_of_ne {count : BitVec 7} {s : State} (h : count ≠ 0#7) :
    execPacksegLiteral count s = closeLiteral count.toNat s := if_neg h

theorem stepPOvf_work (s : State) (hs : s.fsm = .pOvf) : Ends (Working s) (stepPOvf s) := by
  refine .ite (fun _ => ?_) fun _ => .next ⟨(Work.refl s).regs rfl, nofun⟩
  refine Ends.andThen (P := fun u => Work s u ∧ u.fsm = .pOvf) (fun u hu => ?_) fun u h =>
    .next ⟨h.1.regs (by simp only [State.outer]), by simp [h.2]⟩
  rw [execPacksegRepeat_of_ne (by decide)] at hu
  exact ⟨(Work.refl s).emitRepeat _ _ u hu, by rw [(emitRepeat_next.mp hu).2]; exact hs⟩

theorem stepPEnd_work (s : State) : Ends (Working s) (stepPEnd s) :=
  Ends.andThen (P := Work s) (.ite (fun _ => flushRun_work (Work.refl s)) fun _ => .next (Work.refl s)) fun _ h =>
    (closeIfLit_work h).andThen fun _ h => .next ⟨h.regs rfl, nofun⟩

/-- Where a command is dispatched to is no idle state. -/
theorem headOf_ne_idle {c : Word} {i : Instr} (h : decodeCommand c = .ok i) : headOf i ≠ .idle := by
  simp only [decodeCommand] at h
  repeat' split at h
  all_goals cases h
  all_goals simp [headOf]

/-- Everything an engine step can do: nothing when idle; work, after which it is not idle; completion; or,
in DECODE, one of the two errors. -/
theorem engineStep_cases {s t : State} (h : engineStep s = .next t) :
    (s.fsm = .idle ∧ t = s) ∨ (s.fsm ≠ .idle ∧ Working s t) ∨ (s.fsm = .finish ∧ t = s.complete) ∨
      (s.fsm = .decode ∧ (t = s.raise .unsupportedFormat ∨ t = s.raise .invalidInput)) := by
  unfold engineStep at h
  split at h <;> rename_i hf
  · cases h
    exact .inl ⟨hf, rfl⟩
  · unfold stepDecode at h
    split at h
    · cases h
      exact .inr (.inr (.inr ⟨hf, .inl rfl⟩))
    · rename_i i hi
      split at h
      · cases h
        exact .inr (.inr (.inr ⟨hf, .inr rfl⟩))
      · cases h
        exact .inr (.inl ⟨by simp [hf], (Work.refl s).regs rfl, headOf_ne_idle hi⟩)
  · exact .inr (.inl ⟨by simp [hf], stepNHead_work s t h⟩)
  · exact .inr (.inl ⟨by simp [hf], stepNScan_work s (by simp [hf]) t h⟩)
  · exact .inr (.inl ⟨by simp [hf], stepNEmit_work s t h⟩)
  · exact .inr (.inl ⟨by simp [hf], stepBHead_work s t h⟩)
  · exact .inr (.inl ⟨by simp [hf], stepBScan_work s (by simp [hf]) t h⟩)
  · exact .inr (.inl ⟨by simp [hf], stepBEmit_work s t h⟩)
  · exact .inr (.inl ⟨by simp [hf], stepAHead_work s t h⟩)
  · exact .inr (.inl ⟨by simp [hf], stepAScan_work s (by simp [hf]) t h⟩)
  · exact .inr (.inl ⟨by simp [hf], stepAEmit_work s t h⟩)
  · exact .inr (.inl ⟨by simp [hf], stepAEnd_work s t h⟩)
  · exact .inr (.inl ⟨by simp [hf], stepPAwait_work s t h⟩)
  · exact .inr (.inl ⟨by simp [hf], stepPUnit_work s t h⟩)
  · exact .inr (.inl ⟨by simp [hf], stepPOvf_work s hf t h⟩)
  · exact .inr (.inl ⟨by simp [hf], stepPEnd_work s t h⟩)
  · cases h
    exact .inr (.inr (.inl ⟨hf, rfl⟩))

/-- What every engine step keeps, a run of engine steps keeps. -/
theorem runEngine_keeps {P : State → Prop} (hstep : ∀ s t, P s → engineStep s = .next t → P t) :
    ∀ (fuel : Nat) (s t : State), P s → runEngine fuel s = .next t → P t := by
  intro fuel
  induction fuel with
  | zero =>
    intro s t hs h
    cases h
    exact hs
  | succ k ih =>
    intro s t hs h
    simp only [runEngine] at h
    split at h
    · cases h
      exact hs
    · obtain ⟨u, hu, h⟩ := andThen_next.mp h
      exact ih u t (hstep s u hs hu) h

/-- An idle engine's run ends where it stands. -/
@[simp] theorem runEngine_idle (fuel : Nat) {s : State} (h : s.fsm = .idle) : runEngine fuel s = .next s := by
  cases fuel <;> simp [runEngine, h]

end Sys2Proof.Machine
end

