-- ==== Sys2Proof/Laws/Runs.lean ====
section
/-! SUPPORT. What a run of engine steps, a list read out of a buffer, and the run detector on a list can do:
each said once. -/

namespace Sys2Proof.Machine

/-! ### Runs of engine steps -/

@[simp] theorem engineSteps_zero (s : State) : engineSteps 0 s = .next s := rfl

theorem engineSteps_succ (k : Nat) (s : State) : engineSteps (k + 1) s = andThen (engineStep s) (engineSteps k) := rfl

@[simp] theorem engineStep_idle {s : State} (h : s.fsm = .idle) : engineStep s = .next s := by simp [engineStep, h]

@[simp] theorem engineSteps_idle (k : Nat) {s : State} (h : s.fsm = .idle) : engineSteps k s = .next s := by
  induction k with
  | zero => rfl
  | succ k ih => rw [engineSteps_succ, engineStep_idle h, andThen_of_next, ih]

theorem engineSteps_add (j k : Nat) (s : State) :
    engineSteps (j + k) s = andThen (engineSteps j s) (engineSteps k) := by
  induction j generalizing s with
  | zero => simp
  | succ j ih =>
    rw [Nat.succ_add, engineSteps_succ, engineSteps_succ, andThen_assoc]
    exact congrArg (andThen (engineStep s)) (funext ih)

/-- Two runs one after the other. -/
theorem engineSteps_trans {j k : Nat} {s t u : State} (h : engineSteps j s = .next t) (h' : engineSteps k t = .next u) :
    engineSteps (j + k) s = .next u := by
  rw [engineSteps_add, h, andThen_of_next, h']

/-- The run to the operation's end goes on from wherever some of its steps lead. -/
theorem runEngine_after {k : Nat} {s t : State} (h : engineSteps k s = .next t) (fuel : Nat) :
    runEngine (k + fuel) s = runEngine fuel t := by
  induction k generalizing s with
  | zero => simp_all
  | succ k ih =>
    by_cases hs : s.fsm = .idle
    · rw [engineSteps_idle _ hs] at h
      cases h
      rw [runEngine_idle _ hs, runEngine_idle _ hs]
    · rw [engineSteps_succ, andThen_next] at h
      obtain ⟨u, hu, hk⟩ := h
      rw [Nat.succ_add, runEngine, if_neg hs, hu, andThen_of_next, ih hk]

/-- If some number of steps within the fuel ends the operation, the run answers that end. -/
theorem runEngine_of_steps {k fuel : Nat} {s t : State} (h : engineSteps k s = .next t) (ht : t.fsm = .idle)
    (hk : k ≤ fuel) : runEngine fuel s = .next t := by
  obtain ⟨d, rfl⟩ := Nat.exists_eq_add_of_le hk
  rw [runEngine_after h, runEngine_idle _ ht]

/-! ### Lists read out of a buffer -/

@[simp] theorem bytesOf_length (s : State) (sp : Space) (n : Nat) : (s.bytesOf sp n).length = n := by
  simp [State.bytesOf]

@[simp] theorem bytesOf_zero (s : State) (sp : Space) : s.bytesOf sp 0 = [] := rfl

theorem bytesOf_succ (s : State) (sp : Space) (n : Nat) :
    s.bytesOf sp (n + 1) = s.bytesOf sp n ++ [s.byteAt sp n] := by
  simp [State.bytesOf, List.range_succ]

theorem bytesOf_get? (s : State) (sp : Space) (n i : Nat) :
    (s.bytesOf sp n)[i]? = if i < n then some (s.byteAt sp i) else none := by
  by_cases h : i < n <;> simp [State.bytesOf, h]

theorem bytesOf_congr {s t : State} {sp : Space} {n : Nat} (h : ∀ i, i < n → t.byteAt sp i = s.byteAt sp i) :
    t.bytesOf sp n = s.bytesOf sp n :=
  List.map_congr_left fun i hi => h i (List.mem_range.1 hi)

@[simp] theorem stream_length (s : State) (w n : Nat) : (s.stream w n).length = n := by simp [State.stream]

theorem stream_get? (s : State) (w n i : Nat) :
    (s.stream w n)[i]? = if i < n then some (s.sample w i) else none := by
  by_cases h : i < n <;> simp [State.stream, h]

theorem stream_congr {s t : State} {w n : Nat} (h : ∀ i, i < n → t.sample w i = s.sample w i) :
    t.stream w n = s.stream w n :=
  List.map_congr_left fun i hi => h i (List.mem_range.1 hi)

/-! ### The run detector on a list -/

theorem leading_le_cap (x : Byte) (cap : Nat) (ys : List Byte) : leading x cap ys ≤ cap := by
  induction cap generalizing ys with
  | zero => simp [leading]
  | succ cap ih =>
    cases ys with
    | nil => simp [leading]
    | cons y ys =>
      rw [leading]
      split
      · exact Nat.succ_le_succ (ih ys)
      · omega

theorem leading_le_length (x : Byte) (cap : Nat) (ys : List Byte) : leading x cap ys ≤ ys.length := by
  induction cap generalizing ys with
  | zero => simp [leading]
  | succ cap ih =>
    cases ys with
    | nil => simp [leading]
    | cons y ys =>
      rw [leading]
      split
      · exact Nat.succ_le_succ (ih ys)
      · simp

/-- Every element counted equals `x`. -/
theorem leading_get {x : Byte} {cap : Nat} {ys : List Byte} {j : Nat} (h : j < leading x cap ys) :
    ys[j]? = some x := by
  induction cap generalizing ys j with
  | zero => simp [leading] at h
  | succ cap ih =>
    cases ys with
    | nil => simp [leading] at h
    | cons y ys =>
      rw [leading] at h
      split at h
      · next e =>
        cases j with
        | zero => simp [e]
        | succ j => simpa using ih (by omega)
      · omega

/-- Where the count stops below the cap, the next element, if any, differs. -/
theorem leading_stop {x : Byte} {cap : Nat} {ys : List Byte} (h : leading x cap ys < cap) :
    ys[leading x cap ys]? ≠ some x := by
  induction cap generalizing ys with
  | zero => omega
  | succ cap ih =>
    cases ys with
    | nil => simp [leading]
    | cons y ys =>
      rw [leading] at h ⊢
      split
      · next e =>
        rw [if_pos e] at h
        simpa using ih (ys := ys) (by omega)
      · next e => simpa using e

/-- The count is the one number that stops so: all before it equal `x`, and it is at the cap or the next
differs. -/
theorem leading_unique {x : Byte} {cap r : Nat} {ys : List Byte} (hr : r ≤ cap)
    (hall : ∀ j, j < r → ys[j]? = some x) (hstop : r = cap ∨ ys[r]? ≠ some x) : leading x cap ys = r := by
  rcases Nat.lt_trichotomy (leading x cap ys) r with h | h | h
  · exact absurd (hall _ h) (leading_stop (Nat.lt_of_lt_of_le h hr))
  · exact h
  · rcases hstop with rfl | hs
    · exact absurd h (Nat.not_lt.2 (leading_le_cap _ _ _))
    · exact absurd (leading_get h) hs

theorem runLen_of_get {S : List Byte} {p : Nat} {x : Byte} (h : S[p]? = some x) (cap : Nat) :
    runLen S p cap = 1 + leading x (cap - 1) (S.drop (p + 1)) := by
  obtain ⟨hp, rfl⟩ := List.getElem?_eq_some_iff.1 h
  rw [runLen, List.drop_eq_getElem_cons hp]

theorem runLen_pos {S : List Byte} {p : Nat} (h : p < S.length) (cap : Nat) : 1 ≤ runLen S p cap := by
  rw [runLen_of_get (List.getElem?_eq_getElem h)]
  omega

theorem runLen_le_cap (S : List Byte) (p : Nat) {cap : Nat} (h : 1 ≤ cap) : runLen S p cap ≤ cap := by
  rw [runLen]
  split
  · omega
  · next x xs _ => have := leading_le_cap x (cap - 1) xs; omega

/-- The run does not pass the end of the stream (R106). -/
theorem runLen_le_rest {S : List Byte} {p : Nat} (h : p ≤ S.length) (cap : Nat) : p + runLen S p cap ≤ S.length := by
  rcases Nat.lt_or_eq_of_le h with h | rfl
  · rw [runLen_of_get (List.getElem?_eq_getElem h)]
    have := leading_le_length S[p] (cap - 1) (S.drop (p + 1))
    rw [List.length_drop] at this
    omega
  · simp [runLen]

end Sys2Proof.Machine
end

