-- ==== Sys2Proof/Laws/Packer.lean ====
section
/-! SUPPORT. The STAGEA format as a list: how a layout grows by a batch, what its info bytes say, and how
ParseA reads units out of it. Then how the lists read out of a buffer grow and stay. -/

namespace Sys2Proof.Machine

/-! ### The layout of a unit list (R161) -/

@[simp] theorem layoutFrom_nil (fuel : Nat) : layoutFrom fuel [] = [] := by cases fuel <;> rfl

@[simp] theorem layout_nil : layout [] = [] := rfl

/-- Any fuel that covers the list gives the same layout. -/
theorem layoutFrom_fuel {f g : Nat} {us : List AUnit} (hf : us.length ≤ f) (hg : us.length ≤ g) :
    layoutFrom f us = layoutFrom g us := by
  induction f generalizing g us with
  | zero =>
    rw [List.length_eq_zero_iff.1 (Nat.le_zero.1 hf), layoutFrom_nil, layoutFrom_nil]
  | succ f ih =>
    cases us with
    | nil => simp
    | cons u us =>
      cases g with
      | zero => simp at hg
      | succ g =>
        simp only [List.length_cons] at hf hg
        simp only [layoutFrom]
        rw [ih (g := g)] <;> (rw [List.length_drop, List.length_cons]; omega)

/-- A non-empty unit list is its first batch, then the rest. -/
theorem layout_eq {us : List AUnit} (h : us ≠ []) :
    layout us = batchBytes (us.take 8) ++ layout (us.drop 8) := by
  cases us with
  | nil => exact absurd rfl h
  | cons u us =>
    rw [layout, List.length_cons, layoutFrom]
    refine congrArg _ (layoutFrom_fuel ?_ (Nat.le_refl _))
    rw [List.length_drop, List.length_cons]
    omega

/-- After closed batches of eight, a last batch is laid out behind them. -/
theorem layout_append {closed batch : List AUnit} (hc : closed.length % 8 = 0) (hne : batch ≠ [])
    (hb : batch.length ≤ 8) : layout (closed ++ batch) = layout closed ++ batchBytes batch := by
  obtain ⟨m, hm⟩ := Nat.dvd_of_mod_eq_zero hc
  clear hc
  induction m generalizing closed with
  | zero =>
    obtain rfl := List.length_eq_zero_iff.1 hm
    rw [List.nil_append, layout_eq hne, List.take_of_length_le hb, List.drop_of_length_le hb]
    simp
  | succ m ih =>
    have h8 : 8 ≤ closed.length := by omega
    have hcne : closed ≠ [] := by rintro rfl; simp at h8
    rw [layout_eq (by simp [hcne]), layout_eq hcne, List.take_append_of_le_length h8,
      List.drop_append_of_le_length h8, ih (by rw [List.length_drop]; omega), List.append_assoc]

/-! ### Info bytes (R79, R161) -/

/-- Whether a unit is a run unit. -/
def AUnit.isRun : AUnit → Bool
  | .run _ _ => true
  | .lit _ => false

theorem getLsbD_unitBit (k j : Nat) (hk : k < 8) (hj : j < 8) :
    ((0x80#8 : Byte) >>> k).getLsbD (7 - j) = decide (j = k) := by
  interval_cases k <;> interval_cases j <;> decide

/-- An info byte's bits: the kinds of the units from position `k` on, and 0 elsewhere. -/
theorem getLsbD_infoFrom (us : List AUnit) (k j : Nat) (hk : k + us.length ≤ 8) (hj : j < 8) :
    (infoFrom k us).getLsbD (7 - j) = (decide (k ≤ j) && ((us[j - k]?).map AUnit.isRun).getD false) := by
  induction us generalizing k with
  | nil => simp [infoFrom]
  | cons u us ih =>
    simp only [List.length_cons] at hk
    have hrest := ih (k + 1) (by omega)
    rcases Nat.lt_trichotomy j k with h | h | h
    · cases u <;> simp [infoFrom, hrest, getLsbD_unitBit k j (by omega) hj, Nat.not_le.2 h,
        Nat.ne_of_lt h, Nat.not_le.2 (Nat.lt_succ_of_lt h)]
    · subst h
      cases u <;> simp [infoFrom, hrest, getLsbD_unitBit j j hj hj, AUnit.isRun]
    · have e : j - k = j - (k + 1) + 1 := by omega
      have e3 : j ≠ k := by omega
      cases u <;> simp [infoFrom, hrest, getLsbD_unitBit k j (by omega) hj, e, h.le, Nat.succ_le_of_lt h, e3]

/-- The info byte of a batch that grows by one unit (R165). -/
theorem infoFrom_append (us : List AUnit) (u : AUnit) (k : Nat) :
    infoFrom k (us ++ [u]) =
      infoFrom k us ||| (if u.isRun then 0x80#8 >>> (k + us.length) else 0x00#8) := by
  induction us generalizing k with
  | nil => cases u <;> simp [infoFrom, AUnit.isRun]
  | cons x us ih =>
    have e : k + 1 + us.length = k + (us.length + 1) := by omega
    cases x <;> simp [infoFrom, ih, e, BitVec.or_assoc]

/-! ### ParseA on a layout (R168) -/

@[simp] theorem parseAFrom_nil (info : Byte) (k : Nat) : parseAFrom info k [] = some [] := by
  cases k <;> rfl

/-- A byte in a batch whose unit is literal. -/
theorem parseAFrom_lit {info : Byte} {k : Nat} (hk : k ≠ 8) (h : info.getLsbD (7 - k) = false) (b : Byte)
    (rest : List Byte) : parseAFrom info k (b :: rest) = (parseAFrom info (k + 1) rest).map fun us => .lit b :: us := by
  cases rest <;> simp [parseAFrom, hk, h]

/-- Two bytes in a batch whose unit is a run. -/
theorem parseAFrom_run {info : Byte} {k : Nat} (hk : k ≠ 8) (h : info.getLsbD (7 - k) = true) (b v : Byte)
    (rest : List Byte) :
    parseAFrom info k (b :: v :: rest) = (parseAFrom info (k + 1) rest).map fun us => .run b.toNat v :: us := by
  simp [parseAFrom, hk, h]

/-- A run unit has two bytes. -/
theorem parseAFrom_run_one {info : Byte} {k : Nat} (hk : k ≠ 8) (h : info.getLsbD (7 - k) = true) (b : Byte) :
    parseAFrom info k [b] = none := by simp [parseAFrom, hk, h]

/-- An info byte has a unit behind it. -/
theorem parseAFrom_info_one (info b : Byte) : parseAFrom info 8 [b] = none := by simp [parseAFrom]

/-- Inside a batch ParseA reads the units whose kinds the info byte names, then goes on behind them. -/
theorem parseAFrom_units {info : Byte} {us : List AUnit} {k : Nat} (hk : k + us.length ≤ 8)
    (hfit : ∀ u ∈ us, u.fits) (hbits : ∀ j (h : j < us.length), info.getLsbD (7 - (k + j)) = us[j].isRun)
    (tail : List Byte) :
    parseAFrom info k (us.flatMap AUnit.bytes ++ tail) = (parseAFrom info (k + us.length) tail).map (us ++ ·) := by
  induction us generalizing k with
  | nil => simp
  | cons u us ih =>
    simp only [List.length_cons] at hk hbits
    have hrest := ih (k := k + 1) (by omega) (fun x hx => hfit x (List.mem_cons_of_mem _ hx)) (by
      intro j h
      have := hbits (j + 1) (by omega)
      rw [show k + 1 + j = k + (j + 1) by omega]
      simpa using this)
    have hbit : info.getLsbD (7 - k) = u.isRun := by simpa using hbits 0 (by omega)
    have hk8 : k ≠ 8 := by omega
    have e : k + (us.length + 1) = k + 1 + us.length := by omega
    cases u with
    | run r v =>
      have hr : (BitVec.ofNat 8 r).toNat = r := by
        have := (hfit (.run r v) (by simp)).2
        simp
        omega
      simp only [AUnit.isRun] at hbit
      simp only [List.flatMap_cons, AUnit.bytes, List.cons_append, List.nil_append, List.length_cons, e]
      rw [parseAFrom_run hk8 hbit]
      simp only [hrest, hr, Option.map_map]
      rfl
    | lit b =>
      simp only [AUnit.isRun] at hbit
      simp only [List.flatMap_cons, AUnit.bytes, List.cons_append, List.nil_append, List.length_cons, e]
      rw [parseAFrom_lit hk8 hbit]
      simp only [hrest, Option.map_map]
      rfl

/-- A batch has at least one byte behind its info byte. -/
theorem flatMap_bytes_ne_nil {us : List AUnit} (h : us ≠ []) : us.flatMap AUnit.bytes ≠ [] := by
  cases us with
  | nil => exact absurd rfl h
  | cons u us => cases u <;> simp [AUnit.bytes]

/-- With no batch open ParseA opens the one that follows. -/
theorem parseAFrom_open (x b : Byte) {rest : List Byte} (h : rest ≠ []) :
    parseAFrom x 8 (b :: rest) = parseAFrom b 0 rest := by
  cases rest with
  | nil => exact absurd rfl h
  | cons c rest => rfl

/-- ParseA reads one batch, then goes on behind it. -/
theorem parseAFrom_batch (x : Byte) {us : List AUnit} (hne : us ≠ []) (hlen : us.length ≤ 8)
    (hfit : ∀ u ∈ us, u.fits) (tail : List Byte) :
    parseAFrom x 8 (batchBytes us ++ tail) =
      (parseAFrom (infoFrom 0 us) us.length tail).map (us ++ ·) := by
  rw [batchBytes, List.cons_append, parseAFrom_open _ _ (by simp [flatMap_bytes_ne_nil hne]),
    parseAFrom_units (by omega) hfit ?_ tail, Nat.zero_add]
  intro j h
  rw [Nat.zero_add, getLsbD_infoFrom us 0 j (by omega) (by omega)]
  simp [h]

/-- ParseA undoes the layout of units that fit their bytes, whatever info byte was read before. -/
theorem parseAFrom_layout (x : Byte) {us : List AUnit} (hfit : ∀ u ∈ us, u.fits) :
    parseAFrom x 8 (layout us) = some us := by
  induction hn : us.length using Nat.strong_induction_on generalizing us x with
  | _ n ih =>
    by_cases hne : us = []
    · simp [hne]
    have hpos : 0 < us.length := List.length_pos_of_ne_nil hne
    rw [layout_eq hne, parseAFrom_batch x (by simpa using hne) (by simp) (fun u hu => hfit u (List.mem_of_mem_take hu))]
    by_cases h8 : us.length ≤ 8
    · simp [List.drop_of_length_le h8, List.take_of_length_le h8]
    · have hlen : (us.take 8).length = 8 := by rw [List.length_take]; omega
      rw [hlen, ih (us.drop 8).length (by rw [List.length_drop]; omega) _ (fun u hu => hfit u (List.mem_of_mem_drop hu)) rfl]
      simp

/-! ### How many samples a unit list stands for -/

@[simp] theorem unitSamples_nil : unitSamples [] = 0 := rfl

@[simp] theorem unitSamples_append (us vs : List AUnit) : unitSamples (us ++ vs) = unitSamples us + unitSamples vs := by
  simp [unitSamples]

@[simp] theorem unitSamples_run (r : Nat) (v : Byte) (us : List AUnit) :
    unitSamples (.run r v :: us) = r + unitSamples us := by simp [unitSamples, AUnit.samples]

@[simp] theorem unitSamples_lit (b : Byte) (us : List AUnit) : unitSamples (.lit b :: us) = 1 + unitSamples us := by
  simp [unitSamples, AUnit.samples, Nat.add_comm]

/-- A unit stands for at least one sample, and for no fewer samples than it has bytes (R167). -/
theorem units_le_samples {us : List AUnit} (h : ∀ u ∈ us, u.fits) :
    us.length ≤ unitSamples us ∧ (us.flatMap AUnit.bytes).length ≤ unitSamples us := by
  induction us with
  | nil => simp
  | cons u us ih =>
    have ih := ih fun x hx => h x (List.mem_cons_of_mem _ hx)
    have hu := h u (by simp)
    cases u <;> simp [AUnit.bytes, AUnit.fits] at * <;> omega

/-- A layout is its units' bytes and one info byte for each eight units or part of them (R161, R167). -/
theorem layout_length (us : List AUnit) :
    (layout us).length = (us.flatMap AUnit.bytes).length + (us.length + 7) / 8 := by
  induction hn : us.length using Nat.strong_induction_on generalizing us with
  | _ n ih =>
    by_cases hne : us = []
    · subst hne
      subst hn
      simp
    have hpos : 0 < us.length := List.length_pos_of_ne_nil hne
    have hsplit : (us.flatMap AUnit.bytes).length =
        ((us.take 8).flatMap AUnit.bytes).length + ((us.drop 8).flatMap AUnit.bytes).length := by
      rw [← List.length_append, ← List.flatMap_append, List.take_append_drop]
    rw [layout_eq hne, List.length_append, ih (us.drop 8).length (by rw [List.length_drop]; omega) _ rfl, batchBytes,
      List.length_cons, List.length_drop]
    omega

/-! ### Lists read out of a buffer -/

@[simp] theorem bytesFrom_length (s : State) (sp : Space) (i n : Nat) : (s.bytesFrom sp i n).length = n := by
  simp [State.bytesFrom]

@[simp] theorem bytesFrom_zero (s : State) (sp : Space) (i : Nat) : s.bytesFrom sp i 0 = [] := rfl

theorem bytesFrom_succ (s : State) (sp : Space) (i n : Nat) :
    s.bytesFrom sp i (n + 1) = s.byteAt sp i :: s.bytesFrom sp (i + 1) n := by
  simp [State.bytesFrom, List.range'_succ]

theorem bytesFrom_of_zero (s : State) (sp : Space) (n : Nat) : s.bytesFrom sp 0 n = s.bytesOf sp n := by
  simp [State.bytesFrom, State.bytesOf, List.range_eq_range']

/-- A list read out of a buffer depends on that buffer and the epoch alone. -/
theorem byteAt_of_buf {s t : State} {sp : Space} (h : t.buf sp = s.buf sp) (he : t.epoch = s.epoch) (i : Nat) :
    t.byteAt sp i = s.byteAt sp i := by simp [State.byteAt, h, he]

theorem bytesFrom_of_buf {s t : State} {sp : Space} (h : t.buf sp = s.buf sp) (he : t.epoch = s.epoch) (i n : Nat) :
    t.bytesFrom sp i n = s.bytesFrom sp i n :=
  List.map_congr_left fun j _ => byteAt_of_buf h he j

theorem bytesOf_of_buf {s t : State} {sp : Space} (h : t.buf sp = s.buf sp) (he : t.epoch = s.epoch) (n : Nat) :
    t.bytesOf sp n = s.bytesOf sp n :=
  List.map_congr_left fun j _ => byteAt_of_buf h he j

/-- A store below `n` replaces one element of the list. -/
theorem bytesOf_write {s t : State} {sp : Space} {i n : Nat} {b : Byte}
    (h : ∀ j, t.byteAt sp j = if j = i then b else s.byteAt sp j) : t.bytesOf sp n = (s.bytesOf sp n).set i b := by
  apply List.ext_getElem?
  intro j
  rw [bytesOf_get?, List.getElem?_set, bytesOf_length, bytesOf_get?, h]
  by_cases hj : j < n <;> by_cases e : i = j
  · simp [e, hj]
  · simp [e, hj, Ne.symm e]
  · simp [e, hj]
  · simp [e, hj]

/-- A store at `n` appends to the list of the first `n`. -/
theorem bytesOf_append {s t : State} {sp : Space} {n : Nat} {b : Byte}
    (h : ∀ j, t.byteAt sp j = if j = n then b else s.byteAt sp j) : t.bytesOf sp (n + 1) = s.bytesOf sp n ++ [b] := by
  have hs : t.bytesOf sp n = s.bytesOf sp n := bytesOf_congr fun i hi => by rw [h i, if_neg (Nat.ne_of_lt hi)]
  rw [bytesOf_succ, h n, if_pos rfl, hs]

end Sys2Proof.Machine
end

