-- ==== Sys2Proof/Laws/PerInstr.lean ====
section
/-! SUPPORT. Statements made per instruction. `OwnFormat`: an instruction's code read in any format but its
own is never that instruction (R76: a stream does not say which format it is in). -/

namespace Sys2Proof.Laws.OwnFormat

/-- Read in another format, the code of `i` is not `i`. -/
def Statement (i : Instr) : Prop := ∀ f, f ≠ i.format → decode f (encode i) ≠ .ok i

/-- A byte code is read by its format's record decoder alone. -/
theorem of_bytes {i : Instr} {bs : List Byte} (he : encode i = .bytes bs)
    (h : ∀ f, f ≠ i.format → f ≠ .cmd32 → ∀ rest, decodeRecord f bs ≠ .ok (i, rest)) : Statement i := by
  intro f hf hd
  rw [he] at hd
  cases f
  · simp [decode] at hd
  all_goals
    simp only [decode] at hd
    split at hd
    · cases hd
      rename_i hr
      exact h _ hf (by simp) _ hr
    · cases hd
    · cases hd

theorem encN1 : Statement .encN1 := by intro f hf; cases f <;> simp_all [decode, encode, Instr.format]
theorem encN2 : Statement .encN2 := by intro f hf; cases f <;> simp_all [decode, encode, Instr.format]
theorem encN4 : Statement .encN4 := by intro f hf; cases f <;> simp_all [decode, encode, Instr.format]
theorem encB8 : Statement .encB8 := by intro f hf; cases f <;> simp_all [decode, encode, Instr.format]
theorem encA8 : Statement .encA8 := by intro f hf; cases f <;> simp_all [decode, encode, Instr.format]

/-- A record that the decoder of format `f` gives is a record of format `f`. -/
theorem format_of_decodeRecord {f : Format} {bs rest : List Byte} {i : Instr}
    (h : decodeRecord f bs = .ok (i, rest)) : i.format = f := by
  unfold decodeRecord at h
  split at h
  · cases h
  · cases h
    rfl
  · cases h
  · cases h
    rfl
  · cases h
  · cases h
    rfl
  · cases h
  · cases h
  · split at h
    · cases h
    · split at h
      · split at h
        · cases h
          rfl
        · cases h
      · cases h
        rfl

theorem nibrec (length value : BitVec 4) : Statement (.nibrec length value) :=
  of_bytes rfl fun _ hf _ _ h => hf (format_of_decodeRecord h).symm
theorem byterec (length value : Byte) : Statement (.byterec length value) :=
  of_bytes rfl fun _ hf _ _ h => hf (format_of_decodeRecord h).symm
theorem packsegRepeat (count : BitVec 7) (value : Byte) : Statement (.packsegRepeat count value) :=
  of_bytes rfl fun _ hf _ _ h => hf (format_of_decodeRecord h).symm
theorem packsegLiteral (count : BitVec 7) : Statement (.packsegLiteral count) :=
  of_bytes rfl fun _ hf _ _ h => hf (format_of_decodeRecord h).symm
theorem stageaInfo (flags : Byte) : Statement (.stageaInfo flags) :=
  of_bytes rfl fun _ hf _ _ h => hf (format_of_decodeRecord h).symm

end Sys2Proof.Laws.OwnFormat
end

