-- ==== Sys2Proof/Laws/StageA.lean ====
section
/-! SUPPORT. What the three parts of A_EMIT (R164, R165) do to the STAGEA form in TMP, each said once. -/

namespace Sys2Proof.Machine

/-- Inside A_EMIT: TMP holds the closed batches and the open one, whose info byte is in `info`. -/
structure BatchOpen (s : State) (closed batch : List AUnit) : Prop where
  eights : closed.length % 8 = 0
  fits : ∀ u ∈ closed ++ batch, u.fits
  samples : unitSamples (closed ++ batch) = s.pos
  bytes : s.bytesOf .tmp s.t = layout closed ++ 0x00#8 :: batch.flatMap AUnit.bytes
  slot : s.ip = (layout closed).length
  kinds : s.info = infoFrom 0 batch

theorem BatchOpen.append_position {s : State} {closed batch : List AUnit} (h : BatchOpen s closed batch) :
    s.t = s.ip + 1 + (batch.flatMap AUnit.bytes).length := by
  have e := congrArg List.length h.bytes
  rw [bytesOf_length, List.length_append, List.length_cons, ← h.slot] at e
  omega

/-- The append position is at most the samples placed and the info bytes reserved (R167). -/
theorem BatchOpen.bounds {s : State} {closed batch : List AUnit} (h : BatchOpen s closed batch) :
    s.t ≤ s.pos + closed.length / 8 + 1 ∧ closed.length + batch.length ≤ s.pos := by
  have h1 := h.append_position
  have h2 := units_le_samples fun u hu => h.fits u (List.mem_append_left _ hu)
  have h3 := units_le_samples fun u hu => h.fits u (List.mem_append_right _ hu)
  have h4 := h.samples
  have h5 := h.eights
  rw [h.slot, layout_length] at h1
  rw [unitSamples_append] at h4
  omega

/-- TMP after one store. -/
theorem byteAt_tmp_write {s t : State} {i : Nat} {b : Byte} (ht : t.tmp = Memory.write s.tmp i b)
    (he : t.epoch = s.epoch) (j : Nat) : t.byteAt .tmp j = if j = i then b else s.byteAt .tmp j := by
  have h := byteAt_setBuf_write s .tmp .tmp i j b
  rw [← byteAt_of_buf (s := s.setBuf .tmp (Memory.write (s.buf .tmp) i b)) (t := t) (sp := .tmp) ht he j] at h
  simpa using h

/-- One more byte in TMP at the append position. -/
theorem bytesOf_tmpAppend {s t : State} {n : Nat} {b : Byte} (ht : t.tmp = Memory.write s.tmp n b)
    (he : t.epoch = s.epoch) : t.bytesOf .tmp (n + 1) = s.bytesOf .tmp n ++ [b] :=
  bytesOf_append (byteAt_tmp_write ht he)

/-- R164: in room for one byte a batch is open afterwards, empty if there was none. -/
theorem openBatch_laid {s : State} (hroom : s.t < s.params.tmpBytes) (h : s.StageALaid) :
    ∃ t closed batch, openBatch s = .next t ∧ BatchOpen t closed batch ∧ batch.length = t.k ∧ t.k < 8 ∧
      (t.params, t.n, t.w, t.pos, t.r, t.v, t.k) = (s.params, s.n, s.w, s.pos, s.r, s.v, s.k) := by
  obtain ⟨closed, batch, hc, hb, hk, hfit, hsam, hbytes, hopen⟩ := h
  unfold openBatch
  split
  · rename_i h0
    obtain rfl := List.length_eq_zero_iff.1 (hb.trans h0)
    rw [if_pos h0, List.append_nil] at hbytes
    rw [tmpAppend_of_lt (by simpa using hroom)]
    refine ⟨_, closed, [], rfl, ⟨hc, hfit, hsam, ?_, ?_, rfl⟩, hb, hk, rfl⟩
    · refine (bytesOf_tmpAppend (s := s) (b := 0x00#8) ?_ ?_).trans ?_
      · rfl
      · rfl
      · rw [hbytes]
        rfl
    · simpa using congrArg List.length hbytes
  · rename_i h0
    rw [if_neg h0] at hbytes
    obtain ⟨hip, hinfo⟩ := hopen (Nat.pos_of_ne_zero h0)
    exact ⟨s, closed, batch, rfl, ⟨hc, hfit, hsam, hbytes, hip, hinfo⟩, hb, hk, rfl⟩

/-- The unit A_EMIT places for a counted run of `r` samples equal to `v` (R160, R165). -/
def unitOf (r : Nat) (v : Byte) : AUnit := if 2 < r then .run r v else .lit v

/-- R165: in room for its bytes the unit is placed in the open batch, and the cursor passes its samples. -/
theorem placeUnit_laid {s : State} {closed batch : List AUnit} (h : BatchOpen s closed batch)
    (hb : batch.length = s.k) (h255 : s.r ≤ 255) (hroom : s.t < s.params.tmpBytes)
    (hroom2 : 2 < s.r → s.t + 1 < s.params.tmpBytes) :
    ∃ t, placeUnit s = .next t ∧ BatchOpen t closed (batch ++ [unitOf s.r s.v]) ∧
      (t.params, t.n, t.w, t.k) = (s.params, s.n, s.w, s.k) ∧ t.pos = s.pos + (unitOf s.r s.v).samples.length := by
  have hfits : (unitOf s.r s.v).fits → ∀ u ∈ closed ++ (batch ++ [unitOf s.r s.v]), u.fits := by
    intro hu u hm
    rw [← List.append_assoc, List.mem_append, List.mem_singleton] at hm
    rcases hm with hm | rfl
    · exact h.fits u hm
    · exact hu
  unfold placeUnit
  unfold unitOf at *
  split
  · rename_i hr
    rw [if_pos hr] at hfits
    rw [tmpAppend_of_lt (by simpa using hroom), andThen_of_next, tmpAppend_of_lt (by simpa using hroom2 hr)]
    refine ⟨_, rfl, ⟨h.eights, hfits ⟨hr, h255⟩, ?_, ?_, h.slot, ?_⟩, rfl, ?_⟩
    · rw [← List.append_assoc, unitSamples_append, h.samples]
      simp
    · have h1 : ({ s with tmp := Memory.write s.tmp s.t (BitVec.ofNat 8 s.r) } : State).bytesOf .tmp (s.t + 1) =
          s.bytesOf .tmp s.t ++ [BitVec.ofNat 8 s.r] := bytesOf_tmpAppend rfl rfl
      refine (bytesOf_tmpAppend (b := s.v) (s := { s with
        tmp := Memory.write s.tmp s.t (BitVec.ofNat 8 s.r) }) ?_ ?_).trans ?_
      · rfl
      · rfl
      · rw [h1, h.bytes]
        simp [AUnit.bytes]
    · have hi : s.info ||| 0x80#8 >>> s.k = infoFrom 0 (batch ++ [.run s.r s.v]) := by
        rw [infoFrom_append, ← h.kinds, Nat.zero_add, hb, AUnit.isRun, if_pos rfl]
      exact hi
    · simp [AUnit.samples]
  · rename_i hr
    rw [if_neg hr] at hfits
    rw [tmpAppend_of_lt hroom]
    refine ⟨_, rfl, ⟨h.eights, hfits trivial, ?_, ?_, h.slot, ?_⟩, rfl, rfl⟩
    · rw [← List.append_assoc, unitSamples_append, h.samples]
      simp
    · refine (bytesOf_tmpAppend (s := s) (b := s.v) ?_ ?_).trans ?_
      · rfl
      · rfl
      · rw [h.bytes]
        simp [AUnit.bytes]
    · rw [infoFrom_append, ← h.kinds]
      simp [AUnit.isRun]

/-- R165, R166: with the info byte back-patched TMP is the layout of all the units placed. -/
theorem bytesOf_backPatch {s t : State} {closed batch : List AUnit} (h : BatchOpen s closed batch)
    (hne : batch ≠ []) (h8 : batch.length ≤ 8) (ht : t.tmp = Memory.write s.tmp s.ip s.info) (he : t.epoch = s.epoch) :
    t.bytesOf .tmp s.t = layout (closed ++ batch) := by
  rw [layout_append h.eights hne h8, batchBytes, bytesOf_write (s := s) (i := s.ip) (b := s.info), h.bytes, h.slot,
    h.kinds]
  · simp [List.set_append_right]
  · exact byteAt_tmp_write ht he

end Sys2Proof.Machine
end

