-- ==== Sys2Proof/Tests/Slice0.lean ====
section
/-! SUPPORT. Tests on fixed values, their expected results from spec/ (the vectors of 95_test_vectors.md,
named in each comment), and a witness for the hypotheses of every statement that has some. -/

namespace Sys2Proof.Tests

open Sys2Proof Sys2Proof.Machine

/-- The state after reset with bytes in SRC and a sample count in `LEN`. -/
def loaded (bytes : List Byte) (n : Nat) : State :=
  { State.reset with src := (List.range bytes.length).zip bytes, lenReg := BitVec.ofNat 32 n }

/-- The host-visible end of an outcome, with Stage A's buffer. -/
def seen : Out → Option (Word × Word × Word × List Byte × List Byte)
  | .next t => some (t.status, t.outlen, t.tmplen, t.encodedBuffer, t.stageABuffer)
  | .fault _ => none
  | .refused _ => none

/-- What one field of the next state is. -/
def field {α : Type} (f : State → α) : Out → Option α
  | .next t => some (f t)
  | .fault _ => none
  | .refused _ => none

/-- A run of the whole schedule `turns` and no further. -/
def play : Nat → State → Out
  | 0, s => .next s
  | k + 1, s => if s.turns = [] then .next s else andThen (step s) (play k)

/-! ### Well-formedness: one ill-formed term for each check -/

theorem test_wf_repeat_zero : Instr.wf (.packsegRepeat 0#7 5#8) = false := by decide
theorem test_wf_literal_zero : Instr.wf (.packsegLiteral 0#7) = false := by decide
theorem test_wf_width_one : Instr.fitsWidth 1 (.nibrec 3#4 2#4) = false := by decide
theorem test_wf_width_four : Instr.fitsWidth 4 (.nibrec 15#4 15#4) = true := by decide
/-- R4: a DST of one byte too few. -/
theorem test_params_small_dst : ¬({ Params.default with dstBytes := 33554429 } : Params).ok := by decide
theorem test_params_small_tmp : ¬({ Params.default with tmpBytes := 18874366 } : Params).ok := by decide
theorem test_params_default : Params.default.ok := by decide

/-! ### Decoding: words written out from the spec's encodings (R72, R77-R80) and the refusals of part 6 -/

theorem test_decode_encN1 : decodeCommand 0b00000000000000000000000000010001#32 = .ok .encN1 := by decide
theorem test_decode_encN2 : decodeCommand 0b00000000000000000000000000010010#32 = .ok .encN2 := by decide
theorem test_decode_encN4 : decodeCommand 0b00000000000000000000000000010100#32 = .ok .encN4 := by decide
theorem test_decode_encB8 : decodeCommand 0b00000000000000000000000000011000#32 = .ok .encB8 := by decide
theorem test_decode_encA8 : decodeCommand 0b00000000000000000000000000111000#32 = .ok .encA8 := by decide
/-- DX1's first record, `21`. -/
theorem test_decode_nibrec : decode .nibrec (.bytes [0b00100001#8]) = .ok (.nibrec 2#4 1#4) := by decide
/-- DX4's first record, `02 05`. -/
theorem test_decode_byterec :
    decode .byterec (.bytes [0b00000010#8, 0b00000101#8]) = .ok (.byterec 2#8 5#8) := by decide
/-- PK2's output, `83 07`. -/
theorem test_decode_repeat :
    decode .packseg (.bytes [0b10000011#8, 0b00000111#8]) = .ok (.packsegRepeat 3#7 7#8) := by decide
theorem test_decode_literal : decode .packseg (.bytes [0b00000011#8]) = .ok (.packsegLiteral 3#7) := by decide
/-- PK4's info byte, `40`. -/
theorem test_decode_info : decode .stagea (.bytes [0b01000000#8]) = .ok (.stageaInfo 0x40#8) := by decide
/-- CD6, CD7, CD8, CD10, CD11, CD13, CD14. -/
theorem test_decode_illegal :
    [0x00#32, 0x13#32, 0x01#32, 0x28#32, 0x31#32, 0x58#32, 0x80000011#32].map decodeCommand =
      [.error .badWidth, .error .badWidth, .error .uncompressed, .error .uncompressed,
        .error .misplacedStrategy, .error .reservedBits, .error .reservedBits] := by decide
/-- DX10, DX11, DX13: reserved and truncated control bytes. -/
theorem test_decode_reserved :
    [[0x00#8, 5#8], [0x80#8, 5#8], [0x83#8]].map (decodeRecord .packseg) =
      [.error .reservedCount, .error .reservedCount, .error .truncated] := by decide
theorem test_decode_table_word :
    decodeTableWord 32 0x38 = some .encA8 ∧ decodeTableWord 8 0x03 = some (.packsegLiteral 3#7) ∧
      decodeTableWord 8 0x85 = some (.packsegRepeat 5#7 0#8) ∧
      decodeTableWord 16 0x0783 = some (.packsegRepeat 3#7 7#8) ∧
      decodeTableWord 16 0x0502 = some (.byterec 2#8 5#8) ∧ decodeTableWord 32 0x13 = none := by decide

/-! ### The commands -/

/-- NB1. -/
theorem test_encN1 :
    seen (exec .encN1 ((loaded [0xE5#8] 8).accept 0x11#32)) =
      some (0x02#32, 5#32, 0#32, [0x21#8, 0x10#8, 0x01#8, 0x00#8, 0x01#8], []) := by decide +kernel
/-- NB7: 17 equal samples, 15 then 0. -/
theorem test_encN1_cap :
    seen (exec .encN1 ((loaded [0xFF#8, 0xFF#8, 0x80#8] 17).accept 0x11#32)) =
      some (0x02#32, 2#32, 0#32, [0xF1#8, 0x01#8], []) := by decide +kernel
/-- NB4: a run across a byte boundary. -/
theorem test_encN2 :
    seen (exec .encN2 ((loaded [0xAA#8, 0xAB#8] 8).accept 0x12#32)) =
      some (0x02#32, 2#32, 0#32, [0x62#8, 0x03#8], []) := by decide +kernel
/-- NB18: a partial trailing group. -/
theorem test_encN4 :
    seen (exec .encN4 ((loaded [0xAB#8, 0xCD#8] 3).accept 0x14#32)) =
      some (0x02#32, 3#32, 0#32, [0x0A#8, 0x0B#8, 0x0C#8], []) := by decide +kernel
/-- BY10. -/
theorem test_encB8 :
    seen (exec .encB8 ((loaded [0#8, 0#8, 0#8, 0#8, 0xFF#8] 5).accept 0x18#32)) =
      some (0x02#32, 4#32, 0#32, [0x03#8, 0x00#8, 0x00#8, 0xFF#8], []) := by decide +kernel
/-- BY7: the last sample is counted in its run. -/
theorem test_encB8_last :
    seen (exec .encB8 ((loaded [3#8, 3#8] 2).accept 0x18#32)) =
      some (0x02#32, 2#32, 0#32, [0x01#8, 0x03#8], []) := by decide +kernel
/-- PK4. -/
theorem test_encA8 :
    seen (exec .encA8 ((loaded [1#8, 7#8, 7#8, 7#8, 2#8] 5).accept 0x38#32)) =
      some (0x02#32, 6#32, 5#32, [0x01#8, 0x01#8, 0x83#8, 0x07#8, 0x01#8, 0x02#8],
        [0x40#8, 0x01#8, 0x03#8, 0x07#8, 0x02#8]) := by decide +kernel
/-- PK6: a run unit opens the second batch. -/
theorem test_encA8_batch :
    seen (exec .encA8
        ((loaded [1#8, 2#8, 3#8, 4#8, 5#8, 6#8, 7#8, 8#8, 5#8, 5#8, 5#8] 11).accept 0x38#32)) =
      some (0x02#32, 11#32, 12#32,
        [0x08#8, 1#8, 2#8, 3#8, 4#8, 5#8, 6#8, 7#8, 8#8, 0x83#8, 0x05#8],
        [0x00#8, 1#8, 2#8, 3#8, 4#8, 5#8, 6#8, 7#8, 8#8, 0x80#8, 0x03#8, 0x05#8]) := by decide +kernel

/-! ### The pure functions and the reference decoders -/

/-- PK16, PK20, PK25. -/
theorem test_packEnc :
    packEnc [4#8, 4#8, 4#8, 6#8, 6#8, 6#8, 6#8] = [0x83#8, 4#8, 0x84#8, 6#8] ∧
      packEnc [1#8, 1#8, 2#8, 2#8, 3#8, 3#8, 3#8] = [4#8, 1#8, 1#8, 2#8, 2#8, 0x83#8, 3#8] ∧
      packEnc [0x80#8, 0x80#8, 0x80#8, 0#8, 0x80#8] = [0x83#8, 0x80#8, 2#8, 0#8, 0x80#8] := by decide +kernel
/-- PK11: 256 equal bytes, cut at 255. -/
theorem test_packEnc_256 :
    packEnc (List.replicate 256 0xAA#8) =
      [0xFF#8, 0xAA#8, 0xFF#8, 0xAA#8, 0x81#8, 0xAA#8, 0x01#8, 0xAA#8] := by decide +kernel
/-- BY3. -/
theorem test_byteEnc_257 : byteEnc (List.replicate 257 7#8) = [0xFF#8, 7#8, 0x00#8, 7#8] := by decide +kernel
/-- The `RunLen` examples of part 2. -/
theorem test_runLen :
    runLen [7#8, 7#8, 7#8, 7#8, 2#8] 0 16 = 4 ∧ runLen [7#8, 7#8, 7#8, 7#8, 2#8] 0 3 = 3 ∧
      runLen [7#8, 7#8, 7#8, 7#8, 2#8] 3 16 = 1 ∧ runLen [7#8, 7#8, 7#8, 7#8, 2#8] 4 16 = 1 := by decide
/-- DX1, DX4, DX7, DX12, DX14. -/
theorem test_decoders :
    nibDec [0x21#8, 0x10#8, 0x01#8, 0x00#8, 0x01#8] = some [1#8, 1#8, 1#8, 0#8, 0#8, 1#8, 0#8, 1#8] ∧
      byteDec [2#8, 5#8, 0#8, 9#8] = some [5#8, 5#8, 5#8, 9#8] ∧
      packDec [1#8, 1#8, 0x83#8, 7#8, 1#8, 2#8] = some [1#8, 7#8, 7#8, 7#8, 2#8] ∧
      packDec [3#8, 1#8, 2#8] = none ∧ byteDec [2#8, 5#8, 0#8] = none := by decide +kernel
/-- PK4's output: segments of 1, 3 and 1 samples. -/
theorem test_segmentCounts : segmentCounts [1#8, 1#8, 0x83#8, 7#8, 1#8, 2#8] = [1, 3, 1] := by decide +kernel
/-- AL8: both packing orders. -/
theorem test_sample_orders :
    (loaded [0xE4#8, 0x40#8] 5).input 2 = [3#8, 2#8, 1#8, 0#8, 1#8] ∧
      State.input { loaded [0xE4#8, 0x40#8] 5 with params := { Params.default with packMsbFirst := false } } 2 =
        [0#8, 1#8, 2#8, 3#8, 0#8] := by decide +kernel

/-! ### The records, one small state each -/

theorem test_nibrec :
    field (fun t => (t.dst, t.out, t.pos)) (exec (.nibrec 4#4 1#4) State.reset) = some ([(0, 0x41#8)], 1, 5) := by
  decide
theorem test_byterec :
    field (fun t => (t.dst, t.out, t.pos)) (exec (.byterec 255#8 7#8) State.reset) =
      some ([(0, 0xFF#8), (1, 7#8)], 2, 256) := by decide
theorem test_packsegRepeat :
    field (fun t => (t.dst, t.out)) (exec (.packsegRepeat 3#7 7#8) State.reset) =
      some ([(0, 0x83#8), (1, 7#8)], 2) := by decide
/-- Step 23 of PK4's trace: the placeholder at `hdr = 4` becomes 01. -/
theorem test_packsegLiteral :
    field (fun t => (t.dst, t.out, t.mode)) (exec (.packsegLiteral 1#7)
      { State.reset with dst := [(4, 0#8), (5, 2#8)], hdr := 4, out := 6, mode := .lit }) =
      some ([(4, 1#8), (5, 2#8)], 6, .none) := by decide
/-- Step 15 of PK4's trace. -/
theorem test_stageaInfo :
    field (fun t => (t.info, t.a, t.k)) (exec (.stageaInfo 0x40#8) { State.reset with k := 8 }) =
      some (0x40#8, 1, 0) := by decide
theorem test_record_overrun :
    field State.out (exec (.nibrec 0#4 0#4) { State.reset with out := 33554430 }) = none := by decide

/-! ### The step, the host and the schedule -/

/-- CD7: an illegal word as the first instruction after reset. -/
theorem test_step_illegal :
    seen (step (State.reset.withFetchWord 32 0x13)) = some (0x12#32, 0#32, 0#32, [], []) := by decide +kernel
/-- CD16: one sample too many. -/
theorem test_step_overlong :
    seen (step ((loaded [] 16777216).withFetchWord 32 0x18)) = some (0x22#32, 0#32, 0#32, [], []) := by
  decide +kernel
/-- CD17: the illegal word comes first. -/
theorem test_step_priority :
    seen (step ((loaded [] 16777216).withFetchWord 32 0x13)) = some (0x12#32, 0#32, 0#32, [], []) := by
  decide +kernel
/-- CD19. -/
theorem test_step_first_after_reset :
    seen (step (State.reset.withFetchWord 32 0x38)) = some (0x02#32, 0#32, 0#32, [], []) := by decide +kernel
theorem test_step_record_after_reset :
    field State.dst (step (State.reset.withFetchWord 8 0x83)) = some [(0, 0x83#8), (1, 0#8)] := by decide +kernel
/-- G1 of part 9, its `STATUS` read too early once. -/
theorem test_program_g1 :
    field (fun t => (t.rdata, t.status, t.outlen)) (play 20 { State.reset with
      turns := wsrc 0 [0xFF#8, 0xFF#8, 0x80#8] ++ wlen 17#32 ++ enc .encN1 ++ wait 1 ++ rdst 0 }) =
      some (0xF1#32, 0x02#32, 2#32) := by decide +kernel
/-- G5 (a): the writes that come while BUSY are ignored. -/
theorem test_program_g5 :
    field (fun t => (t.lenReg, t.cmd, t.outlen, t.src)) (play 20 { loaded [0xAA#8, 0xAB#8] 8 with
      turns := enc .encN2 ++ [.engine, .engine] ++ wsrc 0 [0#8] ++ wlen 4#32 ++ wcmd 0x13#32 ++ wait 0 }) =
      some (8#32, 0x12#32, 2#32, [(0, 0xAA#8), (1, 0xAB#8)]) := by decide +kernel
/-- Step 8 of NB14's trace, taken in single engine turns. -/
theorem test_trace_nb14 :
    field (fun t => (t.fsm, t.pos, t.out, t.dst)) (play 20 { loaded [0xF8#8] 5 with
      turns := enc .encN1 ++ List.replicate 8 .engine }) = some (.nHead, 5, 1, [(0, 0x41#8)]) := by decide +kernel
/-- HC9: a command after an error clears it. -/
theorem test_accept_clears_error :
    field State.status (step { State.reset.raise .invalidInput with turns := wcmd 0x11#32 }) =
      some 0x01#32 := by decide

/-! ### Witnesses: each statement's hypotheses can be met -/

/-- Reset, busy at a value of `fsm`, with one engine turn to come. -/
def at_ (f : Fsm) : State := { State.reset with fsm := f, status := 0x01#32, turns := [.engine] }

theorem witness_DecodeOfEncode : Instr.wf (.packsegRepeat 127#7 0#8) = true ∧ Instr.wf (.packsegLiteral 1#7) = true := by
  decide
theorem witness_EncodeOfDecode : decode .packseg (.bytes [0x81#8, 0#8]) = .ok (.packsegRepeat 1#7 0#8) := by decide
theorem witness_StepRunsTheDecodedCommand :
    let s : State := { State.reset with fsm := .decode, cmd := 0x11#32 }
    s.turns = [] ∧ s.fsm = .decode ∧ decodeCommand s.cmd = .ok .encN1 ∧ Instr.encN1.format = .cmd32 := by decide
theorem witness_StepRunsTheRecord :
    (at_ .nEmit).turns = .engine :: [] ∧ (at_ .nEmit).fsm = .nEmit ∧ (at_ .bEmit).fsm = .bEmit ∧
      (let s : State := { at_ .pAwait with tmplen := 1#32, k := 8 };
        s.fsm = .pAwait ∧ s.a < s.tmplen.toNat ∧ s.a < s.params.tmpBytes ∧ s.k = 8) ∧
      (let s : State := { at_ .pOvf with rc := 127 };
        s.fsm = .pOvf ∧ 127 ≤ s.rc) ∧
      (let s : State := { at_ .pEnd with mode := .run, rc := 1 };
        s.fsm = .pEnd ∧ s.mode = .run ∧ (1#7 : BitVec 7) ≠ 0#7 ∧ s.rc = (1#7 : BitVec 7).toNat) ∧
      (let s : State := { at_ .pEnd with mode := .lit, lc := 127 };
        s.fsm = .pEnd ∧ s.mode = .lit ∧ (127#7 : BitVec 7) ≠ 0#7 ∧ s.lc = (127#7 : BitVec 7).toNat) := by decide
theorem witness_CommandAcceptance :
    let s : State := { State.reset with turns := [.host (.regWrite 0 0x13#32)] }
    s.turns = .host (.regWrite 0 0x13#32) :: [] ∧ s.fsm = .idle ∧ ({ s with fsm := .nScan } : State).fsm ≠ .idle := by
  decide
theorem witness_IllegalWordEntersError :
    let s : State := { State.reset with fsm := .decode, cmd := 0x13#32 }
    s.turns = [] ∧ s.fsm = .decode ∧ decodeCommand s.cmd = .error .badWidth := by decide
theorem witness_OverlongStreamEntersError :
    Instr.encN4.format = .cmd32 ∧ ({ State.reset with n := 16777216 } : State).params.nmax < 16777216 := by decide
theorem witness_DispatchGoesToTheEncoder :
    (let s : State := { at_ .decode with cmd := 0x14#32, n := 16777215 };
      s.turns = .engine :: [] ∧ s.fsm = .decode ∧ decodeCommand s.cmd = .ok .encN4 ∧ s.n ≤ s.params.nmax) ∧
    (let s : State := { at_ .decode with cmd := 0x18#32 };
      decodeCommand s.cmd = .ok .encB8 ∧ s.n ≤ s.params.nmax) ∧
    (let s : State := { at_ .decode with cmd := 0x38#32 };
      decodeCommand s.cmd = .ok .encA8 ∧ s.n ≤ s.params.nmax) := by decide
theorem witness_HostMovesTable :
    State.reset.fsm = .idle ∧ (at_ .nScan).fsm ≠ .idle ∧ 16777214 < State.reset.params.srcBytes ∧
      State.reset.params.srcBytes ≤ 16777215 ∧
      (let s : State := { State.reset with status := 0x02#32, outlen := 1#32 };
        0 < s.params.dstBytes ∧ s.fsm = .idle ∧ s.doneBit = true ∧ s.errField = 0#3 ∧ 0 < s.outlen.toNat ∧
          s.outlen.toNat ≤ 1) ∧
      State.reset.doneBit = false ∧ (State.reset.raise .invalidInput).errField ≠ 0#3 ∧
      State.reset.params.dstBytes ≤ 33554430 := by decide
theorem witness_WritesWhileBusyAreIgnored : (at_ .pUnit).fsm ≠ .idle := by decide
theorem witness_ResultsAreStable :
    let s : State := { State.reset with status := 0x02#32, turns := [.host (.regWrite 1 5#32)] }
    s.fsm = .idle ∧ s.turns = .host (.regWrite 1 5#32) :: [] ∧ HostMove.regWrite 1 5#32 ≠ .reset ∧
      ∀ c : Word, HostMove.regWrite 1 5#32 ≠ .regWrite 0 c := by
  refine ⟨rfl, rfl, nofun, nofun⟩
theorem witness_ResetFromAnyState :
    ({ at_ .pUnit with turns := [.host .reset] } : State).turns = .host .reset :: [] := by decide
theorem witness_HostMovesDuringAnOperationDoNotTouchIt :
    (at_ .finish).fsm ≠ .idle ∧ HostMove.dstRead 0 ≠ .reset ∧
      ∃ t, step { at_ .finish with turns := [.operation] } = .next t := ⟨by decide, by decide, _, rfl⟩
theorem witness_OneTransitionEqualsManySteps :
    let s : State := { (loaded [0xE5#8] 8).accept 0x11#32 with turns := [] }
    s.fsm ≠ .idle ∧ (s.fsm = .decode → s.w = cmdBW s.cmd) ∧
      field State.fsm (step { s with turns := [.operation] }) = some .idle := by decide +kernel
theorem witness_NibrecStores : State.reset.out < State.reset.params.dstBytes := by decide
theorem witness_ByterecStores : State.reset.out + 1 < State.reset.params.dstBytes := by decide
theorem witness_SegmentsStore :
    (1#7 : BitVec 7) ≠ 0#7 ∧ (127#7 : BitVec 7) ≠ 0#7 ∧ State.reset.out + 1 < State.reset.params.dstBytes ∧
      State.reset.hdr < State.reset.params.dstBytes := by decide
theorem witness_RecordFrames :
    (∃ t, exec (.nibrec 1#4 1#4) State.reset = .next t) ∧ (∃ t, exec (.byterec 1#8 1#8) State.reset = .next t) ∧
      (∃ t, exec (.packsegRepeat 1#7 1#8) State.reset = .next t) ∧
      (∃ t, exec (.packsegLiteral 1#7) State.reset = .next t) ∧
      ∃ t, exec (.stageaInfo 1#8) State.reset = .next t := ⟨⟨_, rfl⟩, ⟨_, rfl⟩, ⟨_, rfl⟩, ⟨_, rfl⟩, ⟨_, rfl⟩⟩
theorem witness_CommandsEncode :
    (loaded [0xE5#8] 16777215).params.ok ∧
      (loaded [0xE5#8] 16777215).lenReg.toNat ≤ (loaded [0xE5#8] 16777215).params.nmax := by decide
theorem witness_OperationSummary : State.reset.params.ok ∧ decodeCommand 0x18#32 = .ok .encB8 ∧
    decodeCommand 0x28#32 = .error .uncompressed ∧ State.reset.params.nmax < (loaded [] 16777216).lenReg.toNat := by
  decide
theorem witness_EmptyStreamSucceeds : State.reset.lenReg = 0#32 ∧ decodeCommand 0x38#32 = .ok .encA8 := by decide
theorem witness_CommandFrame :
    Instr.encA8.format = .cmd32 ∧ field State.fsm (exec .encA8 ((loaded [1#8] 1).accept 0x38#32)) = some .idle := by
  decide +kernel
theorem witness_NibbleAndByteFootprint :
    (loaded [1#8] 1).params.ok ∧ decodeCommand 0x18#32 = .ok .encB8 ∧ Instr.encB8 ≠ .encA8 ∧
      field State.fsm (exec .encB8 ((loaded [1#8] 1).accept 0x18#32)) = some .idle := by decide +kernel
theorem witness_PackFootprint :
    (loaded [1#8] 1).params.ok ∧ field State.outlen (exec .encA8 ((loaded [1#8] 1).accept 0x38#32)) = some 2#32 := by
  decide +kernel
/-- Two states that differ past the stream: 5 samples of 1 bit lie in byte 0. -/
theorem witness_ResultDependsOnTheInputAlone :
    let s := loaded [0xF8#8, 0x00#8] 5
    let u := loaded [0xF8#8, 0xFF#8] 5
    s.params.ok ∧ u.params = s.params ∧ u.lenReg = s.lenReg ∧
      ∀ g, g < (s.lenReg.toNat * cmdBW 0x11#32 + 7) / 8 → u.byteAt .src g = s.byteAt .src g := by decide +kernel
theorem witness_OperationTerminates :
    State.reset.params.ok ∧ (∃ e, decodeCommand 0x13#32 = .error e) ∧
      State.reset.params.nmax < (loaded [] 16777216).lenReg.toNat := ⟨by decide, ⟨_, rfl⟩, by decide⟩
theorem witness_SampleBits : ((8 : Nat) = 1 ∨ (8 : Nat) = 2 ∨ (8 : Nat) = 4 ∨ (8 : Nat) = 8) ∧ 7 < 8 := by decide
/-- AL4 and AL5: the three padding bits differ. -/
theorem witness_PaddingBitsAreNeverRead :
    let s := loaded [0xF8#8] 5
    let u := loaded [0xFF#8] 5
    u.params = s.params ∧ ∀ p, p < 5 * 1 →
      (u.byteAt .src (p / 8)).getLsbD (if s.params.packMsbFirst ∧ 1 ≠ 8 then 7 - p % 8 else p % 8) =
        (s.byteAt .src (p / 8)).getLsbD (if s.params.packMsbFirst ∧ 1 ≠ 8 then 7 - p % 8 else p % 8) := by
  decide +kernel
/-- A run that ends before the cap and the list's end: every clause's premises hold at once. -/
theorem witness_RunLenIsTheLongestRun :
    let S := [7#8, 7#8, 7#8, 7#8, 2#8]
    0 < S.length ∧ 1 ≤ 16 ∧ runLen S 0 16 < 16 ∧ 0 + runLen S 0 16 < S.length ∧ 2 ≤ runLen S 0 16 := by decide
theorem witness_NibbleMachineAgrees :
    let s : State := { loaded [0xE5#8] 8 with n := 8, w := 1, fsm := .nHead }
    s.params.ok ∧ s.n ≤ s.params.nmax ∧ (s.w = 1 ∨ s.w = 2 ∨ s.w = 4) ∧ s.gv = false ∧ s.fsm = .nHead ∧
      s.pos = 0 ∧ s.out = 0 := by decide
theorem witness_ByteMachineAgrees :
    let s : State := { loaded [0xE5#8] 1 with n := 1, w := 8, fsm := .bHead }
    s.params.ok ∧ s.n ≤ s.params.nmax ∧ s.w = 8 ∧ s.gv = false ∧ s.fsm = .bHead ∧ s.pos = 0 ∧ s.out = 0 := by decide
theorem witness_StageAMachineAgrees :
    let s : State := { loaded [0xE5#8] 1 with n := 1, w := 8, fsm := .aHead }
    s.params.ok ∧ s.n ≤ s.params.nmax ∧ s.w = 8 ∧ s.gv = false ∧ s.fsm = .aHead ∧ s.pos = 0 ∧ s.t = 0 ∧ s.k = 0 := by
  decide
/-- PK4's buffer. -/
theorem witness_StageBMachineAgrees :
    let S := [1#8, 7#8, 7#8, 7#8, 2#8]
    let s : State := { State.reset with
      n := 5, tmplen := 5#32, tmp := [(0, 0x40#8), (1, 1#8), (2, 3#8), (3, 7#8), (4, 2#8)], fsm := .pAwait, k := 8 }
    s.params.ok ∧ s.n ≤ s.params.nmax ∧ S.length = s.n ∧ s.stageABuffer = stageA S ∧
      parseA s.stageABuffer = some [.lit 1#8, .run 3 7#8, .lit 2#8] ∧ s.fsm = .pAwait ∧ s.a = 0 ∧ s.k = 8 ∧
      s.mode = .none ∧ s.rc = 0 ∧ s.lc = 0 ∧ s.out = 0 := by decide +kernel
theorem witness_NibbleSamples :
    ((2 : Nat) = 1 ∨ (2 : Nat) = 2 ∨ (2 : Nat) = 4) ∧ ∀ x ∈ [0#8, 3#8], x.toNat < 2 ^ 2 := by decide
/-- A list with no two adjacent samples equal, and so no three. -/
theorem witness_OutputSize :
    (∀ j, j + 1 < [1#8, 2#8, 1#8].length → [1#8, 2#8, 1#8][j]? ≠ [1#8, 2#8, 1#8][j + 1]?) ∧
      ∀ j, j + 2 < [1#8, 2#8, 1#8].length →
        ¬([1#8, 2#8, 1#8][j]? = [1#8, 2#8, 1#8][j + 1]? ∧ [1#8, 2#8, 1#8][j + 1]? = [1#8, 2#8, 1#8][j + 2]?) := by
  constructor
  · intro j hj
    have hj : j < 2 := by have h : j + 1 < 3 := hj; omega
    interval_cases j <;> simp
  · intro j hj
    have hj : j < 1 := by have h : j + 2 < 3 := hj; omega
    interval_cases j
    simp
theorem witness_HardwareOutputDecodes :
    (loaded [0x1B#8] 1).params.ok ∧ (loaded [0x1B#8] 1).lenReg.toNat ≤ (loaded [0x1B#8] 1).params.nmax ∧
      field State.fsm (exec .encN2 ((loaded [0x1B#8] 1).accept 0x12#32)) = some .idle := by decide +kernel
theorem witness_StepKeeps :
    State.reset.BuffersWf ∧ (∃ t, step State.reset = .next t) :=
  ⟨⟨⟨by simp [State.reset], by simp [State.reset]⟩, ⟨by simp [State.reset], by simp [State.reset]⟩,
    ⟨by simp [State.reset], by simp [State.reset]⟩⟩, ⟨_, rfl⟩⟩
theorem witness_StepKeepsStatus : (at_ .nScan).StatusOk := by simp [State.StatusOk, at_, State.reset]
/-- Bounds met in the middle of a run: 8 samples, 3 counted. -/
theorem witness_StepKeepsBounds :
    ({ State.reset with fsm := .nScan, n := 8, w := 1, len := 2 } : State).BoundsOk := by
  refine ⟨by decide, ?_⟩
  simp [State.NibBounds, State.reset, Params.default]
/-- And inside PK4's trace: Stage A after its step 9, Stage B after its step 15. -/
theorem witness_StepKeepsBounds_packer :
    ({ State.reset with
      fsm := .aHead, n := 5, w := 8, pos := 4, k := 2, t := 4, info := 0x40#8
      tmp := [(0, 0#8), (1, 1#8), (2, 3#8), (3, 7#8)] } : State).BoundsOk ∧
    ({ State.reset with
      fsm := .pUnit, n := 5, tmplen := 5#32, tmp := [(0, 0x40#8), (1, 1#8), (2, 3#8), (3, 7#8), (4, 2#8)], a := 1
      info := 0x40#8 } : State).BoundsOk :=
  ⟨⟨by decide, by decide, rfl, by decide, by decide, [], [.lit 1#8, .run 3 7#8], rfl, rfl, by decide,
      by simp [AUnit.fits],
      by decide, by decide, fun _ => by decide⟩,
    ⟨by decide, ⟨by decide, by decide, by decide, by decide, nofun,
      [.lit 1#8, .run 3 7#8, .lit 2#8], by decide, by decide⟩, by decide, by decide, by decide⟩⟩
theorem witness_EngineKeepsItsInputs :
    (at_ .finish).turns = .engine :: [] ∧ field State.fsm (step (at_ .finish)) = some .idle := by decide +kernel
/-- Each clause of the nibble steps, at the caps' edges. -/
theorem witness_NibbleSteps :
    (let s : State := { at_ .nHead with w := 1 };
      (s.gv = true → s.grp = s.byteAt .src s.gidx) ∧ s.n ≤ s.params.srcBytes ∧ s.fsm = .nHead ∧ s.n ≤ s.pos) ∧
    (let s : State := { at_ .nHead with w := 1, n := 1 };
      (s.gv = true → s.grp = s.byteAt .src s.gidx) ∧ s.n ≤ s.params.srcBytes ∧ s.pos < s.n) ∧
    (let s : State := { at_ .nScan with w := 1, n := 16, len := 14, cur := 1#8, src := [(1, 0x01#8)] };
      s.len < 15 ∧ s.pos + 1 + s.len < s.n ∧ s.sample s.w (s.pos + 1 + s.len) = s.cur) ∧
    (let s : State := { at_ .nScan with w := 1, n := 17, len := 15 };
      15 ≤ s.len ∧ s.pos + 1 + s.len < s.n) ∧
    (let s : State := { at_ .nEmit with w := 1, len := 15, cur := 15#8 };
      s.len ≤ 15 ∧ s.cur.toNat ≤ 15 ∧ s.out < s.params.dstBytes) := by decide +kernel
/-- A scan of each encoder at its last sample, and at the start of a stream of two. -/
theorem witness_ScansCountTheRun :
    (let s : State := { at_ .nHead with w := 1, n := 2, pos := 1 };
      (s.gv = true → s.grp = s.byteAt .src s.gidx) ∧ s.n ≤ s.params.srcBytes ∧ s.pos < s.n ∧ s.fsm = .nHead) ∧
    (let s : State := { at_ .bHead with w := 8, n := 2 };
      (s.gv = true → s.grp = s.byteAt .src s.gidx) ∧ s.n ≤ s.params.srcBytes ∧ s.pos < s.n ∧ s.fsm = .bHead) ∧
    (let s : State := { at_ .aHead with w := 8, n := 2, pos := 1 };
      (s.gv = true → s.grp = s.byteAt .src s.gidx) ∧ s.n ≤ s.params.srcBytes ∧ s.pos < s.n ∧ s.fsm = .aHead) := by
  decide
theorem witness_ByteEmitStep :
    let s : State := { at_ .bEmit with len := 255 }
    s.turns = .engine :: [] ∧ s.fsm = .bEmit ∧ s.len ≤ 255 ∧ s.out + 1 < s.params.dstBytes := by decide
theorem witness_StageBSteps :
    (let s : State := at_ .pAwait;
      s.turns = .engine :: [] ∧ s.fsm = .pAwait ∧ s.tmplen.toNat ≤ s.a) ∧
    (let s : State := { at_ .pAwait with tmplen := 1#32, k := 8 };
      s.a < s.tmplen.toNat ∧ s.k = 8 ∧ s.a < s.params.tmpBytes) ∧
    (let s : State := { at_ .pAwait with tmplen := 1#32, k := 7 };
      s.a < s.tmplen.toNat ∧ s.k ≠ 8) ∧
    (let s : State := { at_ .pUnit with info := 0x01#8, k := 7, tmp := [(0, 3#8), (1, 9#8)] };
      s.fsm = .pUnit ∧ s.k < 8 ∧ s.info.getLsbD (7 - s.k) = true ∧ s.a + 1 < s.params.tmpBytes ∧ s.mode = .none ∧
        s.rv ≠ s.byteAt .tmp (s.a + 1) ∧ ({ s with rv := 9#8 } : State).rv = s.byteAt .tmp (s.a + 1) ∧
          s.hdr < s.params.dstBytes ∧ s.out + 1 < s.params.dstBytes) ∧
    (let s : State := { at_ .pUnit with info := 0x7F#8, lc := 126, mode := .lit };
      s.fsm = .pUnit ∧ s.k < 8 ∧ s.info.getLsbD (7 - s.k) = false ∧ s.a < s.params.tmpBytes ∧ s.mode = .lit ∧
        s.lc = 126 ∧ s.hdr < s.params.dstBytes ∧ s.out + 3 < s.params.dstBytes) ∧
    (let s : State := { at_ .pOvf with rc := 127 };
      s.fsm = .pOvf ∧ 127 ≤ s.rc ∧ s.out + 1 < s.params.dstBytes) ∧
    ({ at_ .pOvf with rc := 126 } : State).rc < 127 ∧
    (let s : State := { at_ .pEnd with mode := .run, rc := 126 };
      s.fsm = .pEnd ∧ s.mode = .run ∧ 0 < s.rc ∧ s.rc ≤ 126 ∧ s.out + 1 < s.params.dstBytes) ∧
    (let s : State := { at_ .pEnd with mode := .run };
      s.mode = .run ∧ s.rc = 0) ∧
    (let s : State := { at_ .pEnd with mode := .lit, lc := 127 };
      s.mode = .lit ∧ s.hdr < s.params.dstBytes) ∧
    (at_ .pEnd).mode = .none := by decide
theorem witness_FinishStep : (at_ .finish).turns = .engine :: [] ∧ (at_ .finish).fsm = .finish := by decide

end Sys2Proof.Tests
end

namespace Sys2Proof.Machine

/-! ### What a step can do, said once -/

/-- What a host move can do to the block: it reads, by which only the value read and the draw count change; on an
idle block it writes `CMD`, `LEN` or a byte of SRC (R212); or it resets (R270). -/
inductive HostEffect (s : State) : State → Prop
  | read (rdata : Word) (draws : Nat) : HostEffect s { s with rdata := rdata, draws := draws }
  | accept (c : Word) (idle : s.fsm = .idle) : HostEffect s (s.accept c)
  | writeLen (v : Word) (idle : s.fsm = .idle) : HostEffect s { s with lenReg := v }
  | writeSrc (i : Nat) (b : Byte) (idle : s.fsm = .idle) (room : i < s.params.srcBytes) :
      HostEffect s { s with src := Memory.write s.src i b }
  | reset : HostEffect s s.afterReset

/-- A host move that is ignored is a read of nothing new. -/
theorem HostEffect.ignored (s : State) : HostEffect s s := .read s.rdata s.draws

theorem idle_of_not_busy {s : State} (h : ¬s.busy = true) : s.fsm = .idle := by simpa [State.busy] using h

theorem hostMove_effect (m : HostMove) (s : State) : HostEffect s (hostMove m s) := by
  cases m with
  | regRead n =>
    show HostEffect s (s.regRead n)
    unfold State.regRead
    split
    · exact .read _ _
    · exact .read _ _
    · exact .read _ _
    · split <;> exact .read _ _
    · split <;> exact .read _ _
    · exact .read _ _
  | regWrite n v =>
    show HostEffect s (s.regWrite n v)
    unfold State.regWrite
    split
    · exact .ignored s
    · rename_i hbusy
      split
      · exact .accept v (idle_of_not_busy hbusy)
      · exact .writeLen v (idle_of_not_busy hbusy)
      · exact .ignored s
  | srcWrite i b =>
    show HostEffect s (s.srcWrite i b)
    unfold State.srcWrite
    split
    · rename_i h
      exact .writeSrc i b (idle_of_not_busy (by simp [h.1])) h.2
    · exact .ignored s
  | srcRead i =>
    show HostEffect s (s.srcRead i)
    unfold State.srcRead
    split <;> exact .read _ _
  | dstRead i =>
    show HostEffect s (s.dstRead i)
    unfold State.dstRead
    split <;> exact .read _ _
  | reset => exact .reset

/-- What the host's moves, the engine's steps and the rest of an operation keep, every step keeps, where the
schedule does not matter to it. -/
theorem step_keeps {P : State → Prop} (hturns : ∀ s ts, P s → P { s with turns := ts })
    (hhost : ∀ m s, P s → P (hostMove m s)) (hengine : ∀ s t, P s → engineStep s = .next t → P t)
    (hrest : ∀ s t, P s → runOperation s = .next t → P t) {s t : State} (hs : P s) (h : step s = .next t) : P t := by
  unfold step nextTurn at h
  split at h
  · exact hrest s t hs h
  · rename_i turn ts _
    have hs' := hturns s ts hs
    cases turn with
    | host m =>
      cases h
      exact hhost m _ hs'
    | engine => exact hengine _ t hs' h
    | operation => exact hrest _ t hs' h

/-- The five commands a word can stand for, and the width it names for each (R72). -/
theorem decodeCommand_cases {c : Word} {i : Instr} (h : decodeCommand c = .ok i) :
    (i = .encN1 ∧ cmdBW c = 1) ∨ (i = .encN2 ∧ cmdBW c = 2) ∨ (i = .encN4 ∧ cmdBW c = 4) ∨
      (i = .encB8 ∧ cmdBW c = 8) ∨ (i = .encA8 ∧ cmdBW c = 8) := by
  simp only [decodeCommand] at h
  repeat' split at h
  all_goals cases h
  all_goals simp_all

/-- A decoded command's meaning is the length check (R204), then the encoder's run from its head (R205) at the
word's own width. -/
theorem exec_of_decodeCommand {c : Word} {i : Instr} (h : decodeCommand c = .ok i) (s : State) :
    exec i s = operate (cmdBW c) (headOf i) s := by
  rcases decodeCommand_cases h with ⟨rfl, hw⟩ | ⟨rfl, hw⟩ | ⟨rfl, hw⟩ | ⟨rfl, hw⟩ | ⟨rfl, hw⟩ <;> rw [hw] <;> rfl

/-- In `DECODE` the engine's step and the whole operation begin alike: both take the same error entry (R202,
R204), or the operation is a run from where the step dispatches to (R205). -/
theorem decode_cases {s : State} (h : s.fsm = .decode) :
    (∃ e, (e = .unsupportedFormat ∨ e = .invalidInput) ∧ engineStep s = .next (s.raise e) ∧
        runOperation s = .next (s.raise e)) ∨
      ∃ i, decodeCommand s.cmd = .ok i ∧ s.n ≤ s.params.nmax ∧ engineStep s = .next { s with fsm := headOf i } ∧
        runOperation s = runEngine (stepBound s.n) { s with w := cmdBW s.cmd, fsm := headOf i } := by
  simp only [engineStep, runOperation, stepDecode, h, if_true]
  cases hi : decodeCommand s.cmd with
  | error e => exact .inl ⟨.unsupportedFormat, .inl rfl, rfl, rfl⟩
  | ok i =>
    simp only [exec_of_decodeCommand hi, operate]
    by_cases hn : s.params.nmax < s.n
    · simp only [if_pos hn]
      exact .inl ⟨.invalidInput, .inr rfl, rfl, rfl⟩
    · simp only [if_neg hn]
      exact .inr ⟨i, rfl, Nat.le_of_not_lt hn, rfl, rfl⟩

/-- With the accepted word's width latched (R200), the whole operation is a run of engine steps from `DECODE`. -/
theorem runOperation_of_decode {s : State} (h : s.fsm = .decode) (hw : s.w = cmdBW s.cmd) :
    runOperation s = runEngine (stepBound s.n + 1) s := by
  rw [runEngine, if_neg (by simp [h])]
  rcases decode_cases h with ⟨e, _, he, hr⟩ | ⟨i, _, _, he, hr⟩
  · rw [he, hr, andThen_of_next, runEngine_idle _ (State.raise_fsm s e)]
  · rw [he, hr, andThen_of_next, ← hw]

/-! ### STATUS (R13, R20) -/

theorem HostEffect.statusOk {s t : State} (h : HostEffect s t) (hs : s.StatusOk) : t.StatusOk := by
  cases h with
  | read => exact hs
  | accept => simp [State.StatusOk, statusWord, ErrCode.code]
  | writeLen => exact hs
  | writeSrc => exact hs
  | reset => simp [State.StatusOk]

theorem statusOk_raise (s : State) {e : ErrCode} (he : e = .unsupportedFormat ∨ e = .invalidInput) :
    (s.raise e).StatusOk := by
  rcases he with rfl | rfl <;> simp [State.StatusOk, statusWord, ErrCode.code]

theorem statusOk_complete (s : State) : s.complete.StatusOk := by
  simp [State.StatusOk, statusWord, ErrCode.code]

/-- A busy block that stays busy keeps its `STATUS`. -/
theorem statusOk_of_busy {s t : State} (hs : s.StatusOk) (hb : s.fsm ≠ .idle) (hstatus : t.status = s.status)
    (ht : t.fsm ≠ .idle) : t.StatusOk := by
  have h1 : t.status = 0x01#32 := hstatus.trans (hs.1.mpr hb)
  exact ⟨iff_of_true h1 ht, .inr (.inl h1)⟩

theorem statusOk_engineStep (s t : State) (hs : s.StatusOk) (h : engineStep s = .next t) : t.StatusOk := by
  rcases engineStep_cases h with ⟨_, rfl⟩ | ⟨hb, hwork, ht⟩ | ⟨_, rfl⟩ | ⟨_, rfl | rfl⟩
  · exact hs
  · have hstatus : t.status = s.status := congrArg (fun o => o.2.2.2.2.2.2.2.2.2.2.1) hwork.outer
    exact statusOk_of_busy hs hb hstatus ht
  · exact statusOk_complete s
  · exact statusOk_raise s (.inl rfl)
  · exact statusOk_raise s (.inr rfl)

theorem statusOk_runOperation (s t : State) (hs : s.StatusOk) (h : runOperation s = .next t) : t.StatusOk := by
  by_cases hd : s.fsm = .decode
  · rcases decode_cases hd with ⟨e, he, _, hr⟩ | ⟨i, hi, _, _, hr⟩ <;> rw [hr] at h
    · cases h
      exact statusOk_raise s he
    · have hhead : ({ s with w := cmdBW s.cmd, fsm := headOf i } : State).StatusOk :=
        statusOk_of_busy hs (by simp [hd]) rfl (headOf_ne_idle hi)
      exact runEngine_keeps statusOk_engineStep _ _ t hhead h
  · rw [runOperation, if_neg hd] at h
    exact runEngine_keeps statusOk_engineStep _ s t hs h

/-- Settles O52: the host's moves, the engine's steps and the rest of an operation each keep `STATUS` legal. -/
theorem stepKeepsStatus : Obligations.StepKeepsStatus := fun _ _ =>
  step_keeps (fun _ _ hs => hs) (fun m s hs => (hostMove_effect m s).statusOk hs) statusOk_engineStep statusOk_runOperation

/-- Settles O17, by the definition of `State.reset`. -/
theorem resetValues : Obligations.ResetValues := ⟨rfl, rfl, rfl, rfl, rfl, rfl, rfl⟩

/-- Settles O54: after reset no buffer lists anything, and the engine is idle. -/
theorem resetMeetsTheInvariants : Obligations.ResetMeetsTheInvariants := by
  have empty (cap : Nat) : Memory.wf [] ∧ Memory.within cap [] := ⟨List.Pairwise.nil, nofun⟩
  exact ⟨⟨empty _, empty _, empty _⟩, by simp [State.StatusOk, State.reset], by decide, trivial⟩

end Sys2Proof.Machine

namespace Sys2Proof.Machine

/-! ### R31's bounds, and that under them no step faults

Each engine step is given its total-correctness lemma: from the bounds at its value of `fsm` it answers, and the
state it answers meets the bounds. -/

/-- `o` answers a next state, and that state satisfies `P`. -/
def Answers (P : State → Prop) (o : Out) : Prop := ∃ t, o = .next t ∧ P t

theorem Answers.next {P : State → Prop} {t : State} (h : P t) : Answers P (.next t) := ⟨t, rfl, h⟩

theorem Answers.andThen {P Q : State → Prop} {o : Out} {f : State → Out} (ho : Answers P o)
    (hf : ∀ s, P s → Answers Q (f s)) : Answers Q (andThen o f) := by
  obtain ⟨s, rfl, hs⟩ := ho
  exact hf s hs

theorem Answers.ite {P : State → Prop} {c : Prop} [Decidable c] {o o' : Out} (h : c → Answers P o)
    (h' : ¬c → Answers P o') : Answers P (if c then o else o') := by
  split
  · exact h ‹_›
  · exact h' ‹_›

theorem Answers.withByte {P : State → Prop} {sp : Space} {i : Nat} {s : State} {f : Byte → Out}
    (hi : i < s.params.bytes sp) (h : Answers P (f (s.byteAt sp i))) : Answers P (withByte sp i s f) := by
  rwa [withByte_of_lt hi]

theorem Answers.withSample {P : State → Prop} {i : Nat} {s : State} {f : Byte → State → Out}
    (hi : i < s.params.srcBytes)
    (h : ∀ x grp gidx gv, Answers P (f x { s with grp := grp, gidx := gidx, gv := gv })) :
    Answers P (withSample i s f) := by
  obtain ⟨x, grp, gidx, gv, e⟩ := withSample_total f (Nat.lt_of_le_of_lt (Nat.div_le_self i (samplesPerByte s.w)) hi)
  rw [e]
  exact h x grp gidx gv

theorem Answers.scan {P : State → Prop} {below : Bool} {i : Nat} {x : Byte} {again leave : State → State} {s : State}
    (hi : i < s.n → i < s.params.srcBytes)
    (hleave : ∀ grp gidx gv, P (leave { s with grp := grp, gidx := gidx, gv := gv }))
    (hagain : below = true → i < s.n → ∀ grp gidx gv, P (again { s with grp := grp, gidx := gidx, gv := gv })) :
    Answers P (scan below i x again leave s) := by
  obtain ⟨grp, gidx, gv, h | ⟨hb, hn, h⟩⟩ := scan_total (below := below) (x := x) again leave
    fun h => Nat.lt_of_le_of_lt (Nat.div_le_self i (samplesPerByte s.w)) (hi h)
  · exact ⟨_, h, hleave grp gidx gv⟩
  · exact ⟨_, h, hagain hb hn grp gidx gv⟩

theorem Answers.emit {P : State → Prop} {b : Byte} {s : State} (hroom : s.out < s.params.dstBytes)
    (h : P { s with dst := Memory.write s.dst s.out b, out := s.out + 1 }) : Answers P (emit b s) :=
  ⟨_, emit_of_lt hroom, h⟩

theorem Answers.emitRepeat {P : State → Prop} {c : Nat} {v : Byte} {s : State} (hroom : s.out + 1 < s.params.dstBytes)
    (h : ∀ dst, P { s with dst := dst, out := s.out + 2 }) : Answers P (emitRepeat c v s) :=
  ⟨_, emitRepeat_next.mpr ⟨hroom, rfl⟩, h _⟩

theorem Answers.closeLiteral {P : State → Prop} {c : Nat} {s : State} (hroom : s.hdr < s.params.dstBytes)
    (h : ∀ dst, P { s with dst := dst, mode := .none }) : Answers P (closeLiteral c s) :=
  ⟨_, closeLiteral_next.mpr ⟨hroom, rfl⟩, h _⟩

/-! #### The nibble and the byte encoder -/

theorem stepNHead_bounds {s : State} (hp : s.params.ok) (h : s.NibBounds) : Answers State.BoundsOk (stepNHead s) := by
  obtain ⟨hn, hw, hpos, hout⟩ := h
  refine .ite (fun _ => .next ⟨hp, hn, ?_⟩) fun hlt => .withSample ?_ fun x grp gidx gv => ?_
  · show s.out ≤ 2 * s.n
    omega
  · omega
  · refine .next ⟨hp, ⟨hn, hw, hpos, hout⟩, Nat.zero_le _, ?_⟩
    show s.pos + 0 + 1 ≤ s.n
    omega

theorem stepNScan_bounds {s : State} (hp : s.params.ok) (hf : s.fsm = .nScan) (h : s.NibBounds) (hlen : s.len ≤ 15)
    (hrun : s.pos + s.len + 1 ≤ s.n) : Answers State.BoundsOk (stepNScan s) := by
  refine .scan (by have := h.1; omega) (fun _ _ _ => ⟨hp, h, hlen, hrun⟩) fun hcap hin _ _ _ => ?_
  have hcap : s.len < 15 := by simpa using hcap
  refine ⟨hp, ?_⟩
  simp only [hf]
  refine ⟨h, hcap, ?_⟩
  show s.pos + (s.len + 1) + 1 ≤ s.n
  omega

theorem stepNEmit_bounds {s : State} (hp : s.params.ok) (h : s.NibBounds) (hlen : s.len ≤ 15)
    (hrun : s.pos + s.len + 1 ≤ s.n) : Answers State.BoundsOk (stepNEmit s) := by
  obtain ⟨hn, hw, hpos, hout⟩ := h
  have hnat : (BitVec.ofNat 4 s.len).toNat = s.len := by simp; omega
  refine .andThen (P := fun u => u.params.ok ∧ u.NibBounds) (.andThen (.emit (by omega) (Eq.refl _)) ?_) fun u hu =>
    .next hu
  rintro _ rfl
  refine .next ⟨hp, hn, hw, ?_, ?_⟩ <;> simp only [hnat] <;> omega

theorem stepBHead_bounds {s : State} (hp : s.params.ok) (h : s.ByteBounds) : Answers State.BoundsOk (stepBHead s) := by
  obtain ⟨hn, hw, hpos, hout⟩ := h
  refine .ite (fun _ => .next ⟨hp, hn, ?_⟩) fun hlt => .withSample ?_ fun x grp gidx gv => ?_
  · show s.out ≤ 2 * s.n
    omega
  · omega
  · refine .next ⟨hp, ⟨hn, hw, hpos, hout⟩, Nat.zero_le _, ?_⟩
    show s.pos + 0 + 1 ≤ s.n
    omega

theorem stepBScan_bounds {s : State} (hp : s.params.ok) (hf : s.fsm = .bScan) (h : s.ByteBounds) (hlen : s.len ≤ 255)
    (hrun : s.pos + s.len + 1 ≤ s.n) : Answers State.BoundsOk (stepBScan s) := by
  refine .scan (by have := h.1; omega) (fun _ _ _ => ⟨hp, h, hlen, hrun⟩) fun hcap hin _ _ _ => ?_
  have hcap : s.len < 255 := by simpa using hcap
  refine ⟨hp, ?_⟩
  simp only [hf]
  refine ⟨h, hcap, ?_⟩
  show s.pos + (s.len + 1) + 1 ≤ s.n
  omega

theorem stepBEmit_bounds {s : State} (hp : s.params.ok) (h : s.ByteBounds) (hlen : s.len ≤ 255)
    (hrun : s.pos + s.len + 1 ≤ s.n) : Answers State.BoundsOk (stepBEmit s) := by
  obtain ⟨hn, hw, hpos, hout⟩ := h
  have hnat : (BitVec.ofNat 8 s.len).toNat = s.len := by simp; omega
  refine .andThen (P := fun u => u.params.ok ∧ u.ByteBounds)
    (.andThen (.emit (by omega) (Eq.refl _)) ?_) fun u hu => .next hu
  rintro _ rfl
  refine .andThen (.emit (by simp only; omega) (Eq.refl _)) ?_
  rintro _ rfl
  refine .next ⟨hp, hn, hw, ?_, ?_⟩ <;> simp only [hnat] <;> omega

/-! #### Stage A -/

/-- Stage A's append position leaves room in TMP for the next unit (R161, R167). -/
theorem tmp_room {p : Params} {n pos closed : Nat} (hp : p.ok) (hn : n ≤ p.nmax) (hc : closed ≤ pos) (hpos : pos < n) :
    pos + closed / 8 + 1 < p.tmpBytes ∧ (pos + 3 ≤ n → pos + closed / 8 + 2 < p.tmpBytes) := by omega

theorem stepAHead_bounds {s : State} (hp : s.params.ok) (h : s.StageABounds) :
    Answers State.BoundsOk (stepAHead s) := by
  obtain ⟨hn, hw, hpos, ht, hlaid⟩ := h
  refine .ite (fun hle => .next ⟨hp, ⟨hn, hw, hpos, ht, hlaid⟩, Nat.le_antisymm hpos hle⟩) fun hlt =>
    .withSample (by omega) fun x grp gidx gv => ?_
  exact .next ⟨hp, ⟨hn, hw, hpos, ht, hlaid⟩, Nat.le_refl 1, (by decide : 1 ≤ 255), Nat.lt_of_not_le hlt⟩

theorem stepAScan_bounds {s : State} (hp : s.params.ok) (hf : s.fsm = .aScan) (h : s.StageABounds) (hr : 1 ≤ s.r)
    (hcap : s.r ≤ 255) (hrun : s.pos + s.r ≤ s.n) : Answers State.BoundsOk (stepAScan s) := by
  refine .scan (by have := h.1; omega) (fun _ _ _ => ⟨hp, h, hr, hcap, hrun⟩) fun hbelow hin _ _ _ => ?_
  have hbelow : s.r < 255 := by simpa using hbelow
  refine ⟨hp, ?_⟩
  simp only [hf]
  exact ⟨h, Nat.le_add_left 1 s.r, hbelow, hin⟩

/-- TMP with every batch closed (R161). -/
theorem stageALaid_of_layout {s : State} {us : List AUnit} (hk : s.k = 0) (h8 : us.length % 8 = 0)
    (hfits : ∀ u ∈ us, u.fits) (hsamples : unitSamples us = s.pos) (hbytes : s.bytesOf .tmp s.t = layout us) :
    s.StageALaid :=
  ⟨us, [], h8, hk.symm, by omega, by simpa using hfits, by simpa using hsamples, by simpa [hk] using hbytes, by omega⟩

/-- R165: the eighth unit closes the batch, an earlier one leaves it open; either way TMP holds the units placed. -/
theorem countUnit_laid {s : State} {closed batch : List AUnit} (h : BatchOpen s closed batch)
    (hb : batch.length = s.k + 1) (hk : s.k < 8) (hip : s.ip < s.params.tmpBytes) :
    Answers (fun t => t.StageALaid ∧ (t.params, t.n, t.w, t.pos, t.t) = (s.params, s.n, s.w, s.pos, s.t))
      (countUnit s) := by
  refine .ite (fun h8 => ?_) fun h8 => .next ⟨⟨closed, batch, h.eights, hb, ?_, h.fits, h.samples, ?_, ?_⟩, rfl⟩
  · have hne : batch ≠ [] := List.length_pos_iff.mp (by omega)
    have hlen : (closed ++ batch).length % 8 = 0 := by
      rw [List.length_append]
      have := h.eights
      omega
    rw [bufWrite_of_lt hip, andThen_of_next]
    refine .next ⟨stageALaid_of_layout rfl hlen h.fits h.samples ?_, rfl⟩
    exact bytesOf_backPatch (s := s) h hne (by omega) rfl rfl
  · show s.k + 1 < 8
    omega
  · exact h.bytes
  · exact fun _ => ⟨h.slot, h.kinds⟩

/-- The unit placed does not pass the end of the counted run. -/
theorem unitOf_samples_le {r n pos : Nat} (v : Byte) (hr : 1 ≤ r) (hrun : pos + r ≤ n) :
    pos + (unitOf r v).samples.length ≤ n := by
  unfold unitOf
  split <;> simp only [AUnit.samples, List.length_replicate, List.length_singleton] <;> omega

/-- The bounds of Stage A once the unit just placed is counted (R161, R167). -/
theorem countUnit_bounds {s : State} {closed batch : List AUnit} (hp : s.params.ok) (hn : s.n ≤ s.params.nmax)
    (hw : s.w = 8) (hpos : s.pos ≤ s.n) (h : BatchOpen s closed batch) (hb : batch.length = s.k + 1) (hk : s.k < 8) :
    Answers (fun t => t.params.ok ∧ t.StageABounds) (countUnit s) := by
  obtain ⟨ht, hunits⟩ := h.bounds
  have hip := h.append_position
  obtain ⟨t, hcount, hlaid, hregs⟩ := countUnit_laid h hb hk (by omega)
  simp only [Prod.mk.injEq] at hregs
  obtain ⟨hp', hn', hw', hpos', ht'⟩ := hregs
  have h8 := h.eights
  exact ⟨t, hcount, hp' ▸ hp, by rw [hn', hp']; exact hn, hw'.trans hw, by rw [hpos', hn']; exact hpos, by omega, hlaid⟩

/-- R165: in an open batch the unit is placed and counted, within TMP. -/
theorem placeUnit_bounds {s : State} {closed batch : List AUnit} (hp : s.params.ok) (hn : s.n ≤ s.params.nmax)
    (hw : s.w = 8) (h : BatchOpen s closed batch) (hb : batch.length = s.k) (hk : s.k < 8) (hr : 1 ≤ s.r)
    (hcap : s.r ≤ 255) (hrun : s.pos + s.r ≤ s.n) :
    Answers (fun t => t.params.ok ∧ t.StageABounds) (andThen (placeUnit s) countUnit) := by
  obtain ⟨ht, hunits⟩ := h.bounds
  obtain ⟨hroom, hroom2⟩ := tmp_room (closed := closed.length) (pos := s.pos) hp hn (by omega) (by omega)
  obtain ⟨t, hplace, hopen, hregs, hpos⟩ := placeUnit_laid h hb hcap (by omega) (by omega)
  simp only [Prod.mk.injEq] at hregs
  obtain ⟨hp', hn', hw', hk'⟩ := hregs
  have hlen := unitOf_samples_le s.v hr hrun
  rw [hplace, andThen_of_next]
  exact countUnit_bounds (hp' ▸ hp) (by rw [hn', hp']; exact hn) (hw'.trans hw) (by rw [hpos, hn']; exact hlen) hopen
    (by rw [List.length_append, hb, hk']; rfl) (hk' ▸ hk)

theorem stepAEmit_bounds {s : State} (hp : s.params.ok) (h : s.StageABounds) (hr : 1 ≤ s.r)
    (hcap : s.r ≤ 255) (hrun : s.pos + s.r ≤ s.n) : Answers State.BoundsOk (stepAEmit s) := by
  obtain ⟨hn, hw, hpos, ht, hlaid⟩ := h
  obtain ⟨s1, closed, batch, h1, hopen, hb, hk, hregs⟩ := openBatch_laid (by omega) hlaid
  simp only [Prod.mk.injEq] at hregs
  obtain ⟨hp1, hn1, hw1, hpos1, hr1, -, -⟩ := hregs
  rw [stepAEmit, h1, andThen_of_next, ← andThen_assoc]
  exact (placeUnit_bounds (hp1 ▸ hp) (by rw [hn1, hp1]; exact hn) (hw1.trans hw) hopen hb hk (by omega) (by omega)
    (by omega)).andThen fun _ h => .next h

end Sys2Proof.Machine

namespace Sys2Proof.Machine

/-! #### Stage B -/

/-- The bytes the open repeat stretch may still need: two for each repeat held back (R171). -/
def heldBack (mode : Mode) (rc : Nat) : Nat := if mode = .run then 2 * rc else 0

@[simp] theorem heldBack_none (rc : Nat) : heldBack .none rc = 0 := rfl

@[simp] theorem heldBack_run (rc : Nat) : heldBack .run rc = 2 * rc := rfl

@[simp] theorem heldBack_lit (rc : Nat) : heldBack .lit rc = 0 := rfl

theorem heldBack_of_ne {mode : Mode} (h : mode ≠ .run) (rc : Nat) : heldBack mode rc = 0 := if_neg h

/-- Stage B at work, inside a step too: what `State.StageBBounds` says, with `rest` the units left to read and `due`
more bytes reserved for the unit in hand. A literal segment just opened may still be empty. -/
structure Packing (s : State) (rest : List AUnit) (due : Nat) : Prop where
  ok : s.params.ok
  n_le : s.n ≤ s.params.nmax
  tmplen_le : s.tmplen.toNat ≤ s.n + (s.n + 7) / 8
  a_le : s.a ≤ s.tmplen.toNat
  k_le : s.k ≤ 8
  parse : parseAFrom s.info s.k (s.bytesFrom .tmp s.a (s.tmplen.toNat - s.a)) = some rest
  lit : s.mode = .lit → s.lc ≤ 126 ∧ s.out = s.hdr + 1 + s.lc
  room : s.out + heldBack s.mode s.rc + 2 * unitSamples rest + due ≤ 2 * s.n

theorem Packing.of_stageBBounds {s : State} (hp : s.params.ok) (h : s.StageBBounds) :
    ∃ rest, Packing s rest 0 ∧ (s.mode = .lit → 1 ≤ s.lc) := by
  obtain ⟨hn, htl, ha, hk, hlit, rest, hparse, hroom⟩ := h
  exact ⟨rest, ⟨hp, hn, htl, ha, hk, hparse, fun hm => (hlit hm).2, hroom⟩, fun hm => (hlit hm).1⟩

theorem Packing.stageBBounds {s : State} {rest : List AUnit} {due : Nat} (h : Packing s rest due)
    (hlit : s.mode = .lit → 1 ≤ s.lc) : s.StageBBounds :=
  ⟨h.n_le, h.tmplen_le, h.a_le, h.k_le, fun hm => ⟨hlit hm, h.lit hm⟩, rest, h.parse, Nat.le_of_add_right_le h.room⟩

/-- What Stage B reads: these stay while it emits. -/
def State.reading (s : State) := (s.params, s.n, s.tmplen, s.a, s.k, s.info, s.tmp, s.epoch)

/-- Emitting keeps the units left to read; the open literal segment and the room are to be shown anew. -/
theorem Packing.emitted {s t : State} {rest : List AUnit} {due due' : Nat} (h : Packing s rest due)
    (hsame : t.reading = s.reading) (hlit : t.mode = .lit → t.lc ≤ 126 ∧ t.out = t.hdr + 1 + t.lc)
    (hroom : t.out + heldBack t.mode t.rc + due' ≤ s.out + heldBack s.mode s.rc + due) : Packing t rest due' := by
  simp only [State.reading, Prod.mk.injEq] at hsame
  obtain ⟨hp, hn, htl, ha, hk, hinfo, htmp, hepoch⟩ := hsame
  have hbytes := bytesFrom_of_buf (sp := .tmp) (s := s) (t := t) htmp hepoch s.a (s.tmplen.toNat - s.a)
  have := h.room
  exact ⟨hp ▸ h.ok, by rw [hn, hp]; exact h.n_le, by rw [htl, hn]; exact h.tmplen_le, by rw [ha, htl]; exact h.a_le,
    hk ▸ h.k_le, by rw [hinfo, hk, ha, htl, hbytes]; exact h.parse, hlit, by rw [hn]; omega⟩

theorem Packing.out_le {s : State} {rest : List AUnit} {due : Nat} (h : Packing s rest due) :
    s.out + heldBack s.mode s.rc + due ≤ s.params.dstBytes := by
  have h1 := h.ok
  have h2 := h.n_le
  have h3 := h.room
  omega

theorem Packing.a_lt {s : State} {rest : List AUnit} {due i : Nat} (h : Packing s rest due) (hi : i < s.tmplen.toNat) :
    i < s.params.tmpBytes := by
  have h1 := h.ok
  have h2 := h.n_le
  have h3 := h.tmplen_le
  omega

/-! What the next byte is that Stage B reads (R168, R170-R172). -/

theorem bytesFrom_rest {s : State} {sp : Space} {a n : Nat} (h : a < n) :
    s.bytesFrom sp a (n - a) = s.byteAt sp a :: s.bytesFrom sp (a + 1) (n - (a + 1)) := by
  rw [← bytesFrom_succ]
  congr 1
  omega

/-- With no batch open the next byte is an info byte, and a unit stands behind it. -/
theorem Packing.read_info {s : State} {rest : List AUnit} {due : Nat} (h : Packing s rest due) (hk : s.k = 8)
    (ha : s.a < s.tmplen.toNat) :
    s.a + 1 < s.tmplen.toNat ∧ Packing { s with info := s.byteAt .tmp s.a, a := s.a + 1, k := 0 } rest due := by
  have hparse := h.parse
  rw [bytesFrom_rest ha, hk] at hparse
  have ha1 : s.a + 1 < s.tmplen.toNat := by
    by_contra hlast
    rw [Nat.sub_eq_zero_of_le (Nat.le_of_not_lt hlast), bytesFrom_zero, parseAFrom_info_one] at hparse
    cases hparse
  rw [bytesFrom_rest ha1, parseAFrom_open _ _ (by simp), ← bytesFrom_rest ha1] at hparse
  exact ⟨ha1, h.ok, h.n_le, h.tmplen_le, ha1.le, Nat.zero_le 8, hparse, h.lit, h.room⟩

/-- A run unit is its count and its value. -/
theorem Packing.read_run {s : State} {rest : List AUnit} {due : Nat} (h : Packing s rest due) (hk : s.k < 8)
    (ha : s.a < s.tmplen.toNat) (hbit : s.info.getLsbD (7 - s.k) = true) :
    s.a + 1 < s.tmplen.toNat ∧ ∃ rest', Packing { s with
      r := (s.byteAt .tmp s.a).toNat, v := s.byteAt .tmp (s.a + 1), a := s.a + 2, k := s.k + 1 } rest'
        (due + 2 * (s.byteAt .tmp s.a).toNat) := by
  have hparse := h.parse
  rw [bytesFrom_rest ha] at hparse
  have ha1 : s.a + 1 < s.tmplen.toNat := by
    by_contra hlast
    rw [Nat.sub_eq_zero_of_le (Nat.le_of_not_lt hlast), bytesFrom_zero, parseAFrom_run_one (by omega) hbit] at hparse
    cases hparse
  rw [bytesFrom_rest ha1, parseAFrom_run (by omega) hbit, Option.map_eq_some_iff] at hparse
  obtain ⟨rest', hparse, rfl⟩ := hparse
  have hroom := h.room
  rw [unitSamples_run] at hroom
  refine ⟨ha1, rest', h.ok, h.n_le, h.tmplen_le, ha1, hk, hparse, h.lit, ?_⟩
  show s.out + heldBack s.mode s.rc + _ + _ ≤ 2 * s.n
  omega

/-- A literal unit is its sample. -/
theorem Packing.read_lit {s : State} {rest : List AUnit} {due : Nat} (h : Packing s rest due) (hk : s.k < 8)
    (ha : s.a < s.tmplen.toNat) (hbit : s.info.getLsbD (7 - s.k) = false) :
    ∃ rest', Packing { s with v := s.byteAt .tmp s.a, a := s.a + 1, k := s.k + 1 } rest' (due + 2) := by
  have hparse := h.parse
  rw [bytesFrom_rest ha, parseAFrom_lit (by omega) hbit, Option.map_eq_some_iff] at hparse
  obtain ⟨rest', hparse, rfl⟩ := hparse
  have hroom := h.room
  rw [unitSamples_lit] at hroom
  refine ⟨rest', h.ok, h.n_le, h.tmplen_le, ha, hk, hparse, h.lit, ?_⟩
  show s.out + heldBack s.mode s.rc + _ + _ ≤ 2 * s.n
  omega

/-! The parts of P_UNIT and P_END (R171, R172, R175). -/

theorem closeLiteral_packing {s : State} {rest : List AUnit} {due : Nat} (c : Nat) (h : Packing s rest due)
    (hhdr : s.hdr < s.out) :
    Answers (fun t => Packing t rest due ∧ t.mode = .none ∧ (t.v, t.r, t.rc) = (s.v, s.r, s.rc)) (closeLiteral c s) := by
  have hout := h.out_le
  refine .closeLiteral (by omega) fun dst => ⟨h.emitted rfl nofun ?_, rfl, rfl⟩
  simp only [heldBack_none]
  omega

theorem closeIfLit_packing {s : State} {rest : List AUnit} {due : Nat} (h : Packing s rest due) :
    Answers (fun t => Packing t rest due ∧ t.mode ≠ .lit ∧ (t.v, t.r, t.rc) = (s.v, s.r, s.rc)) (closeIfLit s) := by
  refine .ite (fun hm => ?_) fun hm => .next ⟨h, hm, rfl⟩
  obtain ⟨hlc, hout⟩ := h.lit hm
  obtain ⟨t, ht, hpack, hmode, hregs⟩ := closeLiteral_packing s.lc h (by omega)
  exact ⟨t, ht, hpack, by simp [hmode], hregs⟩

/-- The open repeat stretch's remainder takes at most the two bytes held for each repeat. -/
theorem flushRun_packing {s : State} {rest : List AUnit} {due : Nat} (h : Packing s rest due) (hm : s.mode = .run) :
    Answers (fun t => ∃ dst out, out ≤ s.out + 2 * s.rc ∧ t = { s with dst := dst, out := out }) (flushRun s) := by
  have hout := h.out_le
  rw [hm, heldBack_run] at hout
  refine .ite (fun hrc => ?_) fun hrc => .next ⟨s.dst, s.out, by omega, rfl⟩
  exact .emitRepeat (by omega) fun dst => ⟨dst, s.out + 2, by omega, rfl⟩

theorem flushIfOther_packing {s : State} {rest : List AUnit} {due : Nat} (h : Packing s rest due)
    (hlit : s.mode ≠ .lit) :
    Answers (fun t => Packing t rest due ∧ t.mode ≠ .lit ∧ (t.v, t.r, t.rc) = (s.v, s.r, s.rc)) (flushIfOther s) := by
  refine .ite (fun ⟨hm, _⟩ => (flushRun_packing h hm).andThen ?_) fun _ => .next ⟨h, hlit, rfl⟩
  rintro _ ⟨dst, out, hout, rfl⟩
  refine .next ⟨h.emitted rfl nofun ?_, nofun, rfl⟩
  simp only [hm, heldBack_run, heldBack_none]
  omega

theorem flushIfRun_packing {s : State} {rest : List AUnit} {due : Nat} (h : Packing s rest due) :
    Answers (fun t => Packing t rest due ∧ t.mode ≠ .run ∧ t.rc ≤ s.rc) (flushIfRun s) := by
  refine .ite (fun hm => (flushRun_packing h hm).andThen ?_) fun hm => .next ⟨h, hm, Nat.le_refl _⟩
  rintro _ ⟨dst, out, hout, rfl⟩
  refine .next ⟨h.emitted rfl nofun ?_, nofun, Nat.zero_le _⟩
  simp only [hm, heldBack_run, heldBack_none]
  omega

/-- A stretch of the unit's value is open, and its repeats are held back in place of the bytes due for it. -/
theorem openRun_packing {s : State} {rest : List AUnit} (h : Packing s rest (2 * s.r)) (hlit : s.mode ≠ .lit) :
    Packing { openRun s with rc := (openRun s).rc + s.r, fsm := .pOvf } rest 0 ∧ (openRun s).mode = .run ∧
      (openRun s).rc ≤ s.rc := by
  unfold openRun
  split
  · rename_i hm
    refine ⟨h.emitted rfl nofun ?_, rfl, Nat.zero_le _⟩
    simp only [heldBack_run, heldBack_of_ne hm]
    omega
  · rename_i hm
    have hm : s.mode = .run := Decidable.not_not.mp hm
    refine ⟨h.emitted rfl (fun hl => absurd hl hlit) ?_, hm, Nat.le_refl _⟩
    simp only [hm, heldBack_run]
    omega

theorem openLit_packing {s : State} {rest : List AUnit} (h : Packing s rest 2) (hrun : s.mode ≠ .run) :
    Answers (fun t => Packing t rest 1 ∧ t.mode = .lit ∧ t.rc = s.rc) (openLit s) := by
  have hout := h.out_le
  refine .ite (fun hm => .andThen (.emit (by simp only; omega) (Eq.refl _)) ?_) fun hm => ?_
  · rintro _ rfl
    refine .next ⟨h.emitted rfl (fun _ => ⟨Nat.zero_le _, rfl⟩) ?_, rfl, rfl⟩
    simp only [heldBack_lit, heldBack_of_ne hrun]
    omega
  · exact .next ⟨h.emitted rfl h.lit (by omega), Decidable.not_not.mp hm, rfl⟩

theorem appendLit_packing {s : State} {rest : List AUnit} (h : Packing s rest 1) (hm : s.mode = .lit) :
    Answers (fun t => Packing t rest 0 ∧ (t.mode = .lit → 1 ≤ t.lc) ∧ t.rc = s.rc) (appendLit s) := by
  have hout := h.out_le
  obtain ⟨hlc, hseg⟩ := h.lit hm
  rw [hm, heldBack_lit] at hout
  refine .andThen (.emit (by omega) (Eq.refl _)) ?_
  rintro _ rfl
  refine .ite (fun h127 => ?_) fun h127 => .next ⟨h.emitted rfl (fun _ => ?_) ?_, fun _ => Nat.le_add_left 1 s.lc, rfl⟩
  · refine .closeLiteral (by simp only; omega) fun dst => ⟨h.emitted rfl nofun ?_, nofun, rfl⟩
    simp only [hm, heldBack_none, heldBack_lit]
    omega
  · have h127 : s.lc + 1 ≠ 127 := h127
    simp only
    omega
  · simp only [hm, heldBack_lit]
    omega

/-! The steps of Stage B. -/

theorem stepPAwait_bounds {s : State} (hp : s.params.ok) (h : s.StageBBounds) (hrc : s.rc ≤ 126) :
    Answers State.BoundsOk (stepPAwait s) := by
  obtain ⟨rest, hpack, hlc⟩ := Packing.of_stageBBounds hp h
  refine .ite (fun hend => .next ⟨hp, h, hrc, Nat.le_antisymm hpack.a_le hend⟩) fun ha => ?_
  have ha := Nat.lt_of_not_le ha
  refine .ite (fun hk => .withByte (hpack.a_lt ha) ?_) fun hk => ?_
  · obtain ⟨ha1, hnext⟩ := hpack.read_info hk ha
    exact .next ⟨hp, hnext.stageBBounds hlc, hrc, (by decide : 0 < 8), ha1⟩
  · exact .next ⟨hp, h, hrc, Nat.lt_of_le_of_ne hpack.k_le hk, ha⟩

theorem stepPRunUnit_bounds {s : State} {rest : List AUnit} (h : Packing s rest 0) (hrc : s.rc ≤ 126) (hk : s.k < 8)
    (ha : s.a < s.tmplen.toNat) (hbit : s.info.getLsbD (7 - s.k) = true) :
    Answers State.BoundsOk (stepPRunUnit s) := by
  obtain ⟨ha1, rest', hread⟩ := h.read_run hk ha hbit
  rw [Nat.zero_add] at hread
  refine .withByte (h.a_lt ha) (.withByte (h.a_lt ha1) ?_)
  refine (closeIfLit_packing hread).andThen fun s1 ⟨h1, hlit1, hregs1⟩ => ?_
  refine (flushIfOther_packing h1 hlit1).andThen fun s2 ⟨h2, hlit2, hregs2⟩ => ?_
  simp only [Prod.mk.injEq] at hregs1 hregs2
  obtain ⟨-, hr1, hrc1⟩ := hregs1
  obtain ⟨-, hr2, hrc2⟩ := hregs2
  rw [← hr1, ← hr2] at h2
  obtain ⟨h3, hmode, hrc3⟩ := openRun_packing h2 hlit2
  have hcount : s2.r ≤ 255 := by
    rw [hr2, hr1]
    exact Nat.le_of_lt_succ (s.byteAt .tmp s.a).isLt
  refine .next ⟨h3.ok, h3.stageBBounds ?_, hmode, ?_⟩
  · intro hm
    rw [hmode] at hm
    cases hm
  · simp only
    omega

theorem stepPLitUnit_bounds {s : State} {rest : List AUnit} (h : Packing s rest 0) (hrc : s.rc ≤ 126) (hk : s.k < 8)
    (ha : s.a < s.tmplen.toNat) (hbit : s.info.getLsbD (7 - s.k) = false) :
    Answers State.BoundsOk (stepPLitUnit s) := by
  obtain ⟨rest', hread⟩ := h.read_lit hk ha hbit
  refine .withByte (h.a_lt ha) ?_
  refine (flushIfRun_packing hread).andThen fun s1 ⟨h1, hrun1, hrc1⟩ => ?_
  refine (openLit_packing h1 hrun1).andThen fun s2 ⟨h2, hlit2, hrc2⟩ => ?_
  refine (appendLit_packing h2 hlit2).andThen fun s3 ⟨h3, hlc3, hrc3⟩ => ?_
  exact .next ⟨h3.ok, h3.stageBBounds hlc3, by simp only at hrc1 ⊢; omega⟩

theorem stepPUnit_bounds {s : State} (hp : s.params.ok) (h : s.StageBBounds) (hrc : s.rc ≤ 126) (hk : s.k < 8)
    (ha : s.a < s.tmplen.toNat) : Answers State.BoundsOk (stepPUnit s) := by
  obtain ⟨rest, hpack, -⟩ := Packing.of_stageBBounds hp h
  exact .ite (stepPRunUnit_bounds hpack hrc hk ha) fun hbit =>
    stepPLitUnit_bounds hpack hrc hk ha (Bool.eq_false_of_not_eq_true hbit)

theorem stepPOvf_bounds {s : State} (hp : s.params.ok) (hf : s.fsm = .pOvf) (h : s.StageBBounds) (hm : s.mode = .run)
    (hrc : s.rc ≤ 381) : Answers State.BoundsOk (stepPOvf s) := by
  obtain ⟨rest, hpack, -⟩ := Packing.of_stageBBounds hp h
  have hout := hpack.out_le
  rw [hm, heldBack_run] at hout
  refine .ite (fun h127 => ?_) fun h127 => .next ⟨hp, h, Nat.le_of_lt_succ (Nat.lt_of_not_le h127)⟩
  rw [execPacksegRepeat_of_ne (by decide)]
  refine .andThen (P := fun t => ∃ dst, t = { s with dst := dst, out := s.out + 2 })
    (.emitRepeat (by omega) fun dst => ⟨dst, rfl⟩) ?_
  rintro _ ⟨dst, rfl⟩
  have hnext : Packing { s with dst := dst, out := s.out + 2, rc := s.rc - 127 } rest 0 := by
    refine hpack.emitted rfl (fun hl => absurd (hm.symm.trans hl) nofun) ?_
    simp only [hm, heldBack_run]
    omega
  refine .next ⟨hp, ?_⟩
  simp only [hf]
  exact ⟨hnext.stageBBounds fun hl => absurd (hm.symm.trans hl) nofun, hm, by omega⟩

/-- What is left of Stage B's bounds once nothing is held back (R175). -/
structure Flushed (s : State) : Prop where
  ok : s.params.ok
  n_le : s.n ≤ s.params.nmax
  out_le : s.out ≤ 2 * s.n
  lit : s.mode = .lit → s.hdr < s.out

theorem flushAtEnd_flushed {s : State} {rest : List AUnit} {due : Nat} (h : Packing s rest due) :
    Answers Flushed (if s.mode = .run then flushRun s else .next s) := by
  have hroom := h.room
  refine .ite (fun hm => ?_) fun hm => .next ⟨h.ok, h.n_le, by omega, fun hl => ?_⟩
  · rw [hm, heldBack_run] at hroom
    obtain ⟨t, ht, dst, out, hout, rfl⟩ := flushRun_packing h hm
    refine ⟨_, ht, h.ok, h.n_le, ?_, fun hl => absurd (hm.symm.trans hl) nofun⟩
    simp only
    omega
  · have := (h.lit hl).2
    omega

theorem closeIfLit_flushed {s : State} (h : Flushed s) : Answers Flushed (closeIfLit s) := by
  obtain ⟨hp, hn, hout, hlit⟩ := h
  refine .ite (fun hm => .closeLiteral ?_ fun dst => ⟨hp, hn, hout, nofun⟩) fun _ => .next ⟨hp, hn, hout, hlit⟩
  have := hlit hm
  omega

theorem stepPEnd_bounds {s : State} (hp : s.params.ok) (h : s.StageBBounds) : Answers State.BoundsOk (stepPEnd s) := by
  obtain ⟨rest, hpack, -⟩ := Packing.of_stageBBounds hp h
  refine (flushAtEnd_flushed hpack).andThen fun s1 h1 => ?_
  exact (closeIfLit_flushed h1).andThen fun s2 h2 => .next ⟨h2.ok, h2.n_le, h2.out_le⟩

/-! #### From Stage A to Stage B, and the dispatch -/

/-- R166: all info bytes are back-patched, and TMP holds the layout of units that stand for the whole stream. -/
theorem flushBatch_laid {s : State} (hlaid : s.StageALaid) (hroom : s.t ≤ s.params.tmpBytes) :
    Answers (fun t => (∃ us, (∀ u ∈ us, u.fits) ∧ unitSamples us = s.pos ∧ t.bytesOf .tmp s.t = layout us) ∧
        (t.params, t.n, t.t) = (s.params, s.n, s.t))
      (if 0 < s.k then bufWrite .tmp s.ip s.info s else .next s) := by
  obtain ⟨closed, batch, hc, hb, hk, hfits, hsamples, hbytes, hopen⟩ := hlaid
  refine .ite (fun hk0 => ?_) fun hk0 => ?_
  · obtain ⟨hip, hinfo⟩ := hopen hk0
    rw [if_neg (by omega)] at hbytes
    have hbatch : BatchOpen s closed batch := ⟨hc, hfits, hsamples, hbytes, hip, hinfo⟩
    have hpos := hbatch.append_position
    have hlt : s.ip < s.params.bytes .tmp := show s.ip < s.params.tmpBytes by omega
    rw [bufWrite_of_lt hlt]
    refine .next ⟨⟨closed ++ batch, hfits, hsamples, ?_⟩, rfl⟩
    exact bytesOf_backPatch hbatch (List.length_pos_iff.mp (by omega)) (by omega) rfl rfl
  · have hk0 : s.k = 0 := by omega
    obtain rfl := List.length_eq_zero_iff.mp (hb.trans hk0)
    rw [if_pos hk0, List.append_nil] at hbytes
    exact .next ⟨⟨closed, by simpa using hfits, by simpa using hsamples, hbytes⟩, rfl⟩

theorem stepAEnd_bounds {s : State} (hp : s.params.ok) (h : s.StageABounds) (hend : s.pos = s.n) :
    Answers State.BoundsOk (stepAEnd s) := by
  obtain ⟨hn, hw, hpos, ht, hlaid⟩ := h
  refine (flushBatch_laid hlaid (by omega)).andThen fun u ⟨⟨us, hfits, hsamples, hbytes⟩, hregs⟩ => ?_
  simp only [Prod.mk.injEq] at hregs
  obtain ⟨hp', hn', ht'⟩ := hregs
  have htl : (BitVec.ofNat 32 u.t).toNat = s.t := by
    rw [BitVec.toNat_ofNat, ht', Nat.mod_eq_of_lt (by omega)]
  refine .next ⟨hp' ▸ hp, Packing.stageBBounds (rest := us) (due := 0) ⟨hp' ▸ hp, ?_, ?_, Nat.zero_le _, Nat.le_refl 8, ?_,
    nofun, ?_⟩ nofun, Nat.zero_le 126⟩
  · show u.n ≤ u.params.nmax
    rw [hn', hp']
    exact hn
  · show (BitVec.ofNat 32 u.t).toNat ≤ u.n + (u.n + 7) / 8
    omega
  · show parseAFrom u.info 8 (u.bytesFrom .tmp 0 ((BitVec.ofNat 32 u.t).toNat - 0)) = some us
    rw [htl, Nat.sub_zero, bytesFrom_of_zero, hbytes]
    exact parseAFrom_layout u.info hfits
  · simp only [heldBack_none]
    omega

theorem stepDecode_bounds {s : State} (hp : s.params.ok) (hf : s.fsm = .decode) (hw : s.w = cmdBW s.cmd)
    (hpos : s.pos = 0) (hout : s.out = 0) (ht : s.t = 0) (hk : s.k = 0) : Answers State.BoundsOk (engineStep s) := by
  rcases decode_cases hf with ⟨e, -, he, -⟩ | ⟨i, hi, hn, he, -⟩ <;> rw [he]
  · exact .next ⟨hp, trivial⟩
  have hpos_le : s.pos ≤ s.n := by simp [hpos]
  have nibble (h : s.w = 1 ∨ s.w = 2 ∨ s.w = 4) : s.NibBounds := ⟨hn, h, hpos_le, by simp [hout]⟩
  have hlaid : s.StageALaid := stageALaid_of_layout (us := []) hk rfl nofun hpos.symm (by simp [ht])
  rcases decodeCommand_cases hi with ⟨rfl, h⟩ | ⟨rfl, h⟩ | ⟨rfl, h⟩ | ⟨rfl, h⟩ | ⟨rfl, h⟩ <;> rw [← hw] at h
  · exact .next ⟨hp, nibble (.inl h)⟩
  · exact .next ⟨hp, nibble (.inr (.inl h))⟩
  · exact .next ⟨hp, nibble (.inr (.inr h))⟩
  · exact .next ⟨hp, hn, h, hpos_le, by simp [hout]⟩
  · exact .next ⟨hp, hn, h, hpos_le, by simp [ht], hlaid⟩

/-- R31: from a state that meets the bounds an engine step answers, and the next state meets them. -/
theorem engineStep_bounds {s : State} (h : s.BoundsOk) : Answers State.BoundsOk (engineStep s) := by
  obtain ⟨hp, hs⟩ := h
  cases hf : s.fsm <;> simp only [hf] at hs
  case decode =>
    obtain ⟨-, hw, hpos, hout, ht, hk⟩ := hs
    exact stepDecode_bounds hp hf hw hpos hout ht hk
  all_goals simp only [engineStep, hf]
  case idle => exact .next ⟨hp, by simp only [hf]⟩
  case nHead => exact stepNHead_bounds hp hs
  case nScan =>
    obtain ⟨hb, hlen, hrun⟩ := hs
    exact stepNScan_bounds hp hf hb hlen hrun
  case nEmit =>
    obtain ⟨hb, hlen, hrun⟩ := hs
    exact stepNEmit_bounds hp hb hlen hrun
  case bHead => exact stepBHead_bounds hp hs
  case bScan =>
    obtain ⟨hb, hlen, hrun⟩ := hs
    exact stepBScan_bounds hp hf hb hlen hrun
  case bEmit =>
    obtain ⟨hb, hlen, hrun⟩ := hs
    exact stepBEmit_bounds hp hb hlen hrun
  case aHead => exact stepAHead_bounds hp hs
  case aScan =>
    obtain ⟨hb, hr, hcap, hrun⟩ := hs
    exact stepAScan_bounds hp hf hb hr hcap hrun
  case aEmit =>
    obtain ⟨hb, hr, hcap, hrun⟩ := hs
    exact stepAEmit_bounds hp hb hr hcap hrun
  case aEnd =>
    obtain ⟨hb, hend⟩ := hs
    exact stepAEnd_bounds hp hb hend
  case pAwait =>
    obtain ⟨hb, hrc⟩ := hs
    exact stepPAwait_bounds hp hb hrc
  case pUnit =>
    obtain ⟨hb, hrc, hk, ha⟩ := hs
    exact stepPUnit_bounds hp hb hrc hk ha
  case pOvf =>
    obtain ⟨hb, hm, hrc⟩ := hs
    exact stepPOvf_bounds hp hf hb hm hrc
  case pEnd =>
    obtain ⟨hb, -, -⟩ := hs
    exact stepPEnd_bounds hp hb
  case finish => exact .next ⟨hp, trivial⟩

theorem boundsOk_engineStep (s t : State) (hs : s.BoundsOk) (h : engineStep s = .next t) : t.BoundsOk := by
  obtain ⟨u, hu, hbounds⟩ := engineStep_bounds hs
  cases hu.symm.trans h
  exact hbounds

theorem State.BoundsOk.width {s : State} (hs : s.BoundsOk) (hd : s.fsm = .decode) : s.w = cmdBW s.cmd := by
  obtain ⟨-, hs⟩ := hs
  simp only [hd] at hs
  obtain ⟨-, hw, -⟩ := hs
  exact hw

theorem boundsOk_runOperation (s t : State) (hs : s.BoundsOk) (h : runOperation s = .next t) : t.BoundsOk := by
  by_cases hd : s.fsm = .decode
  · rw [runOperation_of_decode hd (hs.width hd)] at h
    exact runEngine_keeps boundsOk_engineStep _ s t hs h
  · rw [runOperation, if_neg hd] at h
    exact runEngine_keeps boundsOk_engineStep _ s t hs h

theorem HostEffect.boundsOk {s t : State} (h : HostEffect s t) (hs : s.BoundsOk) : t.BoundsOk := by
  cases h with
  | read => exact hs
  | accept c => exact ⟨hs.1, rfl, rfl, rfl, rfl, rfl, rfl⟩
  | writeLen v idle => exact ⟨hs.1, by simp only [idle]⟩
  | writeSrc i b idle => exact ⟨hs.1, by simp only [idle]⟩
  | reset => exact ⟨hs.1, trivial⟩

/-- Settles O53: the host's moves, the engine's steps and the rest of an operation each keep the bounds, and
`engineStep_bounds` has every engine step answer. -/
theorem stepKeepsBounds : Obligations.StepKeepsBounds := by
  refine ⟨fun s t => ?_, fun s hs => ?_⟩
  · exact step_keeps (fun _ _ hs => hs) (fun m s hs => (hostMove_effect m s).boundsOk hs) boundsOk_engineStep
      boundsOk_runOperation
  · obtain ⟨t, ht, -⟩ := engineStep_bounds hs
    exact ⟨t, ht⟩

end Sys2Proof.Machine

namespace Sys2Proof.Machine

/-! ### The result depends on the input alone (R32, R48)

Two operations run in lockstep: the second is the first with its buffers, group register and the model's own
fields taken from another state, `s.over u`. What the engine has read so far, and will read, is alike in both. -/

/-- `s` with everything taken from `u` that acceptance does not set anew and an operation's result may not depend
on. -/
def State.over (s u : State) : State :=
  { s with
    src := u.src
    tmp := u.tmp
    dst := u.dst
    grp := u.grp
    gidx := u.gidx
    rdata := u.rdata
    draws := u.draws
    epoch := u.epoch }

theorem byteAt_over (s u : State) (sp : Space) (i : Nat) : (s.over u).byteAt sp i = u.byteAt sp i := by
  cases sp <;> rfl

/-- `u` holds what `s` holds wherever the engine may look: the stream's bytes in SRC, a valid group register, and
what has been stored in TMP and DST. -/
structure Alike (s u : State) : Prop where
  src : ∀ g, g < (s.n * s.w + 7) / 8 → u.byteAt .src g = s.byteAt .src g
  group : s.gv = true → u.grp = s.grp ∧ u.gidx = s.gidx
  tmp : ∀ j, j < s.t ∨ j < s.tmplen.toNat → u.byteAt .tmp j = s.byteAt .tmp j
  dst : ∀ j, j < s.out ∨ j < s.outlen.toNat → u.byteAt .dst j = s.byteAt .dst j

/-- The fields `Alike` looks at, but for the four that say how much of TMP and DST is in use. -/
def State.looked (s : State) := (s.n, s.w, s.src, s.tmp, s.dst, s.grp, s.gidx, s.gv, s.epoch)

/-- A change of registers, on both sides, after which no more of TMP and DST is in use. -/
theorem Alike.within {s t u : State} (h : Alike s u) (hsame : t.looked = s.looked)
    (htmp : ∀ j, j < t.t ∨ j < t.tmplen.toNat → j < s.t ∨ j < s.tmplen.toNat)
    (hdst : ∀ j, j < t.out ∨ j < t.outlen.toNat → j < s.out ∨ j < s.outlen.toNat) : Alike t (s.over u) := by
  simp only [State.looked, Prod.mk.injEq] at hsame
  obtain ⟨hn, hw, hsrc, htmp', hdst', hgrp, hgidx, hgv, he⟩ := hsame
  refine ⟨fun g hg => ?_, fun hv => ?_, fun j hj => ?_, fun j hj => ?_⟩
  · rw [byteAt_over, byteAt_of_buf (s := s) (t := t) (sp := .src) hsrc he]
    exact h.src g (by rwa [hn, hw] at hg)
  · rw [hgrp, hgidx]
    exact h.group (hgv ▸ hv)
  · rw [byteAt_over, byteAt_of_buf (s := s) (t := t) (sp := .tmp) htmp' he]
    exact h.tmp j (htmp j hj)
  · rw [byteAt_over, byteAt_of_buf (s := s) (t := t) (sp := .dst) hdst' he]
    exact h.dst j (hdst j hj)

/-- A change of registers that does not touch how much of TMP and DST is in use. -/
theorem Alike.regs {s t u : State} (h : Alike s u) (hsame : t.looked = s.looked)
    (huse : (t.t, t.tmplen, t.out, t.outlen) = (s.t, s.tmplen, s.out, s.outlen)) : Alike t (s.over u) := by
  simp only [Prod.mk.injEq] at huse
  obtain ⟨ht, htl, hout, hol⟩ := huse
  exact h.within hsame (by rw [ht, htl]; exact fun _ => id) (by rw [hout, hol]; exact fun _ => id)

/-- Whatever next state `o` answers, `o'` answers one that is the same over a state alike. -/
def Lockstep (o o' : Out) : Prop := ∀ t, o = .next t → ∃ u, o' = .next (t.over u) ∧ Alike t u

theorem Lockstep.next {t u : State} (h : Alike t u) : Lockstep (.next t) (.next (t.over u)) := by
  intro t' ht
  cases ht
  exact ⟨u, rfl, h⟩

theorem Lockstep.andThen {o o' : Out} {f f' : State → Out} (ho : Lockstep o o')
    (hf : ∀ t u, Alike t u → Lockstep (f t) (f' (t.over u))) : Lockstep (andThen o f) (andThen o' f') := by
  intro t ht
  obtain ⟨s, hs, h⟩ := andThen_next.mp ht
  obtain ⟨u, rfl, hu⟩ := ho s hs
  exact hf s u hu t h

theorem Lockstep.ite {c : Prop} [Decidable c] {o p o' p' : Out} (h : c → Lockstep o o') (h' : ¬c → Lockstep p p') :
    Lockstep (if c then o else p) (if c then o' else p') := by
  split
  · exact h ‹_›
  · exact h' ‹_›

/-- The same byte stored at the same index leaves two buffers alike where they were. -/
theorem byteAt_write_congr {s u s' u' : State} {sp : Space} {i j : Nat} {b : Byte}
    (hs : s'.buf sp = Memory.write (s.buf sp) i b) (hse : s'.epoch = s.epoch)
    (hu : u'.buf sp = Memory.write (u.buf sp) i b) (hue : u'.epoch = u.epoch)
    (h : j ≠ i → u.byteAt sp j = s.byteAt sp j) : u'.byteAt sp j = s'.byteAt sp j := by
  rw [byteAt_of_buf (s := s.setBuf sp (Memory.write (s.buf sp) i b)) (t := s') (by simpa using hs) (by simpa using hse),
    byteAt_of_buf (s := u.setBuf sp (Memory.write (u.buf sp) i b)) (t := u') (by simpa using hu) (by simpa using hue),
    byteAt_setBuf_write, byteAt_setBuf_write]
  split
  · rfl
  · rename_i hj
    exact h fun e => hj ⟨rfl, e⟩

section
variable {s u : State} (h : Alike s u)
include h

theorem Alike.emit (b : Byte) : Lockstep (emit b s) (emit b (s.over u)) := by
  intro t ht
  obtain ⟨hlt, rfl⟩ := emit_next.mp ht
  refine ⟨{ u with dst := Memory.write u.dst s.out b }, emit_of_lt hlt, h.src, h.group, h.tmp, fun j hj => ?_⟩
  refine byteAt_write_congr (s := s) (u := u) (sp := .dst) rfl rfl rfl rfl fun hne => h.dst j ?_
  simp only at hj
  omega

theorem Alike.tmpAppend (b : Byte) : Lockstep (tmpAppend b s) (tmpAppend b (s.over u)) := by
  intro t ht
  obtain ⟨hlt, rfl⟩ := tmpAppend_next.mp ht
  refine ⟨{ u with tmp := Memory.write u.tmp s.t b }, tmpAppend_of_lt hlt, h.src, h.group, fun j hj => ?_, h.dst⟩
  refine byteAt_write_congr (s := s) (u := u) (sp := .tmp) rfl rfl rfl rfl fun hne => h.tmp j ?_
  simp only at hj
  omega

theorem Alike.backPatch (i : Nat) (b : Byte) : Lockstep (bufWrite .tmp i b s) (bufWrite .tmp i b (s.over u)) := by
  intro t ht
  obtain ⟨hlt, rfl⟩ := bufWrite_next.mp ht
  exact ⟨{ u with tmp := Memory.write u.tmp i b }, bufWrite_of_lt hlt, h.src, h.group,
    fun j hj => byteAt_write_congr (s := s) (u := u) (sp := .tmp) rfl rfl rfl rfl fun _ => h.tmp j hj, h.dst⟩

theorem Alike.closeLiteral (c : Nat) : Lockstep (closeLiteral c s) (closeLiteral c (s.over u)) := by
  intro t ht
  obtain ⟨hlt, rfl⟩ := closeLiteral_next.mp ht
  exact ⟨{ u with dst := Memory.write u.dst s.hdr (BitVec.ofNat 8 c) }, closeLiteral_next.mpr ⟨hlt, rfl⟩, h.src,
    h.group, h.tmp, fun j hj => byteAt_write_congr (s := s) (u := u) (sp := .dst) rfl rfl rfl rfl fun _ => h.dst j hj⟩

theorem Alike.emitRepeat (c : Nat) (v : Byte) : Lockstep (emitRepeat c v s) (emitRepeat c v (s.over u)) :=
  (h.emit _).andThen fun _ _ h => h.emit _

/-- A byte of Stage A's buffer reads the same. -/
theorem Alike.withTmp {i : Nat} {f f' : Byte → Out} (hi : i < s.tmplen.toNat)
    (hf : Lockstep (f (s.byteAt .tmp i)) (f' (s.byteAt .tmp i))) :
    Lockstep (withByte .tmp i s f) (withByte .tmp i (s.over u) f') := by
  intro t ht
  obtain ⟨hlt, ht⟩ := withByte_next.mp ht
  have hlt' : i < (s.over u).params.bytes .tmp := hlt
  rw [withByte_of_lt hlt', byteAt_over, h.tmp i (.inr hi)]
  exact hf t ht

/-- A byte of the stream reads the same through the group register, valid or not. -/
theorem Alike.withGroup {g : Nat} {f f' : Byte → State → Out} (hg : g < (s.n * s.w + 7) / 8)
    (hf : ∀ x t v, Alike t v → Lockstep (f x t) (f' x (t.over v))) :
    Lockstep (withGroup g s f) (withGroup g (s.over u) f') := by
  intro t ht
  rcases withGroup_next.mp ht with ⟨hhit, ht⟩ | ⟨hmiss, hlt, ht⟩
  · obtain ⟨hgrp, hgidx⟩ := h.group hhit.1
    have hhit' : (s.over u).gv = true ∧ (s.over u).gidx = g := ⟨hhit.1, hgidx.trans hhit.2⟩
    rw [Machine.withGroup, if_pos hhit', show (s.over u).grp = s.grp from hgrp]
    exact hf _ _ _ h t ht
  · have hmiss' : ¬((s.over u).gv = true ∧ (s.over u).gidx = g) := fun ⟨hv, hx⟩ =>
      hmiss ⟨hv, (h.group hv).2.symm.trans hx⟩
    rw [Machine.withGroup, if_neg hmiss', withByte_of_lt hlt, byteAt_over, h.src g hg]
    exact hf _ { s with grp := s.byteAt .src g, gidx := g, gv := true } { u with grp := s.byteAt .src g, gidx := g }
      ⟨h.src, fun _ => ⟨rfl, rfl⟩, h.tmp, h.dst⟩ t ht

end

/-- The widths a command latches (R72). -/
abbrev LegalWidth (w : Nat) : Prop := w = 1 ∨ w = 2 ∨ w = 4 ∨ w = 8

/-- A sample of the stream lies in the bytes the stream occupies (R100, R101). -/
theorem sampleByte_lt {w n i : Nat} (hw : LegalWidth w) (hi : i < n) :
    i / samplesPerByte w < (n * w + 7) / 8 := by
  rcases hw with rfl | rfl | rfl | rfl <;> simp only [samplesPerByte] <;> omega

section
variable {s u : State} (h : Alike s u)
include h

theorem Alike.withSample {i : Nat} {f f' : Byte → State → Out} (hw : LegalWidth s.w)
    (hi : i < s.n) (hf : ∀ x t v, Alike t v → Lockstep (f x t) (f' x (t.over v))) :
    Lockstep (withSample i s f) (withSample i (s.over u) f') :=
  h.withGroup (sampleByte_lt hw hi) fun _ _ _ h => hf _ _ _ h

theorem Alike.scan {below : Bool} {i : Nat} {x : Byte} {again again' leave leave' : State → State}
    (hw : LegalWidth s.w)
    (hagain : ∀ t v, Alike t v → Lockstep (.next (again t)) (.next (again' (t.over v))))
    (hleave : ∀ t v, Alike t v → Lockstep (.next (leave t)) (.next (leave' (t.over v)))) :
    Lockstep (scan below i x again leave s) (scan below i x again' leave' (s.over u)) := by
  refine .ite (fun hin => h.withSample hw hin.2 fun y t v h => ?_) fun _ => hleave _ _ h
  split
  · exact hagain t v h
  · exact hleave t v h

/-! Every step of the encoders goes in lockstep. -/

theorem stepNHead_lockstep (hw : LegalWidth s.w) : Lockstep (stepNHead s) (stepNHead (s.over u)) :=
  .ite (fun _ => .next (h.regs rfl rfl)) fun hlt =>
    h.withSample hw (Nat.lt_of_not_le hlt) fun _ _ _ h => .next (h.regs rfl rfl)

theorem stepNScan_lockstep (hw : LegalWidth s.w) : Lockstep (stepNScan s) (stepNScan (s.over u)) :=
  h.scan hw (fun _ _ h => .next (h.regs rfl rfl)) fun _ _ h => .next (h.regs rfl rfl)

theorem stepNEmit_lockstep : Lockstep (stepNEmit s) (stepNEmit (s.over u)) :=
  .andThen ((h.emit _).andThen fun _ _ h => .next (h.regs rfl rfl)) fun _ _ h => .next (h.regs rfl rfl)

theorem stepBHead_lockstep (hw : LegalWidth s.w) : Lockstep (stepBHead s) (stepBHead (s.over u)) :=
  .ite (fun _ => .next (h.regs rfl rfl)) fun hlt =>
    h.withSample hw (Nat.lt_of_not_le hlt) fun _ _ _ h => .next (h.regs rfl rfl)

theorem stepBScan_lockstep (hw : LegalWidth s.w) : Lockstep (stepBScan s) (stepBScan (s.over u)) :=
  h.scan hw (fun _ _ h => .next (h.regs rfl rfl)) fun _ _ h => .next (h.regs rfl rfl)

theorem stepBEmit_lockstep : Lockstep (stepBEmit s) (stepBEmit (s.over u)) :=
  .andThen ((h.emit _).andThen fun _ _ h => (h.emit _).andThen fun _ _ h => .next (h.regs rfl rfl))
    fun _ _ h => .next (h.regs rfl rfl)

theorem stepAHead_lockstep (hw : LegalWidth s.w) : Lockstep (stepAHead s) (stepAHead (s.over u)) :=
  .ite (fun _ => .next (h.regs rfl rfl)) fun hlt =>
    h.withSample hw (Nat.lt_of_not_le hlt) fun _ _ _ h => .next (h.regs rfl rfl)

theorem stepAScan_lockstep (hw : LegalWidth s.w) : Lockstep (stepAScan s) (stepAScan (s.over u)) :=
  h.scan hw (fun _ _ h => .next (h.regs rfl rfl)) fun _ _ h => .next (h.regs rfl rfl)

theorem openBatch_lockstep : Lockstep (openBatch s) (openBatch (s.over u)) :=
  .ite (fun _ => (Alike.tmpAppend (s := { s with ip := s.t }) (h.regs rfl rfl) _).andThen fun _ _ h =>
    .next (h.regs rfl rfl)) fun _ => .next h

theorem placeUnit_lockstep : Lockstep (placeUnit s) (placeUnit (s.over u)) :=
  .ite
    (fun _ => (Alike.tmpAppend (s := { s with info := s.info ||| (0x80#8 >>> s.k) }) (h.regs rfl rfl) _).andThen
      fun _ _ h => (h.tmpAppend _).andThen fun _ _ h => .next (h.regs rfl rfl))
    fun _ => (h.tmpAppend _).andThen fun _ _ h => .next (h.regs rfl rfl)

theorem countUnit_lockstep : Lockstep (countUnit s) (countUnit (s.over u)) :=
  .ite (fun _ => (h.backPatch _ _).andThen fun _ _ h => .next (h.regs rfl rfl)) fun _ => .next (h.regs rfl rfl)

theorem stepAEmit_lockstep : Lockstep (stepAEmit s) (stepAEmit (s.over u)) :=
  (openBatch_lockstep h).andThen fun _ _ h => (placeUnit_lockstep h).andThen fun _ _ h =>
    (countUnit_lockstep h).andThen fun _ _ h => .next (h.regs rfl rfl)

theorem stepAEnd_lockstep : Lockstep (stepAEnd s) (stepAEnd (s.over u)) := by
  refine .andThen (.ite (fun _ => h.backPatch _ _) fun _ => .next h) fun t _ h => .next (h.within rfl ?_ ?_)
  · intro j hj
    have : (BitVec.ofNat 32 t.t).toNat ≤ t.t := (BitVec.toNat_ofNat t.t 32).trans_le (Nat.mod_le _ _)
    simp only at hj
    omega
  · intro j hj
    simp only at hj
    omega

theorem execStageaInfo_lockstep (b : Byte) : Lockstep (execStageaInfo b s) (execStageaInfo b (s.over u)) :=
  .next (h.regs rfl rfl)

theorem stepPAwait_lockstep : Lockstep (stepPAwait s) (stepPAwait (s.over u)) := by
  refine .ite (fun _ => .next (h.regs rfl rfl)) fun ha => .ite (fun _ => ?_) fun _ => .next (h.regs rfl rfl)
  exact h.withTmp (Nat.lt_of_not_le ha) ((execStageaInfo_lockstep h _).andThen fun _ _ h => .next (h.regs rfl rfl))

theorem flushRun_lockstep : Lockstep (flushRun s) (flushRun (s.over u)) :=
  .ite (fun _ => h.emitRepeat _ _) fun _ => .next h

theorem closeIfLit_lockstep : Lockstep (closeIfLit s) (closeIfLit (s.over u)) :=
  .ite (fun _ => h.closeLiteral _) fun _ => .next h

theorem flushIfOther_lockstep : Lockstep (flushIfOther s) (flushIfOther (s.over u)) :=
  .ite (fun _ => (flushRun_lockstep h).andThen fun _ _ h => .next (h.regs rfl rfl)) fun _ => .next h

theorem openRun_lockstep : Lockstep (.next (openRun s)) (.next (openRun (s.over u))) := by
  by_cases hm : s.mode ≠ .run
  · rw [openRun, openRun, if_pos hm, if_pos (show (s.over u).mode ≠ .run from hm)]
    exact .next (h.regs rfl rfl)
  · rw [openRun, openRun, if_neg hm, if_neg (show ¬(s.over u).mode ≠ .run from hm)]
    exact .next h

theorem stepPRunUnit_lockstep (ha : s.a + 1 < s.tmplen.toNat) :
    Lockstep (stepPRunUnit s) (stepPRunUnit (s.over u)) := by
  refine h.withTmp (Nat.lt_of_succ_lt ha) (h.withTmp ha (.andThen (closeIfLit_lockstep (h.regs rfl rfl)) ?_))
  refine fun s1 _ h => (flushIfOther_lockstep h).andThen fun s2 u2 h => ?_
  exact (openRun_lockstep h).andThen (f := fun t => .next { t with rc := t.rc + s2.r, fsm := .pOvf })
    (f' := fun t => .next { t with rc := t.rc + s2.r, fsm := .pOvf }) fun _ _ h => .next (h.regs rfl rfl)

theorem flushIfRun_lockstep : Lockstep (flushIfRun s) (flushIfRun (s.over u)) :=
  .ite (fun _ => (flushRun_lockstep h).andThen fun _ _ h => .next (h.regs rfl rfl)) fun _ => .next h

theorem openLit_lockstep : Lockstep (openLit s) (openLit (s.over u)) :=
  .ite (fun _ => (Alike.emit (s := { s with hdr := s.out }) (h.regs rfl rfl) _).andThen
    fun _ _ h => .next (h.regs rfl rfl)) fun _ => .next h

theorem appendLit_lockstep : Lockstep (appendLit s) (appendLit (s.over u)) :=
  (h.emit _).andThen fun t _ h =>
    .ite (fun _ => Alike.closeLiteral (s := { t with lc := t.lc + 1 }) (h.regs rfl rfl) _) fun _ => .next (h.regs rfl rfl)

theorem stepPLitUnit_lockstep (ha : s.a < s.tmplen.toNat) :
    Lockstep (stepPLitUnit s) (stepPLitUnit (s.over u)) := by
  refine h.withTmp ha (.andThen (flushIfRun_lockstep (h.regs rfl rfl)) fun _ _ h => ?_)
  exact (openLit_lockstep h).andThen fun _ _ h => (appendLit_lockstep h).andThen fun _ _ h => .next (h.regs rfl rfl)

theorem stepPUnit_lockstep (hp : s.params.ok) (hs : s.StageBBounds) (hk : s.k < 8) (ha : s.a < s.tmplen.toNat) :
    Lockstep (stepPUnit s) (stepPUnit (s.over u)) := by
  obtain ⟨rest, hpack, -⟩ := Packing.of_stageBBounds hp hs
  exact .ite (fun hbit => stepPRunUnit_lockstep h (hpack.read_run hk ha hbit).1) fun _ => stepPLitUnit_lockstep h ha

/-- Stated for any count: for the literal 127 `rfl` would unfold the subtraction. -/
theorem takeRepeats_lockstep (c : Nat) :
    Lockstep (.next { s with rc := s.rc - c }) (.next { s.over u with rc := (s.over u).rc - c }) := .next (h.regs rfl rfl)

theorem stepPOvf_lockstep : Lockstep (stepPOvf s) (stepPOvf (s.over u)) := by
  have hfull : Lockstep (execPacksegRepeat 127#7 s.rv s) (execPacksegRepeat 127#7 s.rv (s.over u)) := by
    rw [execPacksegRepeat_of_ne (by decide), execPacksegRepeat_of_ne (by decide)]
    exact h.emitRepeat _ _
  exact .ite (fun _ => hfull.andThen fun _ _ h => takeRepeats_lockstep h 127) fun _ => .next (h.regs rfl rfl)

theorem stepPEnd_lockstep : Lockstep (stepPEnd s) (stepPEnd (s.over u)) :=
  .andThen (.ite (fun _ => flushRun_lockstep h) fun _ => .next h) fun _ _ h =>
    (closeIfLit_lockstep h).andThen fun _ _ h => .next (h.regs rfl rfl)

theorem raise_lockstep (e : ErrCode) : Lockstep (.next (s.raise e)) (.next ((s.over u).raise e)) := by
  refine .next (h.within rfl ?_ ?_) <;> intro j hj <;> simp at hj <;> exact .inl hj

theorem complete_lockstep : Lockstep (.next s.complete) (.next (s.over u).complete) := by
  refine .next (h.within rfl (fun _ => id) fun j hj => ?_)
  have : (BitVec.ofNat 32 s.out).toNat ≤ s.out := (BitVec.toNat_ofNat s.out 32).trans_le (Nat.mod_le _ _)
  simp only [State.complete_out, State.complete_outlen] at hj
  omega

theorem stepDecode_lockstep : Lockstep (stepDecode s) (stepDecode (s.over u)) := by
  rw [stepDecode, stepDecode, show (s.over u).cmd = s.cmd from rfl]
  cases decodeCommand s.cmd with
  | error e => exact raise_lockstep h _
  | ok i => exact .ite (fun _ => raise_lockstep h _) fun _ => .next (h.regs rfl rfl)

end

/-- From a state that meets the bounds an engine step reads nothing in which the two states may differ. -/
theorem engineStep_lockstep {s u : State} (hb : s.BoundsOk) (h : Alike s u) :
    Lockstep (engineStep s) (engineStep (s.over u)) := by
  obtain ⟨hp, hs⟩ := hb
  have nibble (hn : s.NibBounds) : LegalWidth s.w := by
    obtain ⟨-, hw, -, -⟩ := hn
    omega
  have byte (hw : s.w = 8) : LegalWidth s.w := .inr (.inr (.inr hw))
  have hf' : (s.over u).fsm = s.fsm := rfl
  cases hf : s.fsm <;> simp only [hf] at hs <;> simp only [engineStep, hf', hf]
  case idle => exact .next h
  case decode => exact stepDecode_lockstep h
  case nHead => exact stepNHead_lockstep h (nibble hs)
  case nScan =>
    obtain ⟨hn, -⟩ := hs
    exact stepNScan_lockstep h (nibble hn)
  case nEmit => exact stepNEmit_lockstep h
  case bHead =>
    obtain ⟨-, hw, -⟩ := hs
    exact stepBHead_lockstep h (byte hw)
  case bScan =>
    obtain ⟨⟨-, hw, -⟩, -⟩ := hs
    exact stepBScan_lockstep h (byte hw)
  case bEmit => exact stepBEmit_lockstep h
  case aHead =>
    obtain ⟨-, hw, -⟩ := hs
    exact stepAHead_lockstep h (byte hw)
  case aScan =>
    obtain ⟨⟨-, hw, -⟩, -⟩ := hs
    exact stepAScan_lockstep h (byte hw)
  case aEmit => exact stepAEmit_lockstep h
  case aEnd => exact stepAEnd_lockstep h
  case pAwait => exact stepPAwait_lockstep h
  case pUnit =>
    obtain ⟨hb, -, hk, ha⟩ := hs
    exact stepPUnit_lockstep h hp hb hk ha
  case pOvf => exact stepPOvf_lockstep h
  case pEnd => exact stepPEnd_lockstep h
  case finish => exact complete_lockstep h

/-- Runs of the engine from two states alike end alike, and neither stops with a fault. -/
theorem runEngine_lockstep (fuel : Nat) {s u : State} (hb : s.BoundsOk) (h : Alike s u) :
    ∃ t v, runEngine fuel s = .next t ∧ runEngine fuel (s.over u) = .next (t.over v) ∧ Alike t v := by
  induction fuel generalizing s u with
  | zero => exact ⟨s, u, rfl, rfl, h⟩
  | succ fuel ih =>
    by_cases hidle : s.fsm = .idle
    · exact ⟨s, u, runEngine_idle _ hidle, runEngine_idle _ hidle, h⟩
    · obtain ⟨t, ht, hbt⟩ := engineStep_bounds hb
      obtain ⟨v, hv, hal⟩ := engineStep_lockstep hb h t ht
      rw [runEngine, runEngine, if_neg hidle, if_neg (show (s.over u).fsm ≠ .idle from hidle), ht, hv, andThen_of_next,
        andThen_of_next]
      exact ih hbt hal

/-- Acceptance of a word leaves two blocks with the same parameters, `LEN` and stream bytes alike: everything else
it sets anew (R32), and an invalid group register is never used (R102). -/
theorem alike_accept {s u : State} {c : Word}
    (hsrc : ∀ g, g < (s.lenReg.toNat * cmdBW c + 7) / 8 → u.byteAt .src g = s.byteAt .src g) :
    Alike { s.accept c with turns := [] } u := by
  refine ⟨hsrc, nofun, fun j hj => ?_, fun j hj => ?_⟩ <;> simp at hj

theorem accept_over {s u : State} (c : Word) (hp : u.params = s.params) (hlen : u.lenReg = s.lenReg) :
    { u.accept c with turns := [] } = ({ s.accept c with turns := [] } : State).over u := by
  simp only [State.accept, State.over, hp, hlen]

theorem Alike.result {s u : State} (h : Alike s u) : (s.over u).result = s.result := by
  have hbuf : (s.over u).encodedBuffer = s.encodedBuffer :=
    bytesOf_congr fun i hi => (byteAt_over s u .dst i).trans (h.dst i (.inr hi))
  rw [State.result, State.result, hbuf]
  rfl

/-- With nothing left to come from outside, the step after acceptance is the whole operation (R278). -/
theorem step_of_accept (s : State) (c : Word) :
    step { s.accept c with turns := [] } =
      runEngine (stepBound s.lenReg.toNat + 1) { s.accept c with turns := [] } :=
  runOperation_of_decode (s := { s.accept c with turns := [] }) rfl rfl

/-- Settles O33: accepted, the two states are alike, and the operation runs them in lockstep to its end. -/
theorem resultDependsOnTheInputAlone : Obligations.ResultDependsOnTheInputAlone := by
  intro s u c hok hp hlen hsrc
  have hb : ({ s.accept c with turns := [] } : State).BoundsOk := ⟨hok, rfl, rfl, rfl, rfl, rfl, rfl⟩
  obtain ⟨t, v, ht, hv, hal⟩ := runEngine_lockstep (stepBound s.lenReg.toNat + 1) hb (alike_accept hsrc)
  refine ⟨t, t.over v, (step_of_accept s c).trans ht, ?_, hal.result⟩
  rw [step_of_accept, hlen, accept_over c hp hlen, hv]

end Sys2Proof.Machine

namespace Sys2Proof.Machine

/-! ### The buffers' form (R31, R40), and what the engine never changes (R17, R56) -/

/-- What every engine step keeps, the rest of an operation keeps, where the width and head state a command is
dispatched with do not matter to it. -/
theorem runOperation_keeps {P : State → Prop} (hengine : ∀ s t, P s → engineStep s = .next t → P t)
    (hdispatch : ∀ s w f, P s → P { s with w := w, fsm := f }) {s t : State} (hs : P s)
    (h : runOperation s = .next t) : P t := by
  by_cases hd : s.fsm = .decode
  · rcases decode_cases hd with ⟨e, _, he, hr⟩ | ⟨i, _, _, _, hr⟩
    · cases hr.symm.trans h
      exact hengine s _ hs he
    · rw [hr] at h
      exact runEngine_keeps hengine _ _ t (hdispatch s _ _ hs) h
  · rw [runOperation, if_neg hd] at h
    exact runEngine_keeps hengine _ s t hs h

/-! #### The buffers' canonical form -/

theorem buffersWf_engineStep (s t : State) (hs : s.BuffersWf) (h : engineStep s = .next t) : t.BuffersWf := by
  rcases engineStep_cases h with ⟨_, rfl⟩ | ⟨_, hwork, _⟩ | ⟨_, rfl⟩ | ⟨_, rfl | rfl⟩
  · exact hs
  · have houter := hwork.outer
    simp only [State.outer, Prod.mk.injEq] at houter
    obtain ⟨hparams, -, -, hsrc, -⟩ := houter
    obtain ⟨hs1, hs2, hs3⟩ := hs
    exact ⟨by rw [hparams, hsrc]; exact hs1, hwork.tmp hs2, hwork.dst hs3⟩
  · exact hs
  · exact hs
  · exact hs

theorem HostEffect.buffersWf {s t : State} (h : HostEffect s t) (hs : s.BuffersWf) : t.BuffersWf := by
  cases h with
  | read => exact hs
  | accept => exact hs
  | writeLen => exact hs
  | writeSrc i b _ room =>
    obtain ⟨hsrc, hrest⟩ := hs
    exact ⟨Memory.good_write hsrc room b, hrest⟩
  | reset =>
    have empty (cap : Nat) : Memory.good cap [] := ⟨List.Pairwise.nil, nofun⟩
    exact ⟨empty _, empty _, empty _⟩

/-- Settles O51: a store keeps the form and is made below the capacity only, by the host as by the engine. -/
theorem stepKeepsBuffersCanonical : Obligations.StepKeepsBuffersCanonical := fun _ _ =>
  step_keeps (fun _ _ hs => hs) (fun m s hs => (hostMove_effect m s).buffersWf hs) buffersWf_engineStep
    fun _ _ => runOperation_keeps buffersWf_engineStep fun _ _ _ hs => hs

/-! #### The engine's inputs -/

/-- What the engine never changes. -/
def State.frame (s : State) := (s.params, s.cmd, s.lenReg, s.n, s.src, s.turns, s.rdata, s.draws, s.epoch)

theorem frame_engineStep {s t : State} (h : engineStep s = .next t) : t.frame = s.frame := by
  rcases engineStep_cases h with ⟨_, rfl⟩ | ⟨_, hwork, _⟩ | ⟨_, rfl⟩ | ⟨_, rfl | rfl⟩
  · rfl
  · have houter := hwork.outer
    simp only [State.outer, Prod.mk.injEq] at houter
    obtain ⟨hparams, hcmd, hlen, hsrc, hturns, hrdata, hdraws, hepoch, hn, -⟩ := houter
    simp only [State.frame, hparams, hcmd, hlen, hsrc, hturns, hrdata, hdraws, hepoch, hn]
  · rfl
  · rfl
  · rfl

theorem frame_runEngine {fuel : Nat} {s t : State} (h : runEngine fuel s = .next t) : t.frame = s.frame :=
  runEngine_keeps (P := fun u => u.frame = s.frame) (fun _ _ hu hstep => (frame_engineStep hstep).trans hu) fuel s t rfl h

theorem frame_runOperation {s t : State} (h : runOperation s = .next t) : t.frame = s.frame :=
  runOperation_keeps (P := fun u => u.frame = s.frame) (fun _ _ hu hstep => (frame_engineStep hstep).trans hu)
    (fun _ _ _ hu => hu) rfl h

theorem frame_operate {w : Nat} {head : Fsm} {s t : State} (h : operate w head s = .next t) : t.frame = s.frame := by
  unfold operate at h
  split at h
  · cases h
    rfl
  · exact (frame_runEngine h).trans rfl

/-- Settles O30: a command is an operation, of which no step changes the frame. -/
theorem commandFrame : Obligations.CommandFrame := by
  intro i s t hi h
  have hframe : t.frame = s.frame := by
    cases i with
    | encN1 => exact frame_operate h
    | encN2 => exact frame_operate h
    | encN4 => exact frame_operate h
    | encB8 => exact frame_operate h
    | encA8 => exact frame_operate h
    | nibrec => cases hi
    | byterec => cases hi
    | packsegRepeat => cases hi
    | packsegLiteral => cases hi
    | stageaInfo => cases hi
  simp only [State.frame, Prod.mk.injEq] at hframe
  obtain ⟨hparams, hcmd, hlen, hn, hsrc, hturns, hrdata, hdraws, hepoch⟩ := hframe
  exact ⟨hcmd, hlen, hn, hparams, hturns, hrdata, hdraws, hepoch, byteAt_of_buf hsrc hepoch⟩

theorem HostEffect.params {s t : State} (h : HostEffect s t) : t.params = s.params := by
  cases h <;> rfl

/-- No step of host or engine changes the parameters (R4). -/
theorem step_params {s t : State} (h : step s = .next t) : t.params = s.params :=
  step_keeps (P := fun u => u.params = s.params) (fun _ _ hu => hu)
    (fun m u hu => (hostMove_effect m u).params.trans hu)
    (fun _ _ hu hstep => (congrArg Prod.fst (frame_engineStep hstep)).trans hu)
    (fun _ _ hu hrest => (congrArg Prod.fst (frame_runOperation hrest)).trans hu) rfl h

/-- A step in which the engine moves keeps the frame, but for the turn it takes. -/
theorem frame_step {s t : State} {ts : List Turn}
    (hturn : s.turns = .engine :: ts ∨ s.turns = .operation :: ts ∨ (s.turns = [] ∧ ts = [])) (h : step s = .next t) :
    t.frame = ({ s with turns := ts } : State).frame := by
  unfold step nextTurn at h
  rcases hturn with hturn | hturn | ⟨hturn, rfl⟩ <;> rw [hturn] at h
  · exact frame_engineStep h
  · exact frame_runOperation h
  · exact (frame_runOperation h).trans (by simp only [State.frame, hturn])

/-- Settles O55: the parameters are kept by every move of host and engine, the rest is part of the frame. -/
theorem engineKeepsItsInputs : Obligations.EngineKeepsItsInputs := by
  refine ⟨fun _ _ => step_params, fun s t ts hturn h => ?_⟩
  have hframe := frame_step hturn h
  simp only [State.frame, Prod.mk.injEq] at hframe
  obtain ⟨-, hcmd, hlen, -, hsrc, hturns, -⟩ := hframe
  exact ⟨hcmd, hlen, hsrc, hturns⟩

end Sys2Proof.Machine

namespace Sys2Proof.Machine

/-! ### Where a sample lies in SRC (R42, R46, R101) -/

/-- How far a lane is shifted down in its byte (R42). -/
def laneShift (msbFirst : Bool) (w j : Nat) : Nat := if msbFirst then 8 - w * (j + 1) else w * j

/-- A lane is `w` bits of its byte, from the lane's shift on. -/
theorem getLsbD_laneOf (msbFirst : Bool) (w j : Nat) (b : Byte) {k : Nat} (hk : k < 8) :
    (laneOf msbFirst w j b).getLsbD k = (decide (k < w) && b.getLsbD (laneShift msbFirst w j + k)) := by
  rw [laneOf, BitVec.getLsbD_and, BitVec.getLsbD_ushiftRight, BitVec.getLsbD_ofNat, Nat.testBit_two_pow_sub_one,
    decide_eq_true hk, Bool.true_and, Bool.and_comm, laneShift]

/-- Settles O35: a sample is the lane `i mod (8/w)` of byte `i div (8/w)`. -/
theorem sampleBits : Obligations.SampleBits := by
  intro s w i b _ hb
  rw [State.sample, getLsbD_laneOf _ _ _ _ hb, laneShift, ite_add]
  rfl

/-- Bit `b` of sample `i` is one of the first `n*w` bits of the packed stream, counted in the packing order (R42,
R46). -/
theorem sampleBit_in_stream {w n i b : Nat} (msbFirst : Bool) (hw : LegalWidth w) (hi : i < n) (hb : b < w) :
    ∃ p, p < n * w ∧ p / 8 = i / samplesPerByte w ∧
      (if msbFirst ∧ w ≠ 8 then 7 - p % 8 else p % 8) = laneShift msbFirst w (i % samplesPerByte w) + b := by
  cases msbFirst
  · refine ⟨i * w + b, ?_⟩
    rcases hw with rfl | rfl | rfl | rfl <;> simp [laneShift, samplesPerByte] <;> omega
  · refine ⟨if w = 8 then i * w + b else i * w + (w - 1 - b), ?_⟩
    rcases hw with rfl | rfl | rfl | rfl <;> simp [laneShift, samplesPerByte] <;> omega

/-- Settles O36: each bit of each sample is a bit of the stream. -/
theorem paddingBitsAreNeverRead : Obligations.PaddingBitsAreNeverRead := by
  intro s u w n hw hp hbits
  refine stream_congr fun i hi => BitVec.eq_of_getLsbD_eq fun b hb => ?_
  rw [State.sample, State.sample, hp, getLsbD_laneOf _ _ _ _ hb, getLsbD_laneOf _ _ _ _ hb]
  by_cases hbw : b < w
  · obtain ⟨p, hp, hbyte, hbit⟩ := sampleBit_in_stream s.params.packMsbFirst hw hi hbw
    rw [← hbyte, ← hbit, hbits p hp]
  · simp [hbw]

end Sys2Proof.Machine

namespace Sys2Proof.Machine

/-! ### What an engine step does to the cursors and the buffers, said once

How soon an operation ends (R283) and which bytes it stores (R49, R50) are both read off `EngineEffect`. -/

/-- The append position moves from `i` to `j`, and from there on the buffer reads as before. -/
structure Memory.Grows (i j : Nat) (m m' : Memory) : Prop where
  le : i ≤ j
  same : ∀ x, j ≤ x → Memory.read m' x = Memory.read m x

theorem Memory.Grows.refl (i : Nat) (m : Memory) : Memory.Grows i i m m := ⟨Nat.le_refl i, fun _ _ => rfl⟩

theorem Memory.Grows.trans {i j k : Nat} {m m' m'' : Memory} (h : Memory.Grows i j m m')
    (h' : Memory.Grows j k m' m'') : Memory.Grows i k m m'' :=
  ⟨h.le.trans h'.le, fun x hx => (h'.same x hx).trans (h.same x (h'.le.trans hx))⟩

theorem Memory.Grows.append (i : Nat) (m : Memory) (b : Byte) : Memory.Grows i (i + 1) m (Memory.write m i b) :=
  ⟨Nat.le_succ i, fun _ hx => Memory.read_write_other m b (Nat.ne_of_gt hx)⟩

/-- A store below the append position. -/
theorem Memory.Grows.patch {x i : Nat} (h : x < i) (m : Memory) (b : Byte) :
    Memory.Grows i i m (Memory.write m x b) :=
  ⟨Nat.le_refl i, fun _ hy => Memory.read_write_other m b (Nat.ne_of_gt (Nat.lt_of_lt_of_le h hy))⟩

theorem Ends.withSample {P : State → Prop} {i : Nat} {s : State} {f : Byte → State → Out}
    (h : ∀ x grp gidx gv, Ends P (f x { s with grp := grp, gidx := gidx, gv := gv })) : Ends P (withSample i s f) := by
  intro t ht
  obtain ⟨x, grp, gidx, gv, ht⟩ := withSample_next ht
  exact h x grp gidx gv t ht

theorem Ends.scan {P : State → Prop} {below : Bool} {i : Nat} {x : Byte} {again leave : State → State} {s : State}
    (hleave : ∀ grp gidx gv, P (leave { s with grp := grp, gidx := gidx, gv := gv }))
    (hagain : i < s.n → ∀ grp gidx gv, P (again { s with grp := grp, gidx := gidx, gv := gv })) :
    Ends P (scan below i x again leave s) := by
  intro t ht
  rcases scan_next ht with ⟨grp, gidx, gv, rfl⟩ | ⟨_, hi, grp, gidx, gv, rfl⟩
  · exact hleave grp gidx gv
  · exact hagain hi grp gidx gv

/-! #### The parts of A_EMIT and A_END (R164-R166) -/

/-- An open batch's info byte lies below the append position. -/
theorem State.StageALaid.slot_lt {s : State} (h : s.StageALaid) (hk : 0 < s.k) : s.ip < s.t := by
  obtain ⟨closed, batch, hc, -, -, hfits, hsamples, hbytes, hopen⟩ := h
  obtain ⟨hip, hinfo⟩ := hopen hk
  rw [if_neg (Nat.ne_of_gt hk)] at hbytes
  have hbatch : BatchOpen s closed batch := ⟨hc, hfits, hsamples, hbytes, hip, hinfo⟩
  have := hbatch.append_position
  omega

theorem openBatch_next {s t : State} (hslot : 0 < s.k → s.ip < s.t) (h : openBatch s = .next t) :
    ∃ tmp t' ip info, t = { s with tmp := tmp, t := t', ip := ip, info := info } ∧
      Memory.Grows s.t t' s.tmp tmp ∧ ip < t' := by
  unfold openBatch at h
  split at h
  · obtain ⟨u, hu, h⟩ := andThen_next.mp h
    obtain ⟨-, rfl⟩ := tmpAppend_next.mp hu
    cases h
    exact ⟨_, _, _, _, rfl, .append _ _ _, Nat.lt_succ_self _⟩
  · cases h
    exact ⟨s.tmp, s.t, s.ip, s.info, rfl, .refl _ _, hslot (by omega)⟩

theorem placeUnit_next {s t : State} (h : placeUnit s = .next t) :
    ∃ tmp t' info, t = { s with tmp := tmp, t := t', info := info, pos := s.pos + if 2 < s.r then s.r else 1 } ∧
      Memory.Grows s.t t' s.tmp tmp := by
  unfold placeUnit at h
  split at h
  · rename_i hr
    obtain ⟨u, hu, h⟩ := andThen_next.mp h
    obtain ⟨v, hv, h⟩ := andThen_next.mp h
    obtain ⟨-, rfl⟩ := tmpAppend_next.mp hu
    obtain ⟨-, rfl⟩ := tmpAppend_next.mp hv
    cases h
    rw [if_pos hr]
    exact ⟨_, _, _, rfl, (Memory.Grows.append _ _ _).trans (.append _ _ _)⟩
  · rename_i hr
    obtain ⟨u, hu, h⟩ := andThen_next.mp h
    obtain ⟨-, rfl⟩ := tmpAppend_next.mp hu
    cases h
    rw [if_neg hr]
    exact ⟨_, _, s.info, rfl, .append _ _ _⟩

/-- The info byte's back-patch, of A_EMIT's eighth unit and of A_END. -/
theorem backPatch_next {s t : State} (hslot : s.ip < s.t) (h : bufWrite .tmp s.ip s.info s = .next t) :
    ∃ tmp, t = { s with tmp := tmp } ∧ Memory.Grows s.t s.t s.tmp tmp := by
  obtain ⟨-, rfl⟩ := bufWrite_next.mp h
  exact ⟨_, rfl, .patch hslot _ _⟩

theorem countUnit_next {s t : State} (hslot : s.ip < s.t) (h : countUnit s = .next t) :
    ∃ tmp k, t = { s with tmp := tmp, k := k } ∧ Memory.Grows s.t s.t s.tmp tmp := by
  unfold countUnit at h
  split at h
  · obtain ⟨u, hu, h⟩ := andThen_next.mp h
    obtain ⟨tmp, rfl, hgrows⟩ := backPatch_next hslot hu
    cases h
    exact ⟨tmp, 0, rfl, hgrows⟩
  · cases h
    exact ⟨s.tmp, s.k + 1, rfl, .refl _ _⟩

theorem flushBatch_next {s t : State} (hslot : 0 < s.k → s.ip < s.t)
    (h : (if 0 < s.k then bufWrite .tmp s.ip s.info s else .next s) = .next t) :
    ∃ tmp, t = { s with tmp := tmp } ∧ Memory.Grows s.t s.t s.tmp tmp := by
  split at h
  · rename_i hk
    exact backPatch_next (hslot hk) h
  · cases h
    exact ⟨s.tmp, rfl, .refl _ _⟩

/-! #### The parts of P_UNIT and P_END (R171, R172, R175) -/

/-- Stage B emits: what it reads stays, DST grows, and the control byte of an open literal segment is one of the bytes
appended. -/
structure Emits (s t : State) : Prop where
  reading : t.reading = s.reading
  dst : Memory.Grows s.out t.out s.dst t.dst
  lit : t.mode = .lit → t.hdr < t.out

theorem Emits.refl {s : State} (h : s.mode = .lit → s.hdr < s.out) : Emits s s := ⟨rfl, .refl _ _, h⟩

theorem Emits.regs {s s' t : State} (h : Emits s s')
    (hsame : (t.reading, t.out, t.dst) = (s'.reading, s'.out, s'.dst)) (hlit : t.mode = .lit → t.hdr < t.out) :
    Emits s t := by
  simp only [Prod.mk.injEq] at hsame
  obtain ⟨hreading, hout, hdst⟩ := hsame
  exact ⟨hreading.trans h.reading, by rw [hout, hdst]; exact h.dst, hlit⟩

theorem Emits.emit {s s' : State} (h : Emits s s') (b : Byte) :
    Ends (fun t => Emits s t ∧ (s'.hdr ≤ s'.out → t.hdr < t.out)) (emit b s') := by
  intro t ht
  obtain ⟨-, rfl⟩ := emit_next.mp ht
  exact ⟨⟨h.reading, h.dst.trans (.append _ _ _), fun hm => Nat.lt_succ_of_lt (h.lit hm)⟩, Nat.lt_succ_of_le⟩

theorem Emits.emitRepeat {s s' : State} (h : Emits s s') (c : Nat) (v : Byte) : Ends (Emits s) (emitRepeat c v s') :=
  (h.emit _).andThen fun _ ⟨h, _⟩ t ht => (h.emit _ t ht).1

theorem Emits.closeLiteral {s s' : State} (h : Emits s s') (hhdr : s'.hdr < s'.out) (c : Nat) :
    Ends (Emits s) (closeLiteral c s') := by
  intro t ht
  obtain ⟨-, rfl⟩ := closeLiteral_next.mp ht
  exact ⟨h.reading, h.dst.trans (.patch hhdr _ _), nofun⟩

section
variable {s s' : State} (h : Emits s s')
include h

theorem closeIfLit_emits : Ends (Emits s) (closeIfLit s') :=
  .ite (fun hm => h.closeLiteral (h.lit hm) _) fun _ => .next h

theorem flushRun_emits : Ends (Emits s) (flushRun s') := .ite (fun _ => h.emitRepeat _ _) fun _ => .next h

theorem flushIfOther_emits : Ends (Emits s) (flushIfOther s') :=
  .ite (fun _ => (flushRun_emits h).andThen fun _ h => .next (h.regs rfl nofun)) fun _ => .next h

theorem openRun_emits : Emits s (openRun s') := by
  unfold openRun
  split
  · exact h.regs rfl nofun
  · exact h

theorem flushIfRun_emits : Ends (Emits s) (flushIfRun s') :=
  .ite (fun _ => (flushRun_emits h).andThen fun _ h => .next (h.regs rfl nofun)) fun _ => .next h

theorem openLit_emits : Ends (fun t => Emits s t ∧ t.hdr < t.out) (openLit s') := by
  refine .ite (fun hm => ?_) fun hm => .next ⟨h, h.lit (Decidable.not_not.mp hm)⟩
  have hopen : Emits s { s' with hdr := s'.out } := h.regs rfl fun hl => absurd hl hm
  exact (hopen.emit _).andThen fun _ ⟨h, hhdr⟩ =>
    .next ⟨h.regs rfl fun _ => hhdr (Nat.le_refl _), hhdr (Nat.le_refl _)⟩

theorem appendLit_emits (hhdr : s'.hdr < s'.out) : Ends (Emits s) (appendLit s') := by
  refine (h.emit _).andThen fun t ⟨h, hgrow⟩ => ?_
  have hcount : Emits s { t with lc := t.lc + 1 } := h.regs rfl h.lit
  exact .ite (fun _ => hcount.closeLiteral (hgrow hhdr.le) _) fun _ => .next hcount

end

/-- P_UNIT emits from the state in which it has read a run unit. -/
theorem stepPRunUnit_emits {s : State} (hlit : s.mode = .lit → s.hdr < s.out) :
    Ends (fun t => Emits { s with a := s.a + 2, k := s.k + 1 } t ∧ t.fsm = .pOvf) (stepPRunUnit s) := by
  refine .withByte fun count => .withByte fun value => ?_
  have hread : Emits { s with a := s.a + 2, k := s.k + 1 }
      { s with r := count.toNat, v := value, a := s.a + 2, k := s.k + 1 } := ⟨rfl, .refl _ _, hlit⟩
  refine (closeIfLit_emits hread).andThen fun _ h => (flushIfOther_emits h).andThen fun _ h => ?_
  have hopen := openRun_emits h
  exact .next ⟨hopen.regs rfl hopen.lit, rfl⟩

/-- P_UNIT emits from the state in which it has read a literal unit. -/
theorem stepPLitUnit_emits {s : State} (hlit : s.mode = .lit → s.hdr < s.out) :
    Ends (fun t => Emits { s with a := s.a + 1, k := s.k + 1 } t ∧ t.fsm = .pAwait) (stepPLitUnit s) := by
  refine .withByte fun value => ?_
  have hread : Emits { s with a := s.a + 1, k := s.k + 1 } { s with v := value, a := s.a + 1, k := s.k + 1 } :=
    ⟨rfl, .refl _ _, hlit⟩
  refine (flushIfRun_emits hread).andThen fun _ h => (openLit_emits h).andThen fun _ ⟨h, hhdr⟩ => ?_
  exact (appendLit_emits h hhdr).andThen fun _ h => .next ⟨h.regs rfl h.lit, rfl⟩

theorem stepPEnd_emits {s : State} (hlit : s.mode = .lit → s.hdr < s.out) :
    Ends (fun t => Emits s t ∧ t.fsm = .finish) (stepPEnd s) := by
  have hflush : Ends (Emits s) (if s.mode = .run then flushRun s else .next s) :=
    .ite (fun _ => flushRun_emits (.refl hlit)) fun _ => .next (.refl hlit)
  exact hflush.andThen fun _ h => (closeIfLit_emits h).andThen fun _ h => .next ⟨h.regs rfl nofun, rfl⟩

/-! #### The whole engine -/

/-- What an engine step does. The nibble and the byte encoder share their constructors. -/
inductive EngineEffect (s : State) : State → Prop
  /-- IDLE. -/
  | rest (hf : s.fsm = .idle) : EngineEffect s s
  /-- DECODE, an error entered (R202, R204). -/
  | refuse (hf : s.fsm = .decode) (e : ErrCode) : EngineEffect s (s.raise e)
  /-- DECODE, the dispatch (R205). -/
  | dispatch (hf : s.fsm = .decode) (i : Instr) (hi : decodeCommand s.cmd = .ok i) :
      EngineEffect s { s with fsm := headOf i }
  /-- N_HEAD, B_HEAD at the stream's end. -/
  | drained (hf : s.fsm = .nHead ∨ s.fsm = .bHead) : EngineEffect s { s with fsm := .finish }
  /-- N_HEAD, B_HEAD: a run begins. -/
  | latched (f : Fsm) (hf : s.fsm = .nHead ∧ f = .nScan ∨ s.fsm = .bHead ∧ f = .bScan) (cur grp gidx gv) :
      EngineEffect s { s with cur := cur, len := 0, fsm := f, grp := grp, gidx := gidx, gv := gv }
  /-- N_SCAN, B_SCAN: one more sample. -/
  | counted (hf : s.fsm = .nScan ∨ s.fsm = .bScan) (hin : s.pos + 1 + s.len < s.n) (grp gidx gv) :
      EngineEffect s { s with len := s.len + 1, grp := grp, gidx := gidx, gv := gv }
  /-- N_SCAN, B_SCAN: the run ends. -/
  | left (f : Fsm) (hf : s.fsm = .nScan ∧ f = .nEmit ∨ s.fsm = .bScan ∧ f = .bEmit) (grp gidx gv) :
      EngineEffect s { s with fsm := f, grp := grp, gidx := gidx, gv := gv }
  /-- N_EMIT, B_EMIT. -/
  | recorded (f : Fsm) (hf : s.fsm = .nEmit ∧ f = .nHead ∨ s.fsm = .bEmit ∧ f = .bHead) (dst out)
      (hdst : Memory.Grows s.out out s.dst dst) :
      EngineEffect s { s with dst := dst, out := out, pos := s.pos + s.len + 1, fsm := f }
  /-- A_HEAD at the stream's end. -/
  | aDrained (hf : s.fsm = .aHead) : EngineEffect s { s with fsm := .aEnd }
  /-- A_HEAD: a run begins. -/
  | aLatched (hf : s.fsm = .aHead) (v grp gidx gv) :
      EngineEffect s { s with v := v, r := 1, fsm := .aScan, grp := grp, gidx := gidx, gv := gv }
  /-- A_SCAN: one more sample. -/
  | aCounted (hf : s.fsm = .aScan) (hin : s.pos + s.r < s.n) (grp gidx gv) :
      EngineEffect s { s with r := s.r + 1, grp := grp, gidx := gidx, gv := gv }
  /-- A_SCAN: the run ends. -/
  | aLeft (hf : s.fsm = .aScan) (grp gidx gv) :
      EngineEffect s { s with fsm := .aEmit, grp := grp, gidx := gidx, gv := gv }
  /-- A_EMIT. -/
  | placed (hf : s.fsm = .aEmit) (tmp t ip info k) (htmp : Memory.Grows s.t t s.tmp tmp) :
      EngineEffect s { s with
        tmp := tmp, t := t, ip := ip, info := info, k := k, pos := s.pos + if 2 < s.r then s.r else 1, fsm := .aHead }
  /-- A_END. -/
  | turned (hf : s.fsm = .aEnd) (tmp) (htmp : Memory.Grows s.t s.t s.tmp tmp) :
      EngineEffect s { s with
        tmp := tmp, tmplen := BitVec.ofNat 32 s.t, a := 0, k := 8, mode := .none, rc := 0, lc := 0, out := 0
        fsm := .pAwait }
  /-- P_AWAIT at the end of Stage A's buffer. -/
  | exhausted (hf : s.fsm = .pAwait) : EngineEffect s { s with fsm := .pEnd }
  /-- P_AWAIT: an info byte is read. -/
  | opened (hf : s.fsm = .pAwait) (info) :
      EngineEffect s { s with info := info, a := s.a + 1, k := 0, fsm := .pUnit }
  /-- P_AWAIT in an open batch. -/
  | awaited (hf : s.fsm = .pAwait) : EngineEffect s { s with fsm := .pUnit }
  /-- P_UNIT, a run unit. -/
  | run (hf : s.fsm = .pUnit) (t : State) (h : Emits { s with a := s.a + 2, k := s.k + 1 } t) (ht : t.fsm = .pOvf) :
      EngineEffect s t
  /-- P_UNIT, a literal unit. -/
  | lit (hf : s.fsm = .pUnit) (t : State) (h : Emits { s with a := s.a + 1, k := s.k + 1 } t) (ht : t.fsm = .pAwait) :
      EngineEffect s t
  /-- P_OVF, a full segment. -/
  | overflowed (hf : s.fsm = .pOvf) (hrc : 127 ≤ s.rc) (dst out) (hdst : Memory.Grows s.out out s.dst dst) :
      EngineEffect s { s with dst := dst, out := out, rc := s.rc - 127 }
  /-- P_OVF, no full segment. -/
  | settled (hf : s.fsm = .pOvf) : EngineEffect s { s with fsm := .pAwait }
  /-- P_END. -/
  | ended (hf : s.fsm = .pEnd) (t : State) (h : Emits s t) (ht : t.fsm = .finish) : EngineEffect s t
  /-- FINISH. -/
  | completed (hf : s.fsm = .finish) : EngineEffect s s.complete

section
variable {s : State}

theorem stepNHead_effect (hf : s.fsm = .nHead) : Ends (EngineEffect s) (stepNHead s) :=
  .ite (fun _ => .next (.drained (.inl hf))) fun _ =>
    .withSample fun x grp gidx gv => .next (.latched .nScan (.inl ⟨hf, rfl⟩) x grp gidx gv)

theorem stepBHead_effect (hf : s.fsm = .bHead) : Ends (EngineEffect s) (stepBHead s) :=
  .ite (fun _ => .next (.drained (.inr hf))) fun _ =>
    .withSample fun x grp gidx gv => .next (.latched .bScan (.inr ⟨hf, rfl⟩) x grp gidx gv)

theorem stepNScan_effect (hf : s.fsm = .nScan) : Ends (EngineEffect s) (stepNScan s) :=
  .scan (.left .nEmit (.inl ⟨hf, rfl⟩)) (.counted (.inl hf))

theorem stepBScan_effect (hf : s.fsm = .bScan) : Ends (EngineEffect s) (stepBScan s) :=
  .scan (.left .bEmit (.inr ⟨hf, rfl⟩)) (.counted (.inr hf))

theorem stepNEmit_effect (hf : s.fsm = .nEmit) (hlen : s.len ≤ 15) : Ends (EngineEffect s) (stepNEmit s) := by
  intro t ht
  obtain ⟨u, hu, ht⟩ := andThen_next.mp ht
  obtain ⟨v, hv, hu⟩ := andThen_next.mp hu
  obtain ⟨-, rfl⟩ := emit_next.mp hv
  cases hu
  cases ht
  have hnat : (BitVec.ofNat 4 s.len).toNat = s.len := by simp; omega
  rw [hnat]
  exact .recorded .nHead (.inl ⟨hf, rfl⟩) _ _ (.append _ _ _)

theorem stepBEmit_effect (hf : s.fsm = .bEmit) (hlen : s.len ≤ 255) : Ends (EngineEffect s) (stepBEmit s) := by
  intro t ht
  obtain ⟨u, hu, ht⟩ := andThen_next.mp ht
  obtain ⟨v, hv, hu⟩ := andThen_next.mp hu
  obtain ⟨-, rfl⟩ := emit_next.mp hv
  obtain ⟨v', hv', hu⟩ := andThen_next.mp hu
  obtain ⟨-, rfl⟩ := emit_next.mp hv'
  cases hu
  cases ht
  have hnat : (BitVec.ofNat 8 s.len).toNat = s.len := by simp; omega
  rw [hnat]
  exact .recorded .bHead (.inr ⟨hf, rfl⟩) _ _ ((Memory.Grows.append _ _ _).trans (.append _ _ _))

theorem stepAHead_effect (hf : s.fsm = .aHead) : Ends (EngineEffect s) (stepAHead s) :=
  .ite (fun _ => .next (.aDrained hf)) fun _ => .withSample fun x grp gidx gv => .next (.aLatched hf x grp gidx gv)

theorem stepAScan_effect (hf : s.fsm = .aScan) : Ends (EngineEffect s) (stepAScan s) := .scan (.aLeft hf) (.aCounted hf)

theorem stepAEmit_effect (hf : s.fsm = .aEmit) (hlaid : s.StageALaid) : Ends (EngineEffect s) (stepAEmit s) := by
  intro t ht
  obtain ⟨u, hu, ht⟩ := andThen_next.mp ht
  obtain ⟨tmp1, t1, ip, info1, rfl, h1, hslot⟩ := openBatch_next hlaid.slot_lt hu
  obtain ⟨u, hu, ht⟩ := andThen_next.mp ht
  obtain ⟨tmp2, t2, info2, rfl, h2⟩ := placeUnit_next hu
  obtain ⟨u, hu, ht⟩ := andThen_next.mp ht
  obtain ⟨tmp3, k, rfl, h3⟩ := countUnit_next (Nat.lt_of_lt_of_le hslot h2.le) hu
  cases ht
  exact .placed hf tmp3 t2 ip info2 k ((h1.trans h2).trans h3)

theorem stepAEnd_effect (hf : s.fsm = .aEnd) (hlaid : s.StageALaid) : Ends (EngineEffect s) (stepAEnd s) := by
  intro t ht
  obtain ⟨u, hu, ht⟩ := andThen_next.mp ht
  obtain ⟨tmp, rfl, h⟩ := flushBatch_next hlaid.slot_lt hu
  cases ht
  exact .turned hf tmp h

theorem stepPAwait_effect (hf : s.fsm = .pAwait) : Ends (EngineEffect s) (stepPAwait s) :=
  .ite (fun _ => .next (.exhausted hf)) fun _ =>
    .ite (fun _ => .withByte fun b => .next (.opened hf b)) fun _ => .next (.awaited hf)

theorem stepPUnit_effect (hf : s.fsm = .pUnit) (hlit : s.mode = .lit → s.hdr < s.out) :
    Ends (EngineEffect s) (stepPUnit s) := by
  refine .ite (fun _ t ht => ?_) fun _ t ht => ?_
  · obtain ⟨h, hf'⟩ := stepPRunUnit_emits hlit t ht
    exact .run hf t h hf'
  · obtain ⟨h, hf'⟩ := stepPLitUnit_emits hlit t ht
    exact .lit hf t h hf'

theorem stepPOvf_effect (hf : s.fsm = .pOvf) : Ends (EngineEffect s) (stepPOvf s) := by
  refine .ite (fun hrc t ht => ?_) fun _ => .next (.settled hf)
  rw [execPacksegRepeat_of_ne (by decide)] at ht
  obtain ⟨u, hu, ht⟩ := andThen_next.mp ht
  obtain ⟨-, rfl⟩ := emitRepeat_next.mp hu
  cases ht
  exact .overflowed hf hrc _ _ ((Memory.Grows.append _ _ _).trans (.append _ _ _))

theorem stepPEnd_effect (hf : s.fsm = .pEnd) (hlit : s.mode = .lit → s.hdr < s.out) :
    Ends (EngineEffect s) (stepPEnd s) := fun t ht =>
  have ⟨h, hf'⟩ := stepPEnd_emits hlit t ht
  .ended hf t h hf'

end

theorem State.StageBBounds.hdr_lt {s : State} (h : s.StageBBounds) (hm : s.mode = .lit) : s.hdr < s.out := by
  obtain ⟨-, -, -, -, hlit, -⟩ := h
  have := hlit hm
  omega

/-- From a state that meets R31's bounds every engine step is one of the effects. -/
theorem engineStep_effect {s t : State} (hb : s.BoundsOk) (h : engineStep s = .next t) : EngineEffect s t := by
  obtain ⟨-, hs⟩ := hb
  cases hf : s.fsm <;> simp only [hf] at hs
  case decode =>
    rcases decode_cases hf with ⟨e, -, he, -⟩ | ⟨i, hi, -, he, -⟩ <;> cases he.symm.trans h
    · exact .refuse hf e
    · exact .dispatch hf i hi
  all_goals simp only [engineStep, hf] at h
  case idle =>
    cases h
    exact .rest hf
  case nHead => exact stepNHead_effect hf t h
  case nScan => exact stepNScan_effect hf t h
  case nEmit =>
    obtain ⟨-, hlen, -⟩ := hs
    exact stepNEmit_effect hf hlen t h
  case bHead => exact stepBHead_effect hf t h
  case bScan => exact stepBScan_effect hf t h
  case bEmit =>
    obtain ⟨-, hlen, -⟩ := hs
    exact stepBEmit_effect hf hlen t h
  case aHead => exact stepAHead_effect hf t h
  case aScan => exact stepAScan_effect hf t h
  case aEmit =>
    obtain ⟨⟨-, -, -, -, hlaid⟩, -⟩ := hs
    exact stepAEmit_effect hf hlaid t h
  case aEnd =>
    obtain ⟨⟨-, -, -, -, hlaid⟩, -⟩ := hs
    exact stepAEnd_effect hf hlaid t h
  case pAwait => exact stepPAwait_effect hf t h
  case pUnit =>
    obtain ⟨hb, -⟩ := hs
    exact stepPUnit_effect hf hb.hdr_lt t h
  case pOvf => exact stepPOvf_effect hf t h
  case pEnd =>
    obtain ⟨hb, -⟩ := hs
    exact stepPEnd_effect hf hb.hdr_lt t h
  case finish =>
    cases h
    exact .completed hf

end Sys2Proof.Machine

namespace Sys2Proof.Machine

/-! ### Every operation ends (R283) -/

/-- A bound on the engine steps to the operation's end. The constants are the steps after the loop in hand: in Stage A
`6*N + 5` for A_END, Stage B and FINISH, in Stage B three for each byte of Stage A's buffer. -/
def State.stepsLeft (s : State) : Nat :=
  match s.fsm with
  | .idle => 0
  | .decode => stepBound s.n
  | .nHead => 3 * (s.n - s.pos) + 2
  | .nScan => 3 * (s.n - s.pos - s.len) + 1
  | .nEmit => 3 * (s.n - s.pos - s.len)
  | .bHead => 3 * (s.n - s.pos) + 2
  | .bScan => 3 * (s.n - s.pos - s.len) + 1
  | .bEmit => 3 * (s.n - s.pos - s.len)
  | .aHead => 4 * (s.n - s.pos) + 6 * s.n + 5
  | .aScan => 4 * (s.n - s.pos) + 6 * s.n + 5 - s.r
  | .aEmit => 4 * (s.n - s.pos) + 6 * s.n + 4 - s.r
  | .aEnd => 6 * s.n + 4
  | .pAwait => 3 * (s.tmplen.toNat - s.a) + 3
  | .pUnit => 3 * (s.tmplen.toNat - s.a) + 2
  | .pOvf => 3 * (s.tmplen.toNat - s.a) + s.rc / 127 + 4
  | .pEnd => 2
  | .finish => 1

theorem Emits.registers {s t : State} (h : Emits s t) : t.tmplen = s.tmplen ∧ t.a = s.a ∧ t.tmp = s.tmp := by
  have hreading := h.reading
  simp only [State.reading, Prod.mk.injEq] at hreading
  obtain ⟨-, -, htmplen, ha, -, -, htmp, -⟩ := hreading
  exact ⟨htmplen, ha, htmp⟩

/-- A busy engine's step brings the operation's end nearer. -/
theorem stepsLeft_engineStep {s t : State} (hb : s.BoundsOk) (hbusy : s.fsm ≠ .idle) (h : engineStep s = .next t) :
    t.stepsLeft < s.stepsLeft := by
  obtain ⟨-, hnext⟩ := boundsOk_engineStep s t hb h
  have he := engineStep_effect hb h
  obtain ⟨-, hs⟩ := hb
  cases he with
  | rest hf => exact absurd hf hbusy
  | refuse hf e => simp [State.stepsLeft, stepBound, hf]
  | dispatch hf i hi =>
    rcases decodeCommand_cases hi with ⟨rfl, -⟩ | ⟨rfl, -⟩ | ⟨rfl, -⟩ | ⟨rfl, -⟩ | ⟨rfl, -⟩ <;>
      simp only [State.stepsLeft, stepBound, headOf, hf] <;> omega
  | drained hf => rcases hf with hf | hf <;> simp only [State.stepsLeft, hf] <;> omega
  | latched f hf => rcases hf with ⟨hf, rfl⟩ | ⟨hf, rfl⟩ <;> simp only [State.stepsLeft, hf] <;> omega
  | counted hf hin => rcases hf with hf | hf <;> simp only [State.stepsLeft, hf] <;> omega
  | left f hf =>
    rcases hf with ⟨hf, rfl⟩ | ⟨hf, rfl⟩ <;> simp only [State.stepsLeft, hf] at hs ⊢ <;> omega
  | recorded f hf =>
    rcases hf with ⟨hf, rfl⟩ | ⟨hf, rfl⟩ <;> simp only [State.stepsLeft, hf] at hs ⊢ <;> omega
  | aDrained hf => simp only [State.stepsLeft, hf]; omega
  | aLatched hf => simp only [State.stepsLeft, hf]; omega
  | aCounted hf hin => simp only [State.stepsLeft, hf]; omega
  | aLeft hf => simp only [State.stepsLeft, hf] at hs ⊢; omega
  | placed hf => simp only [State.stepsLeft, hf] at hs ⊢; split <;> omega
  | turned hf =>
    obtain ⟨⟨-, -, -, hle, -⟩, hend⟩ := by simpa only [hf] using hs
    have : (BitVec.ofNat 32 s.t).toNat ≤ s.t := (BitVec.toNat_ofNat s.t 32).trans_le (Nat.mod_le _ _)
    simp only [State.stepsLeft, hf]
    omega
  | exhausted hf => simp only [State.stepsLeft, hf]; omega
  | opened hf => simp only [State.stepsLeft, hf]; omega
  | awaited hf => simp only [State.stepsLeft, hf]; omega
  | run hf t h ht =>
    obtain ⟨htmplen, ha, -⟩ := h.registers
    obtain ⟨⟨-, -, hle, -⟩, -, hrc⟩ := by simpa only [ht] using hnext
    simp only [State.stepsLeft, hf, ht, htmplen, ha] at hle ⊢
    omega
  | lit hf t h ht =>
    obtain ⟨htmplen, ha, -⟩ := h.registers
    simp only [State.stepsLeft, hf, ht, htmplen, ha] at hs ⊢
    omega
  | overflowed hf hrc => simp only [State.stepsLeft, hf]; omega
  | settled hf => simp only [State.stepsLeft, hf]; omega
  | ended hf t h ht => simp [State.stepsLeft, hf, ht]
  | completed hf => simp [State.stepsLeft, hf]

/-- With fuel for the steps left, the run ends idle. -/
theorem runEngine_stops {fuel : Nat} {s t : State} (hb : s.BoundsOk) (hfuel : s.stepsLeft ≤ fuel)
    (h : runEngine fuel s = .next t) : t.fsm = .idle := by
  induction fuel generalizing s with
  | zero =>
    cases h
    by_contra hbusy
    obtain ⟨u, hu, -⟩ := engineStep_bounds hb
    have := stepsLeft_engineStep hb hbusy hu
    omega
  | succ fuel ih =>
    by_cases hidle : s.fsm = .idle
    · cases (runEngine_idle _ hidle).symm.trans h
      exact hidle
    · rw [runEngine, if_neg hidle] at h
      obtain ⟨u, hu, h⟩ := andThen_next.mp h
      have := stepsLeft_engineStep hb hidle hu
      exact ih (boundsOk_engineStep s u hb hu) (by omega) h

theorem boundsOk_accept {s : State} (c : Word) (hp : s.params.ok) : (s.accept c).BoundsOk :=
  ⟨hp, rfl, rfl, rfl, rfl, rfl, rfl⟩

/-- The meaning of an accepted command is a run of engine steps from `DECODE` (R200, R278). -/
theorem exec_accept {c : Word} {i : Instr} (hi : decodeCommand c = .ok i) (s : State) :
    exec i (s.accept c) = runEngine (stepBound s.lenReg.toNat + 1) (s.accept c) := by
  rw [← State.accept_n s c, ← runOperation_of_decode (State.accept_fsm s c) (State.accept_w s c), runOperation,
    if_pos (State.accept_fsm s c), State.accept_cmd, hi]

/-- What every engine step within the bounds keeps holds where an accepted command ends, and there the engine is idle
(R283). -/
theorem exec_accept_ends {P : State → Prop} {c : Word} {i : Instr} {s t : State} (hp : s.params.ok)
    (hi : decodeCommand c = .ok i) (hstep : ∀ u v, u.BoundsOk → P u → engineStep u = .next v → P v)
    (hs : P (s.accept c)) (h : exec i (s.accept c) = .next t) : t.fsm = .idle ∧ P t := by
  rw [exec_accept hi] at h
  have hb := boundsOk_accept c hp
  refine ⟨runEngine_stops hb ?_ h, ?_⟩
  · simp [State.stepsLeft]
  · exact (runEngine_keeps (P := fun u => u.BoundsOk ∧ P u)
      (fun u v ⟨hb, hu⟩ hv => ⟨boundsOk_engineStep u v hb hv, hstep u v hb hu hv⟩) _ _ t ⟨hb, hs⟩ h).2

/-! ### The bytes an operation stores (R49, R50) -/

theorem Memory.Grows.mono {i j k : Nat} {m m' : Memory} (h : Memory.Grows i j m m') (hjk : j ≤ k) :
    Memory.Grows i k m m' := ⟨h.le.trans hjk, fun x hx => h.same x (hjk.trans hx)⟩

/-- Since `s₀` only TMP below `i` and DST below `j` have been stored to. -/
abbrev Stored (s₀ s : State) (i j : Nat) : Prop := Memory.Grows 0 i s₀.tmp s.tmp ∧ Memory.Grows 0 j s₀.dst s.dst

/-- What an operation accepted in `s₀` has stored so far, at each value of `fsm`; only one that packs stores to TMP. -/
def State.Footprint (s : State) (packs : Bool) (s₀ : State) : Prop :=
  match s.fsm with
  | .decode => Stored s₀ s 0 0 ∧ (decodeCommand s.cmd = .ok .encA8 → packs = true)
  | .nHead | .nScan | .nEmit | .bHead | .bScan | .bEmit => Stored s₀ s 0 s.out
  | .aHead | .aScan | .aEmit | .aEnd => Stored s₀ s s.t 0 ∧ packs = true
  | .pAwait | .pUnit | .pOvf | .pEnd => Stored s₀ s s.tmplen.toNat s.out ∧ packs = true
  | .finish => Stored s₀ s (if packs then s.tmplen.toNat else 0) s.out
  | .idle => Stored s₀ s (if packs then s.tmplen.toNat else 0) s.outlen.toNat

theorem Emits.stored {s₀ s t : State} (h : Emits s t) (hs : Stored s₀ s s.tmplen.toNat s.out) :
    Stored s₀ t t.tmplen.toNat t.out := by
  obtain ⟨htmplen, -, htmp⟩ := h.registers
  obtain ⟨hstmp, hsdst⟩ := hs
  exact ⟨by rw [htmp, htmplen]; exact hstmp, hsdst.trans h.dst⟩

/-- Stage A stores to TMP, Stage B and the other encoders to DST below the append position; A_END makes `TMPLEN` the one
(R166), FINISH makes `OUTLEN` the other (R206). -/
theorem footprint_engineStep {packs : Bool} {s₀ s t : State} (hb : s.BoundsOk) (hs : s.Footprint packs s₀)
    (h : engineStep s = .next t) : t.Footprint packs s₀ := by
  have he := engineStep_effect hb h
  obtain ⟨hp, hbounds⟩ := hb
  cases he with
  | rest hf => exact hs
  | refuse hf e =>
    obtain ⟨⟨htmp, hdst⟩, -⟩ := by simpa only [State.Footprint, hf] using hs
    exact ⟨htmp.mono (Nat.zero_le _), hdst.mono (Nat.zero_le _)⟩
  | dispatch hf i hi =>
    obtain ⟨⟨htmp, hdst⟩, hpacks⟩ := by simpa only [State.Footprint, hf] using hs
    have hout : Stored s₀ s 0 s.out := ⟨htmp, hdst.mono (Nat.zero_le _)⟩
    rcases decodeCommand_cases hi with ⟨rfl, -⟩ | ⟨rfl, -⟩ | ⟨rfl, -⟩ | ⟨rfl, -⟩ | ⟨rfl, -⟩
    · exact hout
    · exact hout
    · exact hout
    · exact hout
    · exact ⟨⟨htmp.mono (Nat.zero_le _), hdst⟩, hpacks hi⟩
  | drained hf =>
    obtain ⟨htmp, hdst⟩ : Stored s₀ s 0 s.out := by
      rcases hf with hf | hf <;> simpa only [State.Footprint, hf] using hs
    exact ⟨htmp.mono (Nat.zero_le _), hdst⟩
  | latched f hf => rcases hf with ⟨hf, rfl⟩ | ⟨hf, rfl⟩ <;> simpa only [State.Footprint, hf] using hs
  | counted hf => rcases hf with hf | hf <;> simpa only [State.Footprint, hf] using hs
  | left f hf => rcases hf with ⟨hf, rfl⟩ | ⟨hf, rfl⟩ <;> simpa only [State.Footprint, hf] using hs
  | recorded f hf dst out hgrows =>
    obtain ⟨htmp, hdst⟩ : Stored s₀ s 0 s.out := by
      rcases hf with ⟨hf, -⟩ | ⟨hf, -⟩ <;> simpa only [State.Footprint, hf] using hs
    rcases hf with ⟨-, rfl⟩ | ⟨-, rfl⟩ <;> exact ⟨htmp, hdst.trans hgrows⟩
  | aDrained hf => simpa only [State.Footprint, hf] using hs
  | aLatched hf => simpa only [State.Footprint, hf] using hs
  | aCounted hf => simpa only [State.Footprint, hf] using hs
  | aLeft hf => simpa only [State.Footprint, hf] using hs
  | placed hf tmp t ip info k hgrows =>
    obtain ⟨⟨htmp, hdst⟩, hpacks⟩ := by simpa only [State.Footprint, hf] using hs
    exact ⟨⟨htmp.trans hgrows, hdst⟩, hpacks⟩
  | turned hf tmp hgrows =>
    obtain ⟨⟨htmp, hdst⟩, hpacks⟩ := by simpa only [State.Footprint, hf] using hs
    obtain ⟨⟨hn, -, -, hle, -⟩, hend⟩ := by simpa only [hf] using hbounds
    have ht : (BitVec.ofNat 32 s.t).toNat = s.t := by rw [BitVec.toNat_ofNat, Nat.mod_eq_of_lt (by omega)]
    refine ⟨⟨?_, hdst⟩, hpacks⟩
    rw [ht]
    exact htmp.trans hgrows
  | exhausted hf => simpa only [State.Footprint, hf] using hs
  | opened hf => simpa only [State.Footprint, hf] using hs
  | awaited hf => simpa only [State.Footprint, hf] using hs
  | run hf t h ht =>
    obtain ⟨hs, hpacks⟩ := by simpa only [State.Footprint, hf] using hs
    simp only [State.Footprint, ht]
    exact ⟨h.stored hs, hpacks⟩
  | lit hf t h ht =>
    obtain ⟨hs, hpacks⟩ := by simpa only [State.Footprint, hf] using hs
    simp only [State.Footprint, ht]
    exact ⟨h.stored hs, hpacks⟩
  | overflowed hf hrc dst out hgrows =>
    simp only [State.Footprint, hf] at hs ⊢
    obtain ⟨⟨htmp, hdst⟩, hpacks⟩ := hs
    exact ⟨⟨htmp, hdst.trans hgrows⟩, hpacks⟩
  | settled hf => simpa only [State.Footprint, hf] using hs
  | ended hf t h ht =>
    obtain ⟨hs, hpacks⟩ := by simpa only [State.Footprint, hf] using hs
    simp only [State.Footprint, ht, hpacks, if_true]
    exact h.stored hs
  | completed hf =>
    obtain ⟨htmp, hdst⟩ := by simpa only [State.Footprint, hf] using hs
    obtain ⟨hn, hout⟩ := by simpa only [hf] using hbounds
    have hout : (BitVec.ofNat 32 s.out).toNat = s.out := by rw [BitVec.toNat_ofNat, Nat.mod_eq_of_lt (by omega)]
    refine ⟨htmp, ?_⟩
    rw [State.complete_outlen, hout]
    exact hdst

/-- Where an accepted operation ends, TMP below `TMPLEN` and DST below `OUTLEN` are all it has stored to. -/
theorem exec_accept_stored {packs : Bool} {c : Word} {i : Instr} {s t : State} (hp : s.params.ok)
    (hi : decodeCommand c = .ok i) (hpacks : i = .encA8 → packs = true) (h : exec i (s.accept c) = .next t) :
    Stored s t (if packs then t.tmplen.toNat else 0) t.outlen.toNat := by
  have hs : (s.accept c).Footprint packs s :=
    ⟨⟨.refl 0 _, .refl 0 _⟩, fun ha => hpacks (Except.ok.inj (hi.symm.trans ha))⟩
  obtain ⟨hidle, hfoot⟩ := exec_accept_ends (P := fun u => u.Footprint packs s) hp hi
    (fun _ _ => footprint_engineStep) hs h
  simpa only [State.Footprint, hidle] using hfoot

theorem epoch_of_exec {i : Instr} {s t : State} (hi : i.format = .cmd32) (h : exec i s = .next t) :
    t.epoch = s.epoch := by
  obtain ⟨-, -, -, -, -, -, -, hepoch, -⟩ := commandFrame i s t hi h
  exact hepoch

theorem byteAt_of_grows {s t : State} {sp : Space} {i j k : Nat} (h : Memory.Grows i j (s.buf sp) (t.buf sp))
    (he : t.epoch = s.epoch) (hk : j ≤ k) : t.byteAt sp k = s.byteAt sp k := by
  rw [State.byteAt, State.byteAt, h.same k hk, he]

theorem format_of_decodeCommand {c : Word} {i : Instr} (hi : decodeCommand c = .ok i) : i.format = .cmd32 := by
  rcases decodeCommand_cases hi with ⟨rfl, -⟩ | ⟨rfl, -⟩ | ⟨rfl, -⟩ | ⟨rfl, -⟩ | ⟨rfl, -⟩ <;> rfl

/-- Settles O31: an operation that does not pack has stored nothing to TMP. -/
theorem nibbleAndByteFootprint : Obligations.NibbleAndByteFootprint := by
  intro s t i c hp hi hne h
  obtain ⟨htmp, hdst⟩ := exec_accept_stored (packs := false) hp hi (fun ha => absurd ha hne) h
  have he := epoch_of_exec (format_of_decodeCommand hi) h
  exact ⟨fun j => byteAt_of_grows (sp := .tmp) htmp he (Nat.zero_le j), fun _ => byteAt_of_grows (sp := .dst) hdst he⟩

/-- Settles O32: the invariant is `State.Footprint`, Stage A storing below `t` and Stage B below `out`. -/
theorem packFootprint : Obligations.PackFootprint := by
  intro s t hp h
  obtain ⟨htmp, hdst⟩ := exec_accept_stored (packs := true) hp (by decide) (fun _ => rfl) h
  have he := epoch_of_exec rfl h
  exact ⟨fun _ => byteAt_of_grows (sp := .tmp) htmp he, fun _ => byteAt_of_grows (sp := .dst) hdst he⟩

end Sys2Proof.Machine

namespace Sys2Proof.Machine

/-! ### The command word by its fields (R70-R74) -/

theorem cmdBW_eq (c : Word) : cmdBW c = c.toNat % 16 := by simp [cmdBW]

theorem cmdCM_iff (c : Word) : cmdCM c = true ↔ c.toNat / 16 % 2 = 1 := by
  simp [cmdCM, BitVec.getLsbD, Nat.testBit_eq_decide_div_mod_eq]

theorem cmdST_iff (c : Word) : cmdST c = true ↔ c.toNat / 32 % 2 = 1 := by
  simp [cmdST, BitVec.getLsbD, Nat.testBit_eq_decide_div_mod_eq]

theorem cmdReserved_iff (c : Word) : cmdReserved c = 0#26 ↔ c.toNat < 64 := by
  rw [← BitVec.toNat_inj, cmdReserved, BitVec.extractLsb'_toNat, Nat.shiftRight_eq_div_pow, BitVec.toNat_ofNat]
  omega

/-! Which fields refuse a word, tested in the order of R73, and which an accepted word has. -/

theorem decodeCommand_reservedBits_iff (c : Word) :
    decodeCommand c = .error .reservedBits ↔ cmdReserved c ≠ 0#26 := by
  unfold decodeCommand
  split_ifs <;> simp_all

theorem decodeCommand_badWidth_iff (c : Word) :
    decodeCommand c = .error .badWidth ↔ cmdReserved c = 0#26 ∧ ¬LegalWidth (cmdBW c) := by
  unfold decodeCommand
  split_ifs <;> simp_all

theorem decodeCommand_uncompressed_iff (c : Word) :
    decodeCommand c = .error .uncompressed ↔
      cmdReserved c = 0#26 ∧ LegalWidth (cmdBW c) ∧ ¬cmdCM c = true := by
  unfold decodeCommand
  split_ifs <;> simp_all
  omega

theorem decodeCommand_misplacedStrategy_iff (c : Word) :
    decodeCommand c = .error .misplacedStrategy ↔
      cmdReserved c = 0#26 ∧ LegalWidth (cmdBW c) ∧ cmdCM c = true ∧ cmdST c = true ∧ cmdBW c ≠ 8 := by
  unfold decodeCommand
  split_ifs <;> simp_all
  omega

theorem fields_of_decodeCommand {c : Word} {i : Instr} (h : decodeCommand c = .ok i) :
    cmdReserved c = 0#26 ∧ cmdCM c = true ∧ (cmdST c = true ↔ i = .encA8) := by
  unfold decodeCommand at h
  split_ifs at h <;> cases h <;> simp_all

/-- Settles O3: each refusal is a condition on the word's fields, which are digits of its number. -/
theorem illegalWordsByClass : Obligations.IllegalWordsByClass := by
  intro c
  rw [decodeCommand_reservedBits_iff, decodeCommand_badWidth_iff, decodeCommand_uncompressed_iff,
    decodeCommand_misplacedStrategy_iff]
  simp only [ne_eq, cmdReserved_iff, cmdBW_eq, cmdCM_iff, cmdST_iff, LegalWidth]
  simp only [List.mem_cons, List.not_mem_nil, or_false, ← BitVec.toNat_inj, BitVec.toNat_ofNat]
  exact ⟨by omega, by omega, by omega, by omega⟩

/-- A word has no bits but its fields, and in an accepted one each is what its code has. -/
theorem encode_of_decodeCommand {c : Word} {i : Instr} (h : decodeCommand c = .ok i) : encode i = .word c := by
  obtain ⟨hreserved, hcm, hst⟩ := fields_of_decodeCommand h
  have hcases := decodeCommand_cases h
  rw [cmdReserved_iff] at hreserved
  rw [cmdCM_iff] at hcm
  rw [cmdST_iff] at hst
  rw [cmdBW_eq] at hcases
  rcases hcases with ⟨rfl, hw⟩ | ⟨rfl, hw⟩ | ⟨rfl, hw⟩ | ⟨rfl, hw⟩ | ⟨rfl, hw⟩
  all_goals
    simp only [reduceCtorEq, iff_true, iff_false] at hst
    exact congrArg Code.word (BitVec.eq_of_toNat_eq (by simp only [BitVec.toNat_ofNat]; omega))

/-- The command decoder inverts the encoder (R72). -/
theorem decodeCommand_ok_iff {c : Word} {i : Instr} : decodeCommand c = .ok i ↔ encode i = .word c := by
  refine ⟨encode_of_decodeCommand, fun h => ?_⟩
  cases i <;> cases h <;> decide

/-- Only commands are words, and each of them is well-formed. -/
theorem command_of_encode_word {c : Word} {i : Instr} (h : encode i = .word c) : i.wf = true ∧ i.format = .cmd32 := by
  cases i <;> cases h <;> exact ⟨rfl, rfl⟩

/-- Settles O2: the table's words are the codes of its five commands. -/
theorem commandsAreExactlyFiveWords : Obligations.CommandsAreExactlyFiveWords := by
  intro c i
  rw [decodeCommand_ok_iff]
  cases i <;> simp [encode, eq_comm]

/-! ### The stream records by their bytes (R77-R80) -/

/-- A control byte is its kind bit, then its count (R80). -/
theorem controlByte_eq (c : Byte) : BitVec.ofBool (c.getLsbD 7) ++ c.extractLsb' 0 7 = c := by
  have hkind : BitVec.ofBool (c.getLsbD 7) = c.extractLsb' 7 1 := by
    ext i hi
    obtain rfl : i = 0 := by omega
    simp
  rw [hkind]
  exact BitVec.extractLsb'_append_extractLsb'

theorem controlByte_count (kind : BitVec 1) (count : BitVec 7) : (kind ++ count : Byte).extractLsb' 0 7 = count :=
  BitVec.extractLsb'_append_eq_right

theorem controlByte_kind (kind : BitVec 1) (count : BitVec 7) : (kind ++ count : Byte).getLsbD 7 = kind.getLsbD 0 :=
  BitVec.getLsbD_append

theorem encode_of_decodePackseg {c : Byte} {bs rest : List Byte} {i : Instr}
    (h : decodeRecord .packseg (c :: bs) = .ok (i, rest)) :
    i.wf = true ∧ ∃ code, encode i = .bytes code ∧ c :: bs = code ++ rest := by
  have hcount : c.extractLsb' 0 7 ≠ 0#7 := fun h0 => by simp [decodeRecord, h0] at h
  have hwf := bne_iff_ne.mpr hcount
  have hc := controlByte_eq c
  simp only [decodeRecord, if_neg hcount] at h
  cases hkind : c.getLsbD 7 <;> simp only [hkind, if_true, Bool.false_eq_true, if_false] at h hc
  case false =>
    cases h
    exact ⟨hwf, [c], congrArg (fun b => Code.bytes [b]) hc, rfl⟩
  case true =>
    cases bs with
    | nil => cases h
    | cons v bs =>
      cases h
      exact ⟨hwf, [c, v], congrArg (fun b => Code.bytes [b, v]) hc, rfl⟩

/-- What the record decoder takes off a list is the code of the record it gives. -/
theorem encode_of_decodeRecord {i : Instr} {rest : List Byte} : ∀ {f : Format} {bs : List Byte},
    decodeRecord f bs = .ok (i, rest) → i.wf = true ∧ ∃ code, encode i = .bytes code ∧ bs = code ++ rest
  | .nibrec, b :: _, rfl => ⟨rfl, [b], congrArg (fun b => Code.bytes [b]) BitVec.extractLsb'_append_extractLsb', rfl⟩
  | .byterec, l :: v :: _, rfl => ⟨rfl, [l, v], rfl, rfl⟩
  | .stagea, b :: _, rfl => ⟨rfl, [b], rfl, rfl⟩
  | .packseg, _ :: _, h => encode_of_decodePackseg h

/-- A record's code at the front of a list is read as that record, whatever follows. -/
theorem decodeRecord_of_encode {code : List Byte} {i : Instr} (hwf : i.wf = true) (he : encode i = .bytes code)
    (rest : List Byte) : decodeRecord i.format (code ++ rest) = .ok (i, rest) := by
  cases i <;> cases he
  case nibrec length value =>
    have hlength : (length ++ value : Byte).extractLsb' 4 4 = length := BitVec.extractLsb'_append_eq_left
    have hvalue : (length ++ value : Byte).extractLsb' 0 4 = value := BitVec.extractLsb'_append_eq_right
    simp only [decodeRecord, Instr.format, List.singleton_append, hlength, hvalue]
  case byterec => rfl
  case packsegRepeat count value =>
    have hcount : count ≠ 0#7 := bne_iff_ne.mp hwf
    simp only [decodeRecord, Instr.format, List.cons_append, controlByte_count, controlByte_kind, hcount]
    rfl
  case packsegLiteral count =>
    have hcount : count ≠ 0#7 := bne_iff_ne.mp hwf
    simp only [decodeRecord, Instr.format, List.cons_append, controlByte_count, controlByte_kind, hcount]
    rfl
  case stageaInfo => rfl

theorem decode_word_ok_iff {f : Format} {c : Word} {i : Instr} :
    decode f (.word c) = .ok i ↔ f = .cmd32 ∧ decodeCommand c = .ok i := by
  cases f <;> simp [decode]

theorem decode_bytes_ok_iff {f : Format} {bs : List Byte} {i : Instr} :
    decode f (.bytes bs) = .ok i ↔ decodeRecord f bs = .ok (i, []) := by
  cases f
  case cmd32 => simp [decode, decodeRecord]
  all_goals
    simp only [decode]
    rcases decodeRecord _ bs with e | ⟨j, _ | ⟨b, rest⟩⟩ <;> simp

/-- The decoder inverts the encoder, in each format on the well-formed rows of that format (R70-R80). -/
theorem decode_ok_iff {f : Format} {c : Code} {i : Instr} :
    decode f c = .ok i ↔ i.wf = true ∧ i.format = f ∧ encode i = c := by
  cases c with
  | word c =>
    rw [decode_word_ok_iff, decodeCommand_ok_iff]
    constructor
    · rintro ⟨rfl, he⟩
      obtain ⟨hwf, hformat⟩ := command_of_encode_word he
      exact ⟨hwf, hformat, he⟩
    · rintro ⟨-, rfl, he⟩
      exact ⟨(command_of_encode_word he).2, he⟩
  | bytes bs =>
    rw [decode_bytes_ok_iff]
    constructor
    · intro h
      obtain ⟨hwf, code, he, rfl⟩ := encode_of_decodeRecord h
      exact ⟨hwf, Laws.OwnFormat.format_of_decodeRecord h, by rw [he, List.append_nil]⟩
    · rintro ⟨hwf, rfl, he⟩
      simpa using decodeRecord_of_encode hwf he []

/-- Settles O4: the decoder inverts the encoder. -/
theorem decodeOfEncode : Obligations.DecodeOfEncode := fun _ hwf => decode_ok_iff.mpr ⟨hwf, rfl, rfl⟩

/-- Settles O5, the other direction of the same equivalence. -/
theorem encodeOfDecode : Obligations.EncodeOfDecode := fun _ _ _ => decode_ok_iff.mp

/-- Settles O1, by evaluation. -/
theorem sampleWordsDecode : Obligations.SampleWordsDecode := by
  unfold Obligations.SampleWordsDecode
  decide

/-- Settles O6: count 0 is the first thing the decoder and the meanings test. -/
theorem reservedCountsRefused : Obligations.ReservedCountsRefused :=
  ⟨fun _ => ⟨rfl, rfl⟩, fun _ _ => ⟨rfl, rfl⟩⟩

end Sys2Proof.Machine

namespace Sys2Proof.Machine

/-! ### What a record stores, said once (R77, R78, R80) -/

theorem exec_nibrec_next {length value : BitVec 4} {s t : State} :
    exec (.nibrec length value) s = .next t ↔ s.out < s.params.dstBytes ∧
      t = { s with
            dst := Memory.write s.dst s.out (length ++ value), out := s.out + 1, pos := s.pos + length.toNat + 1 } := by
  simp only [exec, execNibrec, andThen_next, emit_next]
  constructor
  · rintro ⟨_, ⟨h, rfl⟩, ht⟩
    exact ⟨h, by cases ht; rfl⟩
  · rintro ⟨h, rfl⟩
    exact ⟨_, ⟨h, rfl⟩, rfl⟩

theorem exec_byterec_next {length value : Byte} {s t : State} :
    exec (.byterec length value) s = .next t ↔ s.out + 1 < s.params.dstBytes ∧
      t = { s with
            dst := Memory.write (Memory.write s.dst s.out length) (s.out + 1) value
            out := s.out + 2
            pos := s.pos + length.toNat + 1 } := by
  simp only [exec, execByterec, andThen_next, emit_next]
  constructor
  · rintro ⟨_, ⟨_, rfl⟩, _, ⟨h, rfl⟩, ht⟩
    exact ⟨h, by cases ht; rfl⟩
  · rintro ⟨h, rfl⟩
    exact ⟨_, ⟨by omega, rfl⟩, _, ⟨h, rfl⟩, rfl⟩

theorem exec_packsegRepeat_next {count : BitVec 7} {value : Byte} {s t : State} :
    exec (.packsegRepeat count value) s = .next t ↔ count ≠ 0#7 ∧ s.out + 1 < s.params.dstBytes ∧
      t = { s with
            dst := Memory.write (Memory.write s.dst s.out (0x80#8 ||| count.setWidth 8)) (s.out + 1) value
            out := s.out + 2 } := by
  rw [exec]
  by_cases h : count = 0#7
  · simp [execPacksegRepeat, h]
  · rw [execPacksegRepeat_of_ne h, emitRepeat_next, BitVec.ofNat_toNat]
    simp [h]

theorem exec_packsegLiteral_next {count : BitVec 7} {s t : State} :
    exec (.packsegLiteral count) s = .next t ↔ count ≠ 0#7 ∧ s.hdr < s.params.dstBytes ∧
      t = { s with dst := Memory.write s.dst s.hdr (count.setWidth 8), mode := .none } := by
  rw [exec]
  by_cases h : count = 0#7
  · simp [execPacksegLiteral, h]
  · rw [execPacksegLiteral_of_ne h, closeLiteral_next, BitVec.ofNat_toNat]
    simp [h]

/-- Settles O20: two nibbles side by side are the first shifted above the second. -/
theorem nibrecStores : Obligations.NibrecStores := by
  intro length value s h
  have hbyte : length.setWidth 8 <<< 4 ||| value.setWidth 8 = length ++ value := by
    rw [← BitVec.setWidth_append_eq_shiftLeft_setWidth_or, BitVec.setWidth_eq]
  rw [hbyte]
  exact exec_nibrec_next.mpr ⟨h, rfl⟩

/-- Settles O21, by what BYTEREC stores. -/
theorem byterecStores : Obligations.ByterecStores := fun _ _ _ h => exec_byterec_next.mpr ⟨h, rfl⟩

/-- Settles O22, by what the two PACKSEG records store. -/
theorem segmentsStore : Obligations.SegmentsStore :=
  ⟨fun _ _ _ hcount h => exec_packsegRepeat_next.mpr ⟨hcount, h, rfl⟩,
    fun _ _ hcount h => exec_packsegLiteral_next.mpr ⟨hcount, h, rfl⟩⟩

/-! Where a store into DST leaves memory alone. -/

theorem byteAt_storeDst_other (s : State) {i j : Nat} (b : Byte) {sp : Space} (h : ¬(sp = .dst ∧ j = i)) :
    ({ s with dst := Memory.write s.dst i b } : State).byteAt sp j = s.byteAt sp j :=
  (byteAt_setBuf_write s .dst sp i j b).trans (if_neg h)

theorem byteAt_storeDst_pair_other (s : State) {i j : Nat} (b b' : Byte) {sp : Space}
    (h : ¬(sp = .dst ∧ (j = i ∨ j = i + 1))) :
    ({ s with dst := Memory.write (Memory.write s.dst i b) (i + 1) b' } : State).byteAt sp j = s.byteAt sp j :=
  (byteAt_storeDst_other { s with dst := Memory.write s.dst i b } b' fun ⟨hsp, hj⟩ => h ⟨hsp, .inr hj⟩).trans
    (byteAt_storeDst_other s b fun ⟨hsp, hj⟩ => h ⟨hsp, .inl hj⟩)

/-- Settles O24: a record that answers has stored what its meaning says, and a store leaves all other bytes. -/
theorem recordFrames : Obligations.RecordFrames := by
  refine ⟨fun length value s t h => ?_, fun length value s t h => ?_, fun count value s t h => ?_, fun count s t h => ?_,
    fun flags s t h => ?_⟩
  · obtain ⟨-, rfl⟩ := exec_nibrec_next.mp h
    exact ⟨rfl, fun _ _ => byteAt_storeDst_other s _⟩
  · obtain ⟨-, rfl⟩ := exec_byterec_next.mp h
    exact ⟨rfl, fun _ _ => byteAt_storeDst_pair_other s _ _⟩
  · obtain ⟨-, -, rfl⟩ := exec_packsegRepeat_next.mp h
    exact ⟨rfl, fun _ _ => byteAt_storeDst_pair_other s _ _⟩
  · obtain ⟨-, -, rfl⟩ := exec_packsegLiteral_next.mp h
    exact ⟨rfl, fun _ _ => byteAt_storeDst_other s _⟩
  · cases h
    exact ⟨rfl, fun _ _ => rfl⟩

end Sys2Proof.Machine

namespace Sys2Proof.Machine

/-! ### The run detector on a list (R105, R106) -/

section
variable {S : List Byte} {p cap r : Nat}

/-- Every sample counted equals the head's. -/
theorem runLen_get (h : r < runLen S p cap) : S[p + r]? = S[p]? := by
  rcases Nat.lt_or_ge p S.length with hp | hp
  · have hhead : S[p]? = some S[p] := List.getElem?_eq_getElem hp
    rw [runLen_of_get hhead] at h
    cases r with
    | zero => rfl
    | succ j =>
      have htail : (S.drop (p + 1))[j]? = some S[p] := leading_get (by omega : j < leading S[p] (cap - 1) _)
      rwa [List.getElem?_drop, Nat.add_assoc, Nat.add_comm 1 j, ← hhead] at htail
  · simp [runLen, List.drop_of_length_le hp] at h

/-- Where the run stops below the cap, no sample that equals the head's follows (R106 (b)). -/
theorem runLen_stop (hp : p < S.length) (h : runLen S p cap < cap) : S[p + runLen S p cap]? ≠ S[p]? := by
  have hhead : S[p]? = some S[p] := List.getElem?_eq_getElem hp
  rw [runLen_of_get hhead] at h ⊢
  have hstop := leading_stop (by omega : leading S[p] (cap - 1) (S.drop (p + 1)) < cap - 1)
  rwa [List.getElem?_drop, Nat.add_assoc, ← hhead] at hstop

/-- The loop of R105: a run counted so far up to `r` goes on exactly below the cap and at a sample that equals the
head's. -/
theorem lt_runLen_iff (hp : p < S.length) (hcap : 1 ≤ cap) (hr : r ≤ runLen S p cap) :
    r < runLen S p cap ↔ r < cap ∧ S[p + r]? = S[p]? := by
  constructor
  · exact fun h => ⟨Nat.lt_of_lt_of_le h (runLen_le_cap S p hcap), runLen_get h⟩
  · rintro ⟨hlt, hget⟩
    refine Nat.lt_of_le_of_ne hr fun e => ?_
    subst e
    exact runLen_stop hp hlt hget

/-- `RunLen` is the one length whose samples all equal the head's and that is at the cap or followed by none that
does. -/
theorem runLen_unique (hp : p < S.length) (h1 : 1 ≤ r) (hr : r ≤ cap) (hall : ∀ j, j < r → S[p + j]? = S[p]?)
    (hstop : r = cap ∨ S[p + r]? ≠ S[p]?) : runLen S p cap = r := by
  have hcap : 1 ≤ cap := Nat.le_trans h1 hr
  rcases Nat.lt_trichotomy (runLen S p cap) r with h | h | h
  · exact absurd (hall _ h) (runLen_stop hp (Nat.lt_of_lt_of_le h hr))
  · exact h
  · obtain ⟨hlt, hget⟩ := (lt_runLen_iff hp hcap (Nat.le_of_lt h)).mp h
    rcases hstop with he | hne
    · exact absurd he (Nat.ne_of_lt hlt)
    · exact absurd hget hne

/-- R106 (c): below the cap, the run seen from its second sample is one shorter. -/
theorem runLen_tail (hp : p < S.length) (h2 : 2 ≤ runLen S p cap) (hlt : runLen S p cap < cap) :
    runLen S (p + 1) cap = runLen S p cap - 1 := by
  have hend := runLen_le_rest (Nat.le_of_lt hp) cap
  have hnext : S[p + 1]? = S[p]? := runLen_get h2
  refine runLen_unique (by omega) (by omega) (by omega) (fun j hj => ?_) (.inr ?_)
  · rw [hnext, Nat.add_assoc]
    exact runLen_get (show 1 + j < runLen S p cap by omega)
  · rw [hnext, show p + 1 + (runLen S p cap - 1) = p + runLen S p cap by omega]
    exact runLen_stop hp hlt

end

/-- Settles O37: the bounds, the equal samples, maximality and the tail of a run, each by its lemma. -/
theorem runLenIsTheLongestRun : Obligations.RunLenIsTheLongestRun := by
  intro S p cap hp hcap
  have hend := runLen_le_rest (Nat.le_of_lt hp) cap
  exact ⟨runLen_pos hp cap, Nat.le_min.mpr ⟨runLen_le_cap S p hcap, by omega⟩, fun _ => runLen_get,
    fun hlt _ => runLen_stop hp hlt, runLen_tail hp⟩

end Sys2Proof.Machine

namespace Sys2Proof.Machine

/-! ### The run detector in the engine (R107)

A head step latches the sample at `pos`, and each scan step compares one more sample with it. The group register
may change all along; it stays truthful. -/

/-- `t` is `s` but for the group register, which is truthful in `t`. -/
def Regrouped (s t : State) : Prop :=
  t.GroupOk ∧ ∃ grp gidx gv, t = { s with grp := grp, gidx := gidx, gv := gv }

theorem Regrouped.refl {s : State} (h : s.GroupOk) : Regrouped s s := ⟨h, s.grp, s.gidx, s.gv, rfl⟩

theorem regrouped_fetched {s : State} (h : s.GroupOk) (g : Nat) : Regrouped s (fetched s g) := by
  refine ⟨fetched_ok h g, ?_⟩
  unfold fetched
  split
  · exact ⟨s.grp, s.gidx, s.gv, rfl⟩
  · exact ⟨_, _, _, rfl⟩

/-- At 8 bits a sample is the byte of SRC (R101). -/
theorem sample_eight (s : State) (i : Nat) : s.sample 8 i = s.byteAt .src i := by
  have hmask : ∀ b : Byte, b &&& 255#8 = b := fun b => BitVec.and_allOnes
  simp [State.sample, samplesPerByte, laneOf, hmask, Nat.mod_one]

/-- In a stream that fits SRC, so does the group of each sample. -/
theorem group_lt {s : State} {i : Nat} (hn : s.n ≤ s.params.srcBytes) (hi : i < s.n) :
    i / samplesPerByte s.w < s.params.srcBytes :=
  Nat.lt_of_le_of_lt (Nat.div_le_self ..) (Nat.lt_of_lt_of_le hi hn)

/-- On a stream that fits SRC the aligner passes on `Sample(i)`. -/
theorem withSample_in_stream {i : Nat} {s : State} (f : Byte → State → Out) (hok : s.GroupOk)
    (hn : s.n ≤ s.params.srcBytes) (hi : i < s.n) :
    ∃ u, Regrouped s u ∧ withSample i s f = f (s.sample s.w i) u :=
  ⟨_, regrouped_fetched hok _, withSample_of_ok hok (group_lt hn hi)⟩

/-- A scan step goes on exactly where the cap's test, `i < N` and the comparison hold. -/
theorem scan_in_stream {c : Prop} [Decidable c] {i : Nat} {x : Byte} (again leave : State → State) {s : State}
    (hok : s.GroupOk) (hn : s.n ≤ s.params.srcBytes) :
    ∃ u, Regrouped s u ∧ scan (decide c) i x again leave s =
      .next (if c ∧ i < s.n ∧ s.sample s.w i = x then again u else leave u) := by
  unfold scan
  by_cases h : c ∧ i < s.n
  · obtain ⟨u, hu, e⟩ := withSample_in_stream (fun y s' => .next (if y = x then again s' else leave s')) hok hn h.2
    exact ⟨u, hu, by simp [h, e]⟩
  · refine ⟨s, .refl hok, ?_⟩
    rw [if_neg (by simpa using h), if_neg fun h' => h ⟨h'.1, h'.2.1⟩]

/-! What the six head and scan steps do on a stream that fits SRC (R121, R122, R142, R162, R163). -/

section
variable {s : State}

theorem engineStep_nHead (hf : s.fsm = .nHead) (hok : s.GroupOk) (hn : s.n ≤ s.params.srcBytes) (hpos : s.pos < s.n) :
    ∃ u, Regrouped s u ∧ engineStep s = .next { u with cur := s.sample s.w s.pos, len := 0, fsm := .nScan } := by
  simp only [engineStep, hf, stepNHead, if_neg (Nat.not_le.mpr hpos)]
  exact withSample_in_stream _ hok hn hpos

theorem engineStep_bHead (hf : s.fsm = .bHead) (hok : s.GroupOk) (hn : s.n ≤ s.params.srcBytes) (hpos : s.pos < s.n) :
    ∃ u, Regrouped s u ∧ engineStep s = .next { u with cur := s.sample s.w s.pos, len := 0, fsm := .bScan } := by
  simp only [engineStep, hf, stepBHead, if_neg (Nat.not_le.mpr hpos)]
  exact withSample_in_stream _ hok hn hpos

theorem engineStep_aHead (hf : s.fsm = .aHead) (hok : s.GroupOk) (hn : s.n ≤ s.params.srcBytes) (hpos : s.pos < s.n) :
    ∃ u, Regrouped s u ∧ engineStep s = .next { u with v := s.sample s.w s.pos, r := 1, fsm := .aScan } := by
  simp only [engineStep, hf, stepAHead, if_neg (Nat.not_le.mpr hpos)]
  exact withSample_in_stream _ hok hn hpos

theorem engineStep_nScan (hf : s.fsm = .nScan) (hok : s.GroupOk) (hn : s.n ≤ s.params.srcBytes) :
    ∃ u, Regrouped s u ∧ engineStep s = .next
      (if s.len < 15 ∧ s.pos + 1 + s.len < s.n ∧ s.sample s.w (s.pos + 1 + s.len) = s.cur
        then { u with len := u.len + 1 } else { u with fsm := .nEmit }) := by
  simp only [engineStep, hf]
  exact scan_in_stream _ _ hok hn

theorem engineStep_bScan (hf : s.fsm = .bScan) (hok : s.GroupOk) (hn : s.n ≤ s.params.srcBytes) :
    ∃ u, Regrouped s u ∧ engineStep s = .next
      (if s.len < 255 ∧ s.pos + 1 + s.len < s.n ∧ s.sample s.w (s.pos + 1 + s.len) = s.cur
        then { u with len := u.len + 1 } else { u with fsm := .bEmit }) := by
  simp only [engineStep, hf]
  exact scan_in_stream _ _ hok hn

theorem engineStep_aScan (hf : s.fsm = .aScan) (hok : s.GroupOk) (hn : s.n ≤ s.params.srcBytes) :
    ∃ u, Regrouped s u ∧ engineStep s = .next
      (if s.r < 255 ∧ s.pos + s.r < s.n ∧ s.sample s.w (s.pos + s.r) = s.v
        then { u with r := u.r + 1 } else { u with fsm := .aEmit }) := by
  simp only [engineStep, hf]
  exact scan_in_stream _ _ hok hn

end

/-- The engine's three run detectors: `N_HEAD` and `N_SCAN` (R121, R122), `B_HEAD` and `B_SCAN` (R142), `A_HEAD` and
`A_SCAN` (R162, R163). -/
inductive RunDetector where
  | nibble
  | byte
  | pack

/-- The cap, less 1 for the head sample. -/
def RunDetector.capm1 : RunDetector → Nat
  | nibble => 15
  | byte => 255
  | pack => 254

def RunDetector.head : RunDetector → Fsm
  | nibble => .nHead
  | byte => .bHead
  | pack => .aHead

/-- During the scan: `x` latched and `n` samples counted after the head; `r` counts the head too. -/
def RunDetector.during (x : Byte) (n : Nat) (s : State) : RunDetector → State
  | nibble => { s with cur := x, len := n, fsm := .nScan }
  | byte => { s with cur := x, len := n, fsm := .bScan }
  | pack => { s with v := x, r := n + 1, fsm := .aScan }

/-- The scan left: the registers as during the scan. -/
def RunDetector.after (x : Byte) (n : Nat) (s : State) : RunDetector → State
  | nibble => { s with cur := x, len := n, fsm := .nEmit }
  | byte => { s with cur := x, len := n, fsm := .bEmit }
  | pack => { s with v := x, r := n + 1, fsm := .aEmit }

section
variable (d : RunDetector) {s : State}

theorem RunDetector.head_step (hf : s.fsm = d.head) (hok : s.GroupOk) (hn : s.n ≤ s.params.srcBytes)
    (hpos : s.pos < s.n) : ∃ u, Regrouped s u ∧ engineStep s = .next (d.during (s.sample s.w s.pos) 0 u) := by
  cases d with
  | nibble => exact engineStep_nHead hf hok hn hpos
  | byte => exact engineStep_bHead hf hok hn hpos
  | pack => exact engineStep_aHead hf hok hn hpos

/-- The detectors' scan steps are the one of R107. -/
theorem RunDetector.scan_step (x : Byte) (n : Nat) (hok : s.GroupOk) (hn : s.n ≤ s.params.srcBytes) :
    ∃ u, Regrouped s u ∧ engineStep (d.during x n s) = .next
      (if n < d.capm1 ∧ s.pos + 1 + n < s.n ∧ s.sample s.w (s.pos + 1 + n) = x then d.during x (n + 1) u
        else d.after x n u) := by
  cases d with
  | nibble =>
    obtain ⟨_, ⟨hu, grp, gidx, gv, rfl⟩, e⟩ := engineStep_nScan (s := nibble.during x n s) rfl hok hn
    exact ⟨{ s with grp := grp, gidx := gidx, gv := gv }, ⟨hu, grp, gidx, gv, rfl⟩, e⟩
  | byte =>
    obtain ⟨_, ⟨hu, grp, gidx, gv, rfl⟩, e⟩ := engineStep_bScan (s := byte.during x n s) rfl hok hn
    exact ⟨{ s with grp := grp, gidx := gidx, gv := gv }, ⟨hu, grp, gidx, gv, rfl⟩, e⟩
  | pack =>
    obtain ⟨_, ⟨hu, grp, gidx, gv, rfl⟩, e⟩ := engineStep_aScan (s := pack.during x n s) rfl hok hn
    refine ⟨{ s with grp := grp, gidx := gidx, gv := gv }, ⟨hu, grp, gidx, gv, rfl⟩, e.trans ?_⟩
    simp only [during, capm1, Nat.add_assoc, Nat.add_comm 1 n, show n + 1 < 255 ↔ n < 254 by omega]
    rfl

end

section
variable (d : RunDetector) {s : State} (hn : s.n ≤ s.params.srcBytes) (hpos : s.pos < s.n)
include hn hpos

/-- The scan goes on while the run does. -/
theorem RunDetector.scan_run {n : Nat} {u : State} (hu : Regrouped s u)
    (hlt : n < runLen (s.stream s.w s.n) s.pos (d.capm1 + 1)) :
    ∃ v, Regrouped s v ∧ engineStep (d.during (s.sample s.w s.pos) n u) = .next
      (if n + 1 < runLen (s.stream s.w s.n) s.pos (d.capm1 + 1)
        then d.during (s.sample s.w s.pos) (n + 1) v else d.after (s.sample s.w s.pos) n v) := by
  obtain ⟨hok, _, _, _, rfl⟩ := hu
  obtain ⟨v, ⟨hv, grp, gidx, gv, rfl⟩, e⟩ := d.scan_step (s.sample s.w s.pos) n hok hn
  refine ⟨_, ⟨hv, grp, gidx, gv, rfl⟩, e.trans ?_⟩
  have hgo := lt_runLen_iff (by simpa using hpos) (Nat.le_add_left 1 d.capm1) (Nat.succ_le_of_lt hlt)
  simp only [stream_get?, if_pos hpos, Nat.succ_eq_add_one, Nat.add_lt_add_iff_right, Option.ite_none_right_eq_some,
    Option.some.injEq] at hgo
  simp only [hgo, Nat.add_assoc, Nat.add_comm 1 n]
  rfl

/-- From the scan state with `n` counted, the rest of the run is counted in one step a sample, and one step more
leaves. -/
theorem RunDetector.engineSteps_during (k : Nat) {n : Nat} {u : State} (hu : Regrouped s u)
    (hrun : n + k + 1 = runLen (s.stream s.w s.n) s.pos (d.capm1 + 1)) :
    ∃ v, Regrouped s v ∧ engineSteps (k + 1) (d.during (s.sample s.w s.pos) n u) =
      .next (d.after (s.sample s.w s.pos) (n + k) v) := by
  induction k generalizing n u with
  | zero =>
    obtain ⟨v, hv, e⟩ := d.scan_run hn hpos hu (n := n) (by omega)
    rw [if_neg (by omega)] at e
    exact ⟨v, hv, by rw [engineSteps_succ, e, andThen_of_next, engineSteps_zero, Nat.add_zero]⟩
  | succ k ih =>
    obtain ⟨v, hv, e⟩ := d.scan_run hn hpos hu (n := n) (by omega)
    rw [if_pos (by omega)] at e
    obtain ⟨t, ht, hsteps⟩ := ih hv (n := n + 1) (by omega)
    exact ⟨t, ht, by rw [engineSteps_succ, e, andThen_of_next, hsteps, Nat.add_right_comm, Nat.add_assoc]⟩

/-- From the head step on the detector counts the run and leaves. -/
theorem RunDetector.engineSteps_run (hf : s.fsm = d.head) (hok : s.GroupOk) :
    ∃ u, Regrouped s u ∧ engineSteps (1 + runLen (s.stream s.w s.n) s.pos (d.capm1 + 1)) s =
      .next (d.after (s.sample s.w s.pos) (runLen (s.stream s.w s.n) s.pos (d.capm1 + 1) - 1) u) := by
  have hlen := runLen_pos (S := s.stream s.w s.n) (by simpa using hpos) (d.capm1 + 1)
  obtain ⟨u, hu, ehead⟩ := d.head_step hf hok hn hpos
  obtain ⟨v, hv, escan⟩ :=
    d.engineSteps_during hn hpos (runLen (s.stream s.w s.n) s.pos (d.capm1 + 1) - 1) (n := 0) hu (by omega)
  rw [Nat.sub_add_cancel hlen, Nat.zero_add] at escan
  exact ⟨v, hv, by rw [Nat.add_comm, engineSteps_succ, ehead, andThen_of_next, escan]⟩

end

/-- Settles O57: each of the three detectors counts the run; `len` leaves out the head sample, `r` does not. -/
theorem scansCountTheRun : Obligations.ScansCountTheRun := by
  intro s hok hn hpos
  have hlen (w cap : Nat) : runLen (s.stream w s.n) s.pos cap - 1 + 1 = runLen (s.stream w s.n) s.pos cap :=
    Nat.sub_add_cancel (runLen_pos (by simpa using hpos) cap)
  refine ⟨fun hf _ => ?_, fun hf hw => ?_, fun hf hw => ?_⟩
  · obtain ⟨_, ⟨_, _, _, _, rfl⟩, e⟩ := RunDetector.nibble.engineSteps_run hn hpos hf hok
    exact ⟨_, e, rfl, rfl, hlen s.w 16, rfl⟩
  · obtain ⟨_, ⟨_, _, _, _, rfl⟩, e⟩ := RunDetector.byte.engineSteps_run hn hpos hf hok
    rw [hw, sample_eight] at e
    exact ⟨_, e, rfl, rfl, hlen 8 256, rfl⟩
  · obtain ⟨_, ⟨_, _, _, _, rfl⟩, e⟩ := RunDetector.pack.engineSteps_run hn hpos hf hok
    rw [hw, sample_eight] at e
    exact ⟨_, e, rfl, rfl, hlen 8 255, rfl⟩

end Sys2Proof.Machine

namespace Sys2Proof.Machine

/-! ### The nibble encoder on a list (R120) -/

/-- A nibble record's byte is its two fields side by side (R77, R123). -/
theorem nibrecByte_eq_append (l : Nat) {x : Byte} (hx : x.toNat < 16) :
    BitVec.ofNat 8 l <<< 4 ||| x = BitVec.ofNat 4 l ++ x.setWidth 4 := by
  have hlength : BitVec.ofNat 8 l <<< 4 = (BitVec.ofNat 4 l).setWidth 8 <<< 4 := by bv_omega
  have hvalue : x = (x.setWidth 4).setWidth 8 := by bv_omega
  conv_lhs => rw [hlength, hvalue]
  rw [← BitVec.setWidth_append_eq_shiftLeft_setWidth_or, BitVec.setWidth_eq]

theorem nibrecByte_value (l : Nat) {x : Byte} (hx : x.toNat < 16) :
    ((BitVec.ofNat 8 l <<< 4 ||| x).extractLsb' 0 4).toNat = x.toNat := by
  rw [nibrecByte_eq_append l hx, BitVec.extractLsb'_append_eq_right, BitVec.toNat_setWidth, Nat.mod_eq_of_lt hx]

theorem nibrecByte_length {l : Nat} (hl : l < 16) {x : Byte} (hx : x.toNat < 16) :
    ((BitVec.ofNat 8 l <<< 4 ||| x).extractLsb' 4 4).toNat = l := by
  rw [nibrecByte_eq_append l hx, BitVec.extractLsb'_append_eq_left, BitVec.toNat_ofNat, Nat.mod_eq_of_lt hl]

/-- The widths of the nibble commands (R127-R129). -/
abbrev NibbleWidth (w : Nat) : Prop := w = 1 ∨ w = 2 ∨ w = 4

theorem NibbleWidth.two_pow_le {w : Nat} (hw : NibbleWidth w) : 2 ^ w ≤ 16 := by
  rcases hw with rfl | rfl | rfl <;> decide

section
variable {S : List Byte} {motive : Nat → List Byte → Prop}

/-- Induction along the loop of `NibEnc` (R120): what holds of no bytes at the stream's end, and of a run's record
before the bytes for what follows the run, holds of what the loop gives from any position, for fuel enough. -/
theorem nibEncFrom_induction (atEnd : motive S.length [])
    (record : ∀ p (hp : p < S.length) B, motive (p + runLen S p 16) B →
      motive p ((BitVec.ofNat 8 (runLen S p 16 - 1) <<< 4 ||| S[p]) :: B)) :
    ∀ fuel p, p ≤ S.length → S.length ≤ p + fuel → motive p (nibEncFrom S fuel p) := by
  intro fuel
  induction fuel with
  | zero =>
    intro p hp hfuel
    obtain rfl : p = S.length := by omega
    exact atEnd
  | succ fuel ih =>
    intro p hp hfuel
    rcases Nat.lt_or_eq_of_le hp with hlt | rfl
    · have hrun := runLen_pos hlt 16
      rw [nibEncFrom, List.getElem?_eq_getElem hlt]
      exact record p hlt _ (ih _ (runLen_le_rest hp 16) (by omega))
    · rw [nibEncFrom, List.getElem?_eq_none (Nat.le_refl _)]
      exact atEnd

theorem nibEnc_induction (atEnd : motive S.length [])
    (record : ∀ p (hp : p < S.length) B, motive (p + runLen S p 16) B →
      motive p ((BitVec.ofNat 8 (runLen S p 16 - 1) <<< 4 ||| S[p]) :: B)) : motive 0 (nibEnc S) :=
  nibEncFrom_induction atEnd record S.length 0 (Nat.zero_le _) (Nat.le_add_left ..)

end

/-- Settles O42: a record's value field is the sample at its run's head. -/
theorem nibbleValueField : Obligations.NibbleValueField := by
  intro S w hw hS
  have hwidth := NibbleWidth.two_pow_le hw
  refine nibEnc_induction (motive := fun _ B => ∀ b ∈ B, (b.extractLsb' 0 4).toNat < 2 ^ w) nofun
    fun p hp B ih => List.forall_mem_cons.mpr ⟨?_, ih⟩
  have hx : S[p].toNat < 2 ^ w := hS _ (List.getElem_mem hp)
  rw [nibrecByte_value _ (by omega)]
  exact hx

/-- Settles O43: a record stands for 1 to 16 of the samples that are left. -/
theorem nibbleOutputSize : Obligations.NibbleOutputSize := by
  intro S
  refine nibEnc_induction (S := S)
    (motive := fun p B => (S.length - p + 15) / 16 ≤ B.length ∧ B.length ≤ S.length - p) (by simp) fun p hp B ih => ?_
  have h1 := runLen_pos hp 16
  have h16 := runLen_le_cap S p (show 1 ≤ 16 by decide)
  have hrest := runLen_le_rest (Nat.le_of_lt hp) 16
  rw [List.length_cons]
  omega

end Sys2Proof.Machine

namespace Sys2Proof.Machine

/-! ### The engine's turn, and the records it carries out -/

theorem step_engine {s : State} {ts : List Turn} (h : s.turns = .engine :: ts) :
    step s = engineStep { s with turns := ts } := by
  rw [step, nextTurn, h]
  rfl

/-- Where one operation comes first, only what follows its answer matters. -/
theorem andThen_congr {o : Out} {f g : State → Out} (h : ∀ t, o = .next t → f t = g t) : andThen o f = andThen o g := by
  cases o with
  | next t => exact h t rfl
  | fault x => rfl
  | refused x => rfl

section
variable {s : State}

theorem engineStep_nEmit_runs (hf : s.fsm = .nEmit) :
    engineStep s = andThen (exec (.nibrec (BitVec.ofNat 4 s.len) (s.cur.setWidth 4)) s)
      fun t => .next { t with fsm := .nHead } := by
  rw [engineStep, hf]
  rfl

theorem engineStep_bEmit_runs (hf : s.fsm = .bEmit) :
    engineStep s = andThen (exec (.byterec (BitVec.ofNat 8 s.len) s.cur) s)
      fun t => .next { t with fsm := .bHead } := by
  rw [engineStep, hf]
  rfl

theorem engineStep_pAwait_runs (hf : s.fsm = .pAwait) (ha : s.a < s.tmplen.toNat) (hroom : s.a < s.params.tmpBytes)
    (hk : s.k = 8) :
    engineStep s = andThen (exec (.stageaInfo (s.byteAt .tmp s.a)) s) fun t => .next { t with fsm := .pUnit } := by
  rw [engineStep, hf]
  simp only [stepPAwait, if_neg (Nat.not_le.mpr ha), if_pos hk]
  exact withByte_of_lt hroom

theorem engineStep_pOvf_runs (hf : s.fsm = .pOvf) (hrc : 127 ≤ s.rc) :
    engineStep s = andThen (exec (.packsegRepeat 127#7 s.rv) s) fun t => .next { t with rc := t.rc - 127 } := by
  rw [engineStep, hf]
  exact if_pos hrc

/-- P_END with a repeat stretch open: after its flush no literal segment is open to be closed (R175). -/
theorem engineStep_pEnd_runs_repeat {c : BitVec 7} (hf : s.fsm = .pEnd) (hm : s.mode = .run) (hc : c ≠ 0#7)
    (hrc : s.rc = c.toNat) :
    engineStep s = andThen (exec (.packsegRepeat c s.rv) s)
      fun t => .next { t with mode := .none, fsm := .finish } := by
  have hpos : 0 < s.rc := by
    rw [hrc]
    exact Nat.pos_of_ne_zero fun h0 => hc (BitVec.eq_of_toNat_eq h0)
  rw [engineStep, hf, exec, execPacksegRepeat_of_ne hc, ← hrc]
  simp only [stepPEnd, if_pos hm, flushRun, if_pos hpos]
  refine andThen_congr fun t ht => ?_
  obtain ⟨-, rfl⟩ := emitRepeat_next.mp ht
  rw [closeIfLit, if_neg (by simp [hm]), andThen_of_next]

theorem engineStep_pEnd_runs_literal {c : BitVec 7} (hf : s.fsm = .pEnd) (hm : s.mode = .lit) (hc : c ≠ 0#7)
    (hlc : s.lc = c.toNat) :
    engineStep s = andThen (exec (.packsegLiteral c) s)
      fun t => .next { t with mode := .none, fsm := .finish } := by
  rw [engineStep, hf, exec, execPacksegLiteral_of_ne hc, ← hlc]
  simp only [stepPEnd, closeIfLit, hm, reduceCtorEq, if_false, if_true, andThen_of_next]

end

/-- Settles O8, by what each of these steps carries out. -/
theorem stepRunsTheRecord : Obligations.StepRunsTheRecord := by
  intro s ts hturn
  rw [step_engine hturn]
  exact ⟨fun hf => engineStep_nEmit_runs hf, fun hf => engineStep_bEmit_runs hf,
    fun hf ha hroom hk => engineStep_pAwait_runs (s := { s with turns := ts }) hf ha hroom hk,
    fun hf hrc => engineStep_pOvf_runs (s := { s with turns := ts }) hf hrc,
    fun _ hf hm hc hrc => engineStep_pEnd_runs_repeat (s := { s with turns := ts }) hf hm hc hrc,
    fun _ hf hm hc hlc => engineStep_pEnd_runs_literal (s := { s with turns := ts }) hf hm hc hlc⟩

/-! ### The nibble encoder's steps (R121-R123) -/

section
variable {s : State}

theorem engineStep_nHead_end (hf : s.fsm = .nHead) (hpos : s.n ≤ s.pos) :
    engineStep s = .next { s with fsm := .finish } := by
  rw [engineStep, hf]
  exact if_pos hpos

theorem engineStep_nEmit (hf : s.fsm = .nEmit) (hlen : s.len ≤ 15) (hcur : s.cur.toNat < 16)
    (hroom : s.out < s.params.dstBytes) :
    engineStep s = .next { s with
      dst := Memory.write s.dst s.out (BitVec.ofNat 8 s.len <<< 4 ||| s.cur)
      out := s.out + 1, pos := s.pos + s.len + 1, fsm := .nHead } := by
  have hfield : (BitVec.ofNat 4 s.len).toNat = s.len := BitVec.toNat_ofNat .. ▸ Nat.mod_eq_of_lt (by omega)
  rw [engineStep_nEmit_runs hf, exec_nibrec_next.mpr ⟨hroom, rfl⟩, andThen_of_next, nibrecByte_eq_append _ hcur, hfield]

end

/-- Settles O56: the head and scan steps read the stream through a truthful group register, and the emit step stores
the record. -/
theorem nibbleSteps : Obligations.NibbleSteps := by
  intro s ts hturn hok hn hw
  rw [step_engine hturn]
  refine ⟨fun hf hpos => engineStep_nHead_end (s := { s with turns := ts }) hf hpos, fun hf hpos => ?_,
    fun hf hlen hin heq => ?_, fun hf hstop => ?_, fun hf hlen hcur hroom => ?_⟩
  · obtain ⟨_, ⟨-, grp, gidx, gv, rfl⟩, e⟩ := engineStep_nHead (s := { s with turns := ts }) hf hok hn hpos
    exact ⟨grp, gidx, gv, e⟩
  · obtain ⟨_, ⟨-, grp, gidx, gv, rfl⟩, e⟩ := engineStep_nScan (s := { s with turns := ts }) hf hok hn
    exact ⟨grp, gidx, gv, e.trans (congrArg _ (if_pos ⟨hlen, hin, heq⟩))⟩
  · obtain ⟨_, ⟨-, grp, gidx, gv, rfl⟩, e⟩ := engineStep_nScan (s := { s with turns := ts }) hf hok hn
    refine ⟨grp, gidx, gv, e.trans (congrArg _ (if_neg fun ⟨hlen, hin, heq⟩ => ?_))⟩
    rcases hstop with h | h | h
    · exact Nat.not_le.mpr hlen h
    · exact Nat.not_le.mpr hin h
    · exact h heq
  · exact engineStep_nEmit (s := { s with turns := ts }) hf hlen (Nat.lt_succ_of_le hcur) hroom

end Sys2Proof.Machine

namespace Sys2Proof.Machine

/-! ### The nibble machine computes NibEnc (R124) -/

theorem nibbleSample_lt {s : State} {w : Nat} (hw : NibbleWidth w) (i : Nat) : (s.sample w i).toNat < 16 := by
  have hlane : (s.sample w i).toNat < 2 ^ w := laneOf_lt _ _ _ _ (by omega)
  exact Nat.lt_of_lt_of_le hlane hw.two_pow_le

/-- The engine steps of one record: the head, a scan step for each sample it stands for, and the emit. -/
def nibrecSteps (b : Byte) : Nat := 2 + ((b.extractLsb' 4 4).toNat + 1)

/-- A run's record takes two steps more than the run has samples. -/
theorem nibrecSteps_of_run {r : Nat} (h1 : 1 ≤ r) (h16 : r ≤ 16) {x : Byte} (hx : x.toNat < 16) :
    nibrecSteps (BitVec.ofNat 8 (r - 1) <<< 4 ||| x) = 2 + r := by
  rw [nibrecSteps, nibrecByte_length (by omega) hx, Nat.sub_add_cancel h1]

/-- R124: the steps of all records are at most three a sample, as each record stands for at least one. -/
theorem nibEnc_steps_le {S : List Byte} (hS : ∀ x ∈ S, x.toNat < 16) :
    ((nibEnc S).map nibrecSteps).sum ≤ 3 * S.length := by
  refine nibEnc_induction (motive := fun p B => (B.map nibrecSteps).sum ≤ 3 * (S.length - p)) (Nat.zero_le _)
    fun p hp B ih => ?_
  have h1 := runLen_pos hp 16
  have h16 := runLen_le_cap S p (show 1 ≤ 16 by decide)
  have hrest := runLen_le_rest (Nat.le_of_lt hp) 16
  rw [List.map_cons, List.sum_cons, nibrecSteps_of_run h1 h16 (hS _ (List.getElem_mem hp))]
  omega

/-- From `s` to `t` the nibble machine passes `r` samples of its stream and appends the bytes `B` to DST. -/
structure NibbleStores (s t : State) (r : Nat) (B : List Byte) : Prop where
  n : t.n = s.n
  stream : t.stream t.w t.n = s.stream s.w s.n
  tmplen : t.tmplen = s.tmplen
  pos : t.pos = s.pos + r
  stored : t.bytesOf .dst t.out = s.bytesOf .dst s.out ++ B

theorem NibbleStores.trans {s t u : State} {r r' : Nat} {B B' : List Byte} (h : NibbleStores s t r B)
    (h' : NibbleStores t u r' B') : NibbleStores s u (r + r') (B ++ B') where
  n := h'.n.trans h.n
  stream := h'.stream.trans h.stream
  tmplen := h'.tmplen.trans h.tmplen
  pos := by rw [h'.pos, h.pos, Nat.add_assoc]
  stored := by rw [h'.stored, h.stored, List.append_assoc]

/-- One byte appended to DST. -/
theorem bytesOf_storeDst (s : State) (n : Nat) (b : Byte) :
    ({ s with dst := Memory.write s.dst n b } : State).bytesOf .dst (n + 1) = s.bytesOf .dst n ++ [b] :=
  bytesOf_append fun j => by simpa using byteAt_setBuf_write s .dst .dst n j b

theorem engineSteps_one (s : State) : engineSteps 1 s = engineStep s := by
  rw [engineSteps_succ]
  cases engineStep s <;> rfl

/-- What every engine step keeps, every number of engine steps keeps. -/
theorem engineSteps_keeps {P : State → Prop} (hstep : ∀ s t, P s → engineStep s = .next t → P t) :
    ∀ (k : Nat) (s t : State), P s → engineSteps k s = .next t → P t := by
  intro k
  induction k with
  | zero =>
    intro s t hs h
    cases h
    exact hs
  | succ k ih =>
    intro s t hs h
    rw [engineSteps_succ] at h
    obtain ⟨u, hu, h⟩ := andThen_next.mp h
    exact ih u t (hstep s u hs hu) h

/-- At `N_HEAD` within R31's bounds, with a truthful group register. -/
structure State.AtNibbleHead (s : State) : Prop where
  fsm : s.fsm = .nHead
  group : s.GroupOk
  bounds : s.BoundsOk

theorem State.AtNibbleHead.nibBounds {s : State} (h : s.AtNibbleHead) : s.params.ok ∧ s.NibBounds := by
  simpa only [State.BoundsOk, h.fsm] using h.bounds

/-- From the head the run at `pos` is counted, which moves neither cursor (R121, R122). -/
theorem engineSteps_countNibbleRun {s : State} (h : s.AtNibbleHead) (hpos : s.pos < s.n) :
    ∃ u, engineSteps (1 + runLen (s.stream s.w s.n) s.pos 16) s = .next u ∧ u.fsm = .nEmit ∧ u.GroupOk ∧
      u.cur = s.sample s.w s.pos ∧ u.len + 1 = runLen (s.stream s.w s.n) s.pos 16 ∧ NibbleStores s u 0 [] := by
  obtain ⟨⟨-, -, hsrc, -⟩, hn, -⟩ := h.nibBounds
  obtain ⟨_, ⟨hgroup, grp, gidx, gv, rfl⟩, hscan⟩ :=
    RunDetector.nibble.engineSteps_run (Nat.le_trans hn hsrc) hpos h.fsm h.group
  exact ⟨_, hscan, rfl, hgroup, rfl, Nat.sub_add_cancel (runLen_pos (by simpa using hpos) 16),
    rfl, rfl, rfl, rfl, (List.append_nil _).symm⟩

/-- The counted run's record is stored, and the run passed (R123). -/
theorem engineStep_nEmit_stores {u : State} (hf : u.fsm = .nEmit) (hb : u.BoundsOk) (hcur : u.cur.toNat < 16) :
    ∃ t, engineStep u = .next t ∧ t.fsm = .nHead ∧ (u.GroupOk → t.GroupOk) ∧
      NibbleStores u t (u.len + 1) [BitVec.ofNat 8 u.len <<< 4 ||| u.cur] := by
  simp only [State.BoundsOk, hf] at hb
  obtain ⟨⟨-, -, -, -, hdst⟩, ⟨hn, -, -, hout⟩, hlen, hrun⟩ := hb
  exact ⟨_, engineStep_nEmit hf hlen hcur (by omega), rfl, id, rfl, rfl, rfl, rfl, bytesOf_storeDst u u.out _⟩

/-- One record, from head to head. -/
theorem engineSteps_nibrec {s : State} (h : s.AtNibbleHead) (hpos : s.pos < s.n) {r : Nat}
    (hr : r = runLen (s.stream s.w s.n) s.pos 16) :
    ∃ t, engineSteps (2 + r) s = .next t ∧ t.AtNibbleHead ∧
      NibbleStores s t r [BitVec.ofNat 8 (r - 1) <<< 4 ||| s.sample s.w s.pos] := by
  obtain ⟨-, -, hw, -⟩ := h.nibBounds
  obtain ⟨u, hscan, huf, hug, hcur, hlen, hcount⟩ := engineSteps_countNibbleRun h hpos
  have hub : u.BoundsOk := engineSteps_keeps boundsOk_engineStep _ s u h.bounds hscan
  obtain ⟨t, hemit, htf, htg, hstore⟩ := engineStep_nEmit_stores huf hub (hcur ▸ nibbleSample_lt hw _)
  rw [← hr] at hscan hlen
  refine ⟨t, ?_, ⟨htf, htg hug, boundsOk_engineStep u t hub hemit⟩, ?_⟩
  · rw [show 2 + r = 1 + r + 1 by omega]
    exact engineSteps_trans hscan ((engineSteps_one u).trans hemit)
  · rw [← hlen, Nat.add_sub_cancel, ← hcur]
    simpa using hcount.trans hstore

/-- `B` is what the machine stores from position `p` of the stream `S` on: it does so from every head state there, in
the steps of `B`'s records and the one that finds the stream's end. -/
def NibbleRuns (S : List Byte) (p : Nat) (B : List Byte) : Prop :=
  ∀ s : State, s.AtNibbleHead → s.stream s.w s.n = S → s.pos = p →
    ∃ t r, engineSteps (1 + (B.map nibrecSteps).sum) s = .next t ∧ t.fsm = .finish ∧ p + r = S.length ∧
      NibbleStores s t r B

theorem nibbleRuns_end (S : List Byte) : NibbleRuns S S.length [] := by
  rintro s h rfl hpos
  rw [stream_length] at hpos
  refine ⟨{ s with fsm := .finish }, 0, ?_, rfl, rfl, rfl, rfl, rfl, rfl, (List.append_nil _).symm⟩
  exact (engineSteps_one s).trans (engineStep_nHead_end h.fsm (Nat.le_of_eq hpos.symm))

theorem nibbleRuns_record {S : List Byte} {p : Nat} (hp : p < S.length) {B : List Byte}
    (ih : NibbleRuns S (p + runLen S p 16) B) :
    NibbleRuns S p ((BitVec.ofNat 8 (runLen S p 16 - 1) <<< 4 ||| S[p]) :: B) := by
  rintro s h rfl rfl
  have hpos : s.pos < s.n := by simpa using hp
  have hx : (s.stream s.w s.n)[s.pos] = s.sample s.w s.pos := by simp [State.stream]
  obtain ⟨-, -, hw, -⟩ := h.nibBounds
  have hsteps := nibrecSteps_of_run (runLen_pos hp 16) (runLen_le_cap _ s.pos (by decide))
    (nibbleSample_lt (s := s) hw s.pos)
  obtain ⟨t, hrec, ht, hstore⟩ := engineSteps_nibrec h hpos rfl
  obtain ⟨u, r, hmore, hu, hend, hstores⟩ := ih t ht hstore.stream hstore.pos
  refine ⟨u, _, ?_, hu, (Nat.add_assoc ..).symm.trans hend, ?_⟩
  · rw [hx, List.map_cons, List.sum_cons, hsteps, Nat.add_left_comm]
    exact engineSteps_trans hrec hmore
  · rw [hx]
    exact hstore.trans hstores

/-- R124: from position 0 the machine stores `NibEnc` of its stream and passes all of it. -/
theorem nibbleRuns_nibEnc (S : List Byte) : NibbleRuns S 0 (nibEnc S) :=
  nibEnc_induction (nibbleRuns_end S) fun _ hp _ => nibbleRuns_record hp

/-- R124: from a head state with nothing passed or stored, the machine finishes with `NibEnc` of its stream in DST. -/
theorem engineSteps_nibEnc {s : State} (h : s.AtNibbleHead) (hpos : s.pos = 0) (hout : s.out = 0) :
    ∃ t, engineSteps (1 + ((nibEnc (s.stream s.w s.n)).map nibrecSteps).sum) s = .next t ∧ t.fsm = .finish ∧
      t.pos = s.n ∧ t.tmplen = s.tmplen ∧ t.bytesOf .dst t.out = nibEnc (s.stream s.w s.n) := by
  obtain ⟨t, r, hsteps, ht, hend, hstore⟩ := nibbleRuns_nibEnc (s.stream s.w s.n) s h rfl hpos
  refine ⟨t, hsteps, ht, ?_, hstore.tmplen, ?_⟩
  · rw [hstore.pos, hpos, hend, stream_length]
  · rw [hstore.stored, hout, bytesOf_zero, List.nil_append]

theorem nibEnc_stream_steps_le {s : State} {w : Nat} (hw : NibbleWidth w) (n : Nat) :
    1 + ((nibEnc (s.stream w n)).map nibrecSteps).sum ≤ 3 * n + 1 := by
  have hsum := nibEnc_steps_le (S := s.stream w n) (List.forall_mem_map.mpr fun i _ => nibbleSample_lt hw i)
  rw [stream_length] at hsum
  omega

/-- Settles O38: the machine takes exactly the steps of the bound by records, which the bound by samples covers. -/
theorem nibbleMachineAgrees : Obligations.NibbleMachineAgrees := by
  intro s hp hn hw hgv hf hpos hout
  have hbounds : s.BoundsOk := ⟨hp, by simp only [hf]; exact ⟨hn, hw, by omega, by omega⟩⟩
  have hhead : s.AtNibbleHead := ⟨hf, by simp [State.GroupOk, hgv], hbounds⟩
  obtain ⟨t, hsteps, ht, hend, -, hstored⟩ := engineSteps_nibEnc hhead hpos hout
  exact ⟨_, t, Nat.le_refl _, nibEnc_stream_steps_le hw s.n, hsteps, ht, hend, hstored⟩

/-! ### The nibble commands (R127-R129) -/

/-- An accepted command whose encoder reaches FINISH within the bound of R283 completes there (R205, R206). -/
theorem exec_accept_completes {c : Word} {i : Instr} (hi : decodeCommand c = .ok i) {s t : State} {k : Nat}
    (hn : s.lenReg.toNat ≤ s.params.nmax) (hsteps : engineSteps k { s.accept c with fsm := headOf i } = .next t)
    (ht : t.fsm = .finish) (hk : k + 1 ≤ stepBound s.lenReg.toNat) : exec i (s.accept c) = .next t.complete := by
  have hfinish : engineSteps 1 t = .next t.complete := by rw [engineSteps_one, engineStep, ht]
  rw [exec_of_decodeCommand hi, operate, State.accept_params, State.accept_n, if_neg (Nat.not_lt.mpr hn)]
  exact runEngine_of_steps (engineSteps_trans hsteps hfinish) rfl hk

/-- What completion shows the host (R206, R284): the bytes stored, where `OUTLEN` holds their number. -/
theorem complete_encodes {t : State} {B : List Byte} (hB : B.length < 2 ^ 32) (h : t.bytesOf .dst t.out = B) :
    t.complete.outlen.toNat = B.length ∧ t.complete.encodedBuffer = B := by
  have hout : t.out = B.length := by rw [← h, bytesOf_length]
  have hlen : t.complete.outlen.toNat = t.out := by
    rw [State.complete_outlen, BitVec.toNat_ofNat, hout, Nat.mod_eq_of_lt hB]
  refine ⟨hlen.trans hout, ?_⟩
  rw [State.encodedBuffer, hlen]
  exact h

/-- A command dispatched to the nibble encoder completes with `NibEnc` of its stream in DST. -/
theorem exec_nibbleCommand {c : Word} {i : Instr} (hi : decodeCommand c = .ok i) (hw : NibbleWidth (cmdBW c))
    {s : State} (hp : s.params.ok) (hn : s.lenReg.toNat ≤ s.params.nmax) :
    ∃ t, exec i (s.accept c) = .next t ∧ t.fsm = .idle ∧ t.status = 0x02#32 ∧
      t.outlen.toNat = (nibEnc (s.input (cmdBW c))).length ∧ t.encodedBuffer = nibEnc (s.input (cmdBW c)) ∧
      t.tmplen = 0#32 := by
  have hdispatch : headOf i = .nHead := by
    rcases decodeCommand_cases hi with ⟨rfl, -⟩ | ⟨rfl, -⟩ | ⟨rfl, -⟩ | ⟨-, h⟩ | ⟨-, h⟩
    · rfl
    · rfl
    · rfl
    · simp [NibbleWidth, h] at hw
    · simp [NibbleWidth, h] at hw
  have hhead : State.AtNibbleHead { s.accept c with fsm := .nHead } :=
    ⟨rfl, nofun, hp, hn, hw, Nat.zero_le _, Nat.le_refl _⟩
  obtain ⟨t, hsteps, ht, -, htmplen, hstored⟩ := engineSteps_nibEnc hhead rfl rfl
  have hbound := nibEnc_stream_steps_le (s := s) hw s.lenReg.toNat
  have hsize : (nibEnc (s.input (cmdBW c))).length ≤ s.lenReg.toNat :=
    Nat.le_trans (nibbleOutputSize _).2 (Nat.le_of_eq (stream_length ..))
  obtain ⟨houtlen, hbuffer⟩ := complete_encodes (Nat.lt_of_le_of_lt hsize s.lenReg.isLt) hstored
  refine ⟨t.complete, exec_accept_completes hi hn (hdispatch ▸ hsteps) ht ?_, rfl, rfl, houtlen, hbuffer, htmplen⟩
  exact Nat.le_trans (Nat.succ_le_succ hbound) (by unfold stepBound; omega)

/-- Settles O25: each of the three words names one of the nibble encoder's widths. -/
theorem nibbleCommandsEncode : Obligations.NibbleCommandsEncode := fun _ hp hn =>
  ⟨exec_nibbleCommand (c := 0x00000011#32) rfl (.inl rfl) hp hn,
    exec_nibbleCommand (c := 0x00000012#32) rfl (.inr (.inl rfl)) hp hn,
    exec_nibbleCommand (c := 0x00000014#32) rfl (.inr (.inr rfl)) hp hn⟩

end Sys2Proof.Machine

namespace Sys2Proof.Machine

/-! ### The byte encoder on a list (R140, R146) -/

section
variable {S : List Byte} {motive : Nat → List Byte → Prop} (atEnd : motive S.length [])
  (record : ∀ p (hp : p < S.length) B, motive (p + runLen S p 256) B →
    motive p (BitVec.ofNat 8 (runLen S p 256 - 1) :: S[p] :: B))
include atEnd record

/-- Induction along the loop of `ByteEnc` (R140): what holds of no bytes at the stream's end, and of a run's record
before the bytes for what follows the run, holds of what the loop gives from any position, for fuel enough. -/
theorem byteEncFrom_induction (fuel p : Nat) (hp : p ≤ S.length) (hfuel : S.length ≤ p + fuel) :
    motive p (byteEncFrom S fuel p) := by
  induction fuel generalizing p with
  | zero =>
    obtain rfl : p = S.length := by omega
    exact atEnd
  | succ fuel ih =>
    rcases Nat.lt_or_eq_of_le hp with hlt | rfl
    · have hrun := runLen_pos hlt 256
      rw [byteEncFrom, List.getElem?_eq_getElem hlt]
      exact record p hlt _ (ih _ (runLen_le_rest hp 256) (by omega))
    · rw [byteEncFrom, List.getElem?_eq_none (Nat.le_refl _)]
      exact atEnd

theorem byteEnc_induction : motive 0 (byteEnc S) :=
  byteEncFrom_induction atEnd record S.length 0 (Nat.zero_le _) (Nat.le_add_left ..)

end

theorem byteEnc_length_even (S : List Byte) : (byteEnc S).length % 2 = 0 :=
  byteEnc_induction (motive := fun _ B => B.length % 2 = 0) rfl fun _ _ B ih => by
    rw [List.length_cons, List.length_cons]
    omega

/-- R146: two bytes stand for 1 to 256 of the samples that are left. -/
theorem byteEnc_length_bounds (S : List Byte) :
    2 * ((S.length + 255) / 256) ≤ (byteEnc S).length ∧ (byteEnc S).length ≤ 2 * S.length := by
  refine byteEnc_induction (S := S) (motive := fun p B =>
    2 * ((S.length - p + 255) / 256) ≤ B.length ∧ B.length ≤ 2 * (S.length - p)) (by simp) fun p hp B ih => ?_
  have h1 := runLen_pos hp 256
  have h256 := runLen_le_cap S p (show 1 ≤ 256 by decide)
  have hrest := runLen_le_rest (Nat.le_of_lt hp) 256
  rw [List.length_cons, List.length_cons]
  omega

/-- Where the next sample, if any, differs, the run is its head alone. -/
theorem runLen_eq_one {S : List Byte} {p cap : Nat} (hp : p < S.length)
    (hne : p + 1 < S.length → S[p]? ≠ S[p + 1]?) : runLen S p cap = 1 := by
  refine Nat.le_antisymm (Nat.le_of_not_lt fun h => ?_) (runLen_pos hp cap)
  have hrest := runLen_le_rest (Nat.le_of_lt hp) cap
  exact hne (by omega) (runLen_get h).symm

theorem byteEnc_length_of_no_repeat {S : List Byte} (hne : ∀ j, j + 1 < S.length → S[j]? ≠ S[j + 1]?) :
    (byteEnc S).length = 2 * S.length := by
  refine byteEnc_induction (S := S) (motive := fun p B => B.length = 2 * (S.length - p)) (by simp) fun p hp B ih => ?_
  rw [runLen_eq_one hp (hne p)] at ih
  rw [List.length_cons, List.length_cons, ih]
  omega

/-- Settles O44: each record is two bytes, and stands for one sample where no sample repeats. -/
theorem byteOutputSize : Obligations.ByteOutputSize := fun S =>
  ⟨byteEnc_length_even S, (byteEnc_length_bounds S).1, (byteEnc_length_bounds S).2, byteEnc_length_of_no_repeat⟩

/-! ### The byte encoder's steps (R142, R143) -/

section
variable {s : State}

theorem engineStep_bHead_end (hf : s.fsm = .bHead) (hpos : s.n ≤ s.pos) :
    engineStep s = .next { s with fsm := .finish } := by
  rw [engineStep, hf]
  exact if_pos hpos

theorem engineStep_bEmit (hf : s.fsm = .bEmit) (hlen : s.len ≤ 255) (hroom : s.out + 1 < s.params.dstBytes) :
    engineStep s = .next { s with
      dst := Memory.write (Memory.write s.dst s.out (BitVec.ofNat 8 s.len)) (s.out + 1) s.cur
      out := s.out + 2, pos := s.pos + s.len + 1, fsm := .bHead } := by
  have hfield : (BitVec.ofNat 8 s.len).toNat = s.len := BitVec.toNat_ofNat .. ▸ Nat.mod_eq_of_lt (by omega)
  rw [engineStep_bEmit_runs hf, exec_byterec_next.mpr ⟨hroom, rfl⟩, andThen_of_next, hfield]

end

/-- Settles O58: the emit step stores the record of the counted run. -/
theorem byteEmitStep : Obligations.ByteEmitStep := by
  intro s ts hturn hf hlen hroom
  rw [step_engine hturn]
  exact engineStep_bEmit (s := { s with turns := ts }) hf hlen hroom

/-! ### The byte machine computes ByteEnc (R144)

`NibbleStores` says of any two states how many samples were passed and which bytes appended; it names no step of the
nibble encoder, and the byte machine's progress is told by it as well. -/

/-- Two bytes appended to DST. -/
theorem bytesOf_storeDst_pair (s : State) (n : Nat) (b b' : Byte) :
    ({ s with dst := Memory.write (Memory.write s.dst n b) (n + 1) b' } : State).bytesOf .dst (n + 2) =
      s.bytesOf .dst n ++ [b, b'] := by
  rw [bytesOf_storeDst { s with dst := Memory.write s.dst n b } (n + 1) b', bytesOf_storeDst, List.append_assoc]
  rfl

/-- At `B_HEAD` within R31's bounds, with a truthful group register. -/
structure State.AtByteHead (s : State) : Prop where
  fsm : s.fsm = .bHead
  group : s.GroupOk
  bounds : s.BoundsOk

/-- One record, from head to head: the run at `pos` is counted (R142), stored and passed (R143). -/
theorem engineSteps_byterec {s : State} (h : s.AtByteHead) (hpos : s.pos < s.n) {r : Nat}
    (hr : r = runLen (s.stream s.w s.n) s.pos 256) :
    ∃ t, engineSteps (1 + r + 1) s = .next t ∧ t.AtByteHead ∧
      NibbleStores s t r [BitVec.ofNat 8 (r - 1), s.sample s.w s.pos] := by
  have hb := h.bounds
  simp only [State.BoundsOk, h.fsm] at hb
  obtain ⟨⟨-, -, hsrc, -, hdst⟩, hn, -, -, hout⟩ := hb
  have hp : s.pos < (s.stream s.w s.n).length := by simpa using hpos
  have h1 : 1 ≤ r := hr ▸ runLen_pos hp 256
  have h256 : r ≤ 256 := hr ▸ runLen_le_cap _ s.pos (by decide)
  obtain ⟨_, ⟨hgroup, grp, gidx, gv, rfl⟩, hscan⟩ :=
    RunDetector.byte.engineSteps_run (Nat.le_trans hn hsrc) hpos h.fsm h.group
  rw [show runLen _ _ (RunDetector.byte.capm1 + 1) = r from hr.symm] at hscan
  have hemit := engineStep_bEmit (s := RunDetector.byte.after (s.sample s.w s.pos) (r - 1) { s with
    grp := grp, gidx := gidx, gv := gv }) rfl (show r - 1 ≤ 255 by omega) (show s.out + 1 < s.params.dstBytes by omega)
  have hsteps := engineSteps_trans hscan ((engineSteps_one _).trans hemit)
  refine ⟨_, hsteps, ⟨rfl, hgroup, engineSteps_keeps boundsOk_engineStep _ s _ h.bounds hsteps⟩, rfl, rfl, rfl, ?_,
    bytesOf_storeDst_pair s s.out _ _⟩
  exact (Nat.add_assoc ..).trans (congrArg (s.pos + ·) (Nat.sub_add_cancel h1))

/-- `B` is what the machine stores from position `p` of the stream `S` on: it does so from every head state there, in
a step for each sample passed, a head and an emit step for the two bytes of each record, and the step that finds the
stream's end. -/
def ByteRuns (S : List Byte) (p : Nat) (B : List Byte) : Prop :=
  ∀ s : State, s.AtByteHead → s.stream s.w s.n = S → s.pos = p →
    ∃ t r, engineSteps (B.length + r + 1) s = .next t ∧ t.fsm = .finish ∧ p + r = S.length ∧ NibbleStores s t r B

theorem byteRuns_end (S : List Byte) : ByteRuns S S.length [] := by
  rintro s h rfl hpos
  rw [stream_length] at hpos
  refine ⟨{ s with fsm := .finish }, 0, ?_, rfl, rfl, rfl, rfl, rfl, rfl, (List.append_nil _).symm⟩
  exact (engineSteps_one s).trans (engineStep_bHead_end h.fsm (Nat.le_of_eq hpos.symm))

theorem byteRuns_record {S : List Byte} {p : Nat} (hp : p < S.length) {B : List Byte}
    (ih : ByteRuns S (p + runLen S p 256) B) :
    ByteRuns S p (BitVec.ofNat 8 (runLen S p 256 - 1) :: S[p] :: B) := by
  rintro s h rfl rfl
  have hpos : s.pos < s.n := by simpa using hp
  have hx : (s.stream s.w s.n)[s.pos] = s.sample s.w s.pos := by simp [State.stream]
  obtain ⟨t, hrec, ht, hstore⟩ := engineSteps_byterec h hpos rfl
  obtain ⟨u, r, hmore, hu, hend, hstores⟩ := ih t ht hstore.stream hstore.pos
  refine ⟨u, runLen (s.stream s.w s.n) s.pos 256 + r, ?_, hu, (Nat.add_assoc ..).symm.trans hend, ?_⟩
  · have hsteps := engineSteps_trans hrec hmore
    rwa [show 1 + runLen (s.stream s.w s.n) s.pos 256 + 1 + (B.length + r + 1) =
      B.length + 1 + 1 + (runLen (s.stream s.w s.n) s.pos 256 + r) + 1 by omega] at hsteps
  · rw [hx]
    exact hstore.trans hstores

/-- R144: from position 0 the machine stores `ByteEnc` of its stream and passes all of it. -/
theorem byteRuns_byteEnc (S : List Byte) : ByteRuns S 0 (byteEnc S) :=
  byteEnc_induction (byteRuns_end S) fun _ hp _ => byteRuns_record hp

/-- R144: from a head state with nothing passed or stored, the machine finishes with `ByteEnc` of its stream in DST. -/
theorem engineSteps_byteEnc {s : State} (h : s.AtByteHead) (hpos : s.pos = 0) (hout : s.out = 0) :
    ∃ t, engineSteps ((byteEnc (s.stream s.w s.n)).length + s.n + 1) s = .next t ∧ t.fsm = .finish ∧
      t.pos = s.n ∧ t.tmplen = s.tmplen ∧ t.bytesOf .dst t.out = byteEnc (s.stream s.w s.n) := by
  obtain ⟨t, r, hsteps, ht, hend, hstore⟩ := byteRuns_byteEnc (s.stream s.w s.n) s h rfl hpos
  obtain rfl : r = s.n := by simpa using hend
  refine ⟨t, hsteps, ht, ?_, hstore.tmplen, ?_⟩
  · rw [hstore.pos, hpos, Nat.zero_add]
  · rw [hstore.stored, hout, bytesOf_zero, List.nil_append]

theorem byteEnc_stream_length_le (s : State) (w n : Nat) : (byteEnc (s.stream w n)).length ≤ 2 * n := by
  simpa using (byteEnc_length_bounds (s.stream w n)).2

/-- Settles O39: a step for each sample and for each byte of the output, of which there are at most two a sample. -/
theorem byteMachineAgrees : Obligations.ByteMachineAgrees := by
  intro s hp hn hw hgv hf hpos hout
  have hbounds : s.BoundsOk := ⟨hp, by simp only [hf]; exact ⟨hn, hw, by omega, by omega⟩⟩
  have hhead : s.AtByteHead := ⟨hf, by simp [State.GroupOk, hgv], hbounds⟩
  have hsize := byteEnc_stream_length_le s s.w s.n
  obtain ⟨t, hsteps, ht, hend, -, hstored⟩ := engineSteps_byteEnc hhead hpos hout
  exact ⟨_, t, by omega, hsteps, ht, hend, hw ▸ hstored⟩

/-- Settles O26: accepted, the command runs the byte machine from its head, and completes where that ends. -/
theorem byteCommandEncodes : Obligations.ByteCommandEncodes := by
  intro s hp hn
  have hhead : State.AtByteHead { s.accept 0x00000018#32 with fsm := .bHead } :=
    ⟨rfl, nofun, hp, hn, rfl, Nat.zero_le _, Nat.le_refl _⟩
  obtain ⟨t, hsteps, ht, -, htmplen, hstored⟩ := engineSteps_byteEnc hhead rfl rfl
  have hsize : (byteEnc (s.input 8)).length ≤ 2 * s.lenReg.toNat := byteEnc_stream_length_le s 8 s.lenReg.toNat
  obtain ⟨-, hnmax, -⟩ := hp
  obtain ⟨houtlen, hbuffer⟩ := complete_encodes (B := byteEnc (s.input 8)) (by omega) hstored
  have hbound : (byteEnc (s.input 8)).length + s.lenReg.toNat + 1 + 1 ≤ stepBound s.lenReg.toNat := by
    unfold stepBound
    omega
  exact ⟨t.complete, exec_accept_completes rfl hn hsteps ht hbound, rfl, rfl, houtlen, hbuffer, htmplen⟩

end Sys2Proof.Machine

namespace Sys2Proof.Machine

/-! ### Stage A's units on a list (R160, R161, R168) -/

theorem unitOf_fits {r : Nat} (v : Byte) (h : r ≤ 255) : (unitOf r v).fits := by
  unfold unitOf
  split
  · exact ⟨by omega, h⟩
  · trivial

theorem unitSamples_cons (u : AUnit) (us : List AUnit) : unitSamples (u :: us) = u.samples.length + unitSamples us := by
  simp [unitSamples]

section
variable {S : List Byte} {motive : Nat → List AUnit → Prop} (atEnd : motive S.length [])
  (unit : ∀ p (hp : p < S.length) us, motive (p + (unitOf (runLen S p 255) S[p]).samples.length) us →
    motive p (unitOf (runLen S p 255) S[p] :: us))
include atEnd unit

/-- Induction along the loop of `UnitsA` (R160): what holds of no units at the stream's end, and of the unit at a
position before the units for what follows it, holds of what the loop gives from any position, for fuel enough. -/
theorem unitsAFrom_induction (fuel p : Nat) (hp : p ≤ S.length) (hfuel : S.length ≤ p + fuel) :
    motive p (unitsAFrom S fuel p) := by
  induction fuel generalizing p with
  | zero =>
    obtain rfl : p = S.length := by omega
    exact atEnd
  | succ fuel ih =>
    rcases Nat.lt_or_eq_of_le hp with hlt | rfl
    · have hrest := runLen_le_rest hp 255
      have hnext := unit p hlt
      rw [unitsAFrom, List.getElem?_eq_getElem hlt]
      unfold unitOf at hnext
      by_cases hrun : 2 < runLen S p 255
      · simp only [if_pos hrun, AUnit.samples, List.length_replicate] at hnext ⊢
        exact hnext _ (ih _ hrest (by omega))
      · simp only [if_neg hrun, AUnit.samples, List.length_singleton] at hnext ⊢
        exact hnext _ (ih _ hlt (by omega))
    · rw [unitsAFrom, List.getElem?_eq_none (Nat.le_refl _)]
      exact atEnd

theorem unitsA_induction : motive 0 (unitsA S) :=
  unitsAFrom_induction atEnd unit S.length 0 (Nat.zero_le _) (Nat.le_add_left ..)

end

theorem unitsA_fits (S : List Byte) : ∀ u ∈ unitsA S, u.fits :=
  unitsA_induction (motive := fun _ us => ∀ u ∈ us, u.fits) nofun fun p _ _ ih =>
    List.forall_mem_cons.mpr ⟨unitOf_fits _ (runLen_le_cap S p (by decide)), ih⟩

/-- The units stand for as many samples as the stream has (R160). -/
theorem unitSamples_unitsA (S : List Byte) : unitSamples (unitsA S) = S.length := by
  refine unitsA_induction (S := S) (motive := fun p us => p ≤ S.length → unitSamples us = S.length - p)
    (by simp) (fun p hp us ih _ => ?_) (Nat.zero_le _)
  have hunit := unitOf_samples_le S[p] (runLen_pos hp 255) (runLen_le_rest hp.le 255)
  rw [unitSamples_cons, ih hunit]
  omega

/-- Any info byte may have been read before. -/
theorem parseA_stageA (S : List Byte) : parseA (stageA S) = some (unitsA S) := parseAFrom_layout _ (unitsA_fits S)

/-- Settles O46: the units fit their bytes, so ParseA undoes their layout. -/
theorem parseUndoesLayout : Obligations.ParseUndoesLayout := fun S =>
  ⟨parseA_stageA S, by rw [parseA_stageA]; rfl⟩

/-- R167: the STAGEA form takes at most a byte for each sample and one for each eight or part of eight. -/
theorem stageA_length_le (S : List Byte) : (stageA S).length ≤ S.length + (S.length + 7) / 8 := by
  obtain ⟨hunits, hbytes⟩ := units_le_samples (unitsA_fits S)
  rw [unitSamples_unitsA] at hunits hbytes
  rw [stageA, layout_length]
  omega

/-! ### Stage A's steps lay the units out (R164-R166) -/

/-- The units `us` are in TMP: all batches are closed, or the last one, open, has its info byte in `info` yet. -/
inductive Placed (s : State) : List AUnit → Prop
  | closed {us : List AUnit} (eights : us.length % 8 = 0) (fits : ∀ u ∈ us, u.fits) (samples : unitSamples us = s.pos)
      (bytes : s.bytesOf .tmp s.t = layout us) (hk : s.k = 0) : Placed s us
  | opened {closed batch : List AUnit} (h : BatchOpen s closed batch) (hb : batch.length = s.k) (hk : 0 < s.k)
      (h8 : s.k < 8) : Placed s (closed ++ batch)

theorem Placed.samples_eq {s : State} {us : List AUnit} (h : Placed s us) : unitSamples us = s.pos := by
  cases h with
  | closed _ _ samples => exact samples
  | opened h => exact h.samples

theorem Placed.regs {s t : State} {us : List AUnit} (h : Placed s us)
    (hsame : (t.tmp, t.epoch, t.pos, t.info, t.k, t.ip, t.t) = (s.tmp, s.epoch, s.pos, s.info, s.k, s.ip, s.t)) :
    Placed t us := by
  simp only [Prod.mk.injEq] at hsame
  obtain ⟨htmp, hepoch, hpos, hinfo, hk, hip, ht⟩ := hsame
  have hbytes : t.bytesOf .tmp t.t = s.bytesOf .tmp s.t := by rw [ht, bytesOf_of_buf (sp := .tmp) htmp hepoch]
  cases h with
  | closed eights fits samples bytes h0 =>
    exact .closed eights fits (samples.trans hpos.symm) (hbytes.trans bytes) (hk.trans h0)
  | opened h hb h0 h8 =>
    exact .opened ⟨h.eights, h.fits, h.samples.trans hpos.symm, hbytes.trans h.bytes, hip.trans h.slot,
      hinfo.trans h.kinds⟩ (hb.trans hk.symm) (hk ▸ h0) (hk ▸ h8)

/-- R164: a batch is open afterwards, empty if there was none. -/
theorem openBatch_placed {s t : State} {us : List AUnit} (h : Placed s us) (hnext : openBatch s = .next t) :
    ∃ closed batch, closed ++ batch = us ∧ BatchOpen t closed batch ∧ batch.length = t.k ∧ t.k < 8 ∧
      (t.r, t.v) = (s.r, s.v) := by
  unfold openBatch at hnext
  cases h with
  | closed eights fits samples bytes hk =>
    rw [if_pos hk] at hnext
    obtain ⟨u, hu, hnext⟩ := andThen_next.mp hnext
    obtain ⟨-, rfl⟩ := tmpAppend_next.mp hu
    cases hnext
    have hbytes := bytesOf_tmpAppend (s := s) (t := { s with tmp := Memory.write s.tmp s.t 0x00#8 }) rfl rfl
    rw [bytes] at hbytes
    refine ⟨us, [], List.append_nil us, ⟨eights, by simpa using fits, by simpa using samples, hbytes, ?_, rfl⟩, hk.symm,
      by simp [hk], rfl⟩
    simpa using congrArg List.length bytes
  | opened h hb hk h8 =>
    rw [if_neg (Nat.ne_of_gt hk)] at hnext
    cases hnext
    exact ⟨_, _, rfl, h, hb, h8, rfl⟩

theorem placeUnit_room {s t : State} (h : placeUnit s = .next t) :
    s.t < s.params.tmpBytes ∧ (2 < s.r → s.t + 1 < s.params.tmpBytes) := by
  unfold placeUnit at h
  split at h
  · obtain ⟨u, hu, h⟩ := andThen_next.mp h
    obtain ⟨w, hw, -⟩ := andThen_next.mp h
    obtain ⟨h1, rfl⟩ := tmpAppend_next.mp hu
    obtain ⟨h2, -⟩ := tmpAppend_next.mp hw
    exact ⟨h1, fun _ => h2⟩
  · obtain ⟨u, hu, -⟩ := andThen_next.mp h
    obtain ⟨h1, -⟩ := tmpAppend_next.mp hu
    exact ⟨h1, fun hr => absurd hr ‹_›⟩

/-- R165: the eighth unit closes the batch, an earlier one leaves it open. -/
theorem countUnit_placed {s t : State} {closed batch : List AUnit} (h : BatchOpen s closed batch)
    (hb : batch.length = s.k + 1) (hk : s.k < 8) (f : Fsm) (hnext : countUnit s = .next t) :
    Placed { t with fsm := f } (closed ++ batch) := by
  unfold countUnit at hnext
  split at hnext
  · have hne : batch ≠ [] := List.length_pos_iff.mp (by omega)
    have heights := h.eights
    obtain ⟨u, hu, hnext⟩ := andThen_next.mp hnext
    obtain ⟨-, rfl⟩ := bufWrite_next.mp hu
    cases hnext
    exact .closed (by rw [List.length_append]; omega) h.fits h.samples
      (bytesOf_backPatch (s := s) h hne (by omega) rfl rfl) rfl
  · cases hnext
    exact .opened ⟨h.eights, h.fits, h.samples, h.bytes, h.slot, h.kinds⟩ hb (Nat.succ_pos _) (by simp only; omega)

/-- A_EMIT places the unit of the counted run behind those before it. -/
theorem stepAEmit_placed {s : State} {us : List AUnit} (h : Placed s us) (h255 : s.r ≤ 255) :
    Ends (fun t => Placed t (us ++ [unitOf s.r s.v])) (stepAEmit s) := by
  intro t ht
  obtain ⟨s1, h1, ht⟩ := andThen_next.mp ht
  obtain ⟨s2, h2, ht⟩ := andThen_next.mp ht
  obtain ⟨s3, h3, ht⟩ := andThen_next.mp ht
  cases ht
  obtain ⟨closed, batch, rfl, hopen, hb, hk, hregs⟩ := openBatch_placed h h1
  obtain ⟨hr, hv⟩ := Prod.mk.inj hregs
  obtain ⟨hroom, hroom2⟩ := placeUnit_room h2
  obtain ⟨s2', h2', hplaced, hregs, -⟩ := placeUnit_laid hopen hb (hr ▸ h255) hroom hroom2
  cases h2.symm.trans h2'
  simp only [Prod.mk.injEq] at hregs
  obtain ⟨-, -, -, hk2⟩ := hregs
  rw [List.append_assoc, ← hr, ← hv]
  exact countUnit_placed hplaced (by rw [List.length_append, hb, hk2]; rfl) (hk2 ▸ hk) .aHead h3

/-- A_END back-patches the last info byte: TMP is the layout of the units placed (R166). -/
theorem stepAEnd_laid {s : State} {us : List AUnit} (h : Placed s us) :
    Ends (fun t => t.bytesOf .tmp s.t = layout us ∧ t.tmplen = BitVec.ofNat 32 s.t ∧ t.fsm = .pAwait ∧ t.pos = s.pos ∧
        (t.a, t.k, t.mode, t.rc, t.lc, t.out) = (0, 8, .none, 0, 0, 0)) (stepAEnd s) := by
  intro t ht
  obtain ⟨u, hu, ht⟩ := andThen_next.mp ht
  cases ht
  cases h with
  | closed _ _ _ bytes hk =>
    rw [if_neg (by omega)] at hu
    cases hu
    exact ⟨bytes, rfl, rfl, rfl, rfl⟩
  | opened h hb hk h8 =>
    rw [if_pos hk] at hu
    obtain ⟨-, rfl⟩ := bufWrite_next.mp hu
    exact ⟨bytesOf_backPatch (s := s) h (List.length_pos_iff.mp (by omega)) (by omega) rfl rfl, rfl, rfl, rfl, rfl⟩

/-! ### Stage A's machine computes StageA (R167) -/

theorem frame_engineSteps {k : Nat} {s t : State} (h : engineSteps k s = .next t) : t.frame = s.frame :=
  engineSteps_keeps (P := fun u => u.frame = s.frame) (fun _ _ hu hstep => (frame_engineStep hstep).trans hu) k s t rfl
    h

theorem boundsOk_engineSteps {k : Nat} {s t : State} (hs : s.BoundsOk) (h : engineSteps k s = .next t) : t.BoundsOk :=
  engineSteps_keeps boundsOk_engineStep k s t hs h

/-- A stream is read from what the engine never changes. -/
theorem stream_of_frame {s t : State} (h : t.frame = s.frame) (w n : Nat) : t.stream w n = s.stream w n := by
  simp only [State.frame, Prod.mk.injEq] at h
  obtain ⟨hparams, -, -, -, hsrc, -, -, -, hepoch⟩ := h
  refine stream_congr fun i _ => ?_
  rw [State.sample, State.sample, hparams, byteAt_of_buf (sp := .src) hsrc hepoch]

/-- At `A_HEAD` within R31's bounds, with a truthful group register and the units `us` in TMP. -/
structure State.AtUnitHead (s : State) (us : List AUnit) : Prop where
  fsm : s.fsm = .aHead
  group : s.GroupOk
  bounds : s.BoundsOk
  placed : Placed s us

theorem State.AtUnitHead.stageABounds {s : State} {us : List AUnit} (h : s.AtUnitHead us) :
    s.params.ok ∧ s.StageABounds := by
  simpa only [State.BoundsOk, h.fsm] using h.bounds

/-- Counting and placing a unit takes at most four steps for each sample it stands for. -/
theorem unitOf_steps_le {r : Nat} (h1 : 1 ≤ r) (v : Byte) : 1 + r + 1 ≤ 4 * (unitOf r v).samples.length := by
  unfold unitOf
  split <;> simp only [AUnit.samples, List.length_replicate, List.length_singleton] <;> omega

theorem EngineEffect.of_aEmit {s t : State} (h : EngineEffect s t) (hf : s.fsm = .aEmit) :
    t.fsm = .aHead ∧ (s.GroupOk → t.GroupOk) := by
  cases h with
  | placed => exact ⟨rfl, id⟩
  | _ => simp_all

/-- One unit, from head to head: the run at `pos` is counted (R162, R163), and its unit placed (R164, R165). -/
theorem engineSteps_unit {s : State} {us : List AUnit} (h : s.AtUnitHead us) (hpos : s.pos < s.n) {r : Nat}
    (hr : r = runLen (s.stream 8 s.n) s.pos 255) :
    ∃ t, engineSteps (1 + r + 1) s = .next t ∧ t.AtUnitHead (us ++ [unitOf r (s.sample 8 s.pos)]) := by
  obtain ⟨⟨-, -, hsrc, -⟩, hn, hw, -⟩ := h.stageABounds
  have h1 : 1 ≤ r := hr ▸ runLen_pos (by simpa using hpos) 255
  have h255 : r ≤ 255 := hr ▸ runLen_le_cap _ s.pos (by decide)
  obtain ⟨u, hu, hscan⟩ := RunDetector.pack.engineSteps_run (Nat.le_trans hn hsrc) hpos h.fsm h.group
  rw [hw, show runLen _ _ (RunDetector.pack.capm1 + 1) = r from hr.symm] at hscan
  obtain ⟨hgroup, grp, gidx, gv, rfl⟩ := hu
  have hb := boundsOk_engineSteps h.bounds hscan
  obtain ⟨t, hemit, htb⟩ := engineStep_bounds hb
  obtain ⟨htf, htg⟩ := (engineStep_effect hb hemit).of_aEmit rfl
  have hplaced := stepAEmit_placed (s := RunDetector.pack.after (s.sample 8 s.pos) (r - 1) { s with
    grp := grp, gidx := gidx, gv := gv }) (h.placed.regs rfl) (show r - 1 + 1 ≤ 255 by omega) t hemit
  simp only [RunDetector.after, Nat.sub_add_cancel h1] at hplaced
  exact ⟨t, engineSteps_trans hscan ((engineSteps_one _).trans hemit), htf, htg hgroup, htb, hplaced⟩

/-- From every head state at position `p` of the stream `S` with `placed` in TMP the machine goes on to place `us`, in
at most four steps for each sample passed, then finds the stream's end and closes Stage A. -/
def UnitRuns (S : List Byte) (p : Nat) (us : List AUnit) : Prop :=
  ∀ (s : State) (placed : List AUnit), s.AtUnitHead placed → s.stream 8 s.n = S → s.pos = p →
    ∃ k t, k ≤ 4 * (S.length - p) + 2 ∧ engineSteps k s = .next t ∧ t.stageABuffer = layout (placed ++ us) ∧
      t.fsm = .pAwait ∧ t.pos = S.length ∧ (t.a, t.k, t.mode, t.rc, t.lc, t.out) = (0, 8, .none, 0, 0, 0)

/-- A_HEAD at the stream's end, and A_END (R162, R166). -/
theorem unitRuns_end (S : List Byte) : UnitRuns S S.length [] := by
  rintro s placed h rfl hpos
  rw [stream_length] at hpos ⊢
  obtain ⟨⟨-, hnmax, -, -⟩, hn, -, -, ht, -⟩ := h.stageABounds
  have hhead : engineStep s = .next { s with fsm := .aEnd } := by
    rw [engineStep, h.fsm]
    exact if_pos hpos.ge
  have hb := boundsOk_engineStep s _ h.bounds hhead
  obtain ⟨t, hend, -⟩ := engineStep_bounds hb
  obtain ⟨hbytes, htmplen, htf, htpos, hregs⟩ := stepAEnd_laid (s := { s with fsm := .aEnd }) (h.placed.regs rfl) t hend
  have hlen : (BitVec.ofNat 32 s.t).toNat = s.t := by rw [BitVec.toNat_ofNat, Nat.mod_eq_of_lt (by omega)]
  refine ⟨2, t, by omega, engineSteps_trans ((engineSteps_one s).trans hhead) ((engineSteps_one _).trans hend), ?_, htf,
    htpos.trans hpos, hregs⟩
  rw [State.stageABuffer, htmplen, List.append_nil, ← hbytes]
  exact congrArg (t.bytesOf .tmp) hlen

theorem unitRuns_unit {S : List Byte} {p : Nat} (hp : p < S.length) {us : List AUnit}
    (ih : UnitRuns S (p + (unitOf (runLen S p 255) S[p]).samples.length) us) :
    UnitRuns S p (unitOf (runLen S p 255) S[p] :: us) := by
  rintro s placed h rfl rfl
  have hpos : s.pos < s.n := by simpa using hp
  have hx : (s.stream 8 s.n)[s.pos] = s.sample 8 s.pos := by simp [State.stream]
  rw [hx] at ih ⊢
  obtain ⟨t, hunit, ht⟩ := engineSteps_unit h hpos rfl
  have hframe := frame_engineSteps hunit
  have hn : t.n = s.n := by
    simp only [State.frame, Prod.mk.injEq] at hframe
    obtain ⟨-, -, -, hn, -⟩ := hframe
    exact hn
  have htpos : t.pos = s.pos + (unitOf (runLen (s.stream 8 s.n) s.pos 255) (s.sample 8 s.pos)).samples.length := by
    rw [← ht.placed.samples_eq, ← h.placed.samples_eq, unitSamples_append, unitSamples_cons, unitSamples_nil,
      Nat.add_zero]
  obtain ⟨k, v, hk, hmore, hbuffer, hend⟩ := ih t _ ht (by rw [hn, stream_of_frame hframe]) htpos
  refine ⟨_, v, ?_, engineSteps_trans hunit hmore, by rw [hbuffer, List.append_assoc]; rfl, hend⟩
  have hsteps := unitOf_steps_le (runLen_pos hp 255) (s.sample 8 s.pos)
  have hrest := unitOf_samples_le (s.sample 8 s.pos) (runLen_pos hp 255) (runLen_le_rest hp.le 255)
  omega

/-- From a head state with nothing passed or placed the machine closes Stage A with `StageA` of its stream in TMP. -/
theorem engineSteps_stageA {s : State} (h : s.AtUnitHead []) (hpos : s.pos = 0) :
    ∃ k t, k ≤ 4 * s.n + 2 ∧ engineSteps k s = .next t ∧ t.stageABuffer = stageA (s.stream 8 s.n) ∧
      t.fsm = .pAwait ∧ t.pos = s.n ∧ (t.a, t.k, t.mode, t.rc, t.lc, t.out) = (0, 8, .none, 0, 0, 0) := by
  have hruns : UnitRuns (s.stream 8 s.n) 0 (unitsA (s.stream 8 s.n)) :=
    unitsA_induction (unitRuns_end _) fun _ hp _ => unitRuns_unit hp
  simpa [stageA] using hruns s [] h rfl hpos

theorem atUnitHead_start {s : State} (hp : s.params.ok) (hn : s.n ≤ s.params.nmax) (hw : s.w = 8) (hgv : s.gv = false)
    (hf : s.fsm = .aHead) (hpos : s.pos = 0) (ht : s.t = 0) (hk : s.k = 0) : s.AtUnitHead [] := by
  have hbytes : s.bytesOf .tmp s.t = [] := by simp [ht]
  have hlaid : s.StageALaid := stageALaid_of_layout (us := []) hk rfl nofun hpos.symm hbytes
  refine ⟨hf, by simp [State.GroupOk, hgv], ⟨hp, ?_⟩, .closed rfl nofun hpos.symm hbytes hk⟩
  simp only [hf]
  exact ⟨hn, hw, by omega, by omega, hlaid⟩

/-- Settles O40: the units placed are those of the loop of `UnitsA`, and R31's bounds hold where the machine arrives. -/
theorem stageAMachineAgrees : Obligations.StageAMachineAgrees := by
  intro s hp hn hw hgv hf hpos ht hk
  have hhead := atUnitHead_start hp hn hw hgv hf hpos ht hk
  obtain ⟨k, t, hk, hsteps, hbuffer, htf, htpos, hregs⟩ := engineSteps_stageA hhead hpos
  have hsize := stageA_length_le (s.stream 8 s.n)
  rw [← hbuffer, State.stageABuffer, bytesOf_length, stream_length] at hsize
  simp only [Prod.mk.injEq] at hregs
  exact ⟨k, t, hk, hsteps, htf, htpos, hbuffer, hsize, hregs⟩

end Sys2Proof.Machine

namespace Sys2Proof.Machine

/-! ### Stage B's stretches and segments on a list (R169)

`us` goes on a literal stretch where it begins with a literal unit, and a repeat stretch of `v` where it begins with a
run unit of `v`; else the stretch ends before it. -/

/-- A literal stretch ends before `us`. -/
abbrev EndsLits (us : List AUnit) : Prop := ∀ b us', us ≠ .lit b :: us'

/-- A repeat stretch of `v` ends before `us`. -/
abbrev EndsReps (v : Byte) (us : List AUnit) : Prop := ∀ r us', us ≠ .run r v :: us'

theorem stretches_cons (u : AUnit) (us : List AUnit) : stretches (u :: us) = joinUnit u (stretches us) := rfl

theorem stretches_lit (b : Byte) (us : List AUnit) : ∃ bs ss, stretches (.lit b :: us) = .lits (b :: bs) :: ss := by
  rw [stretches_cons]
  rcases stretches us with _ | ⟨_ | _, ss⟩
  · exact ⟨[], [], rfl⟩
  · exact ⟨_, ss, rfl⟩
  · exact ⟨[], _, rfl⟩

/-- The first stretch takes in whatever count its first run unit has. -/
theorem stretches_run (v : Byte) (us : List AUnit) :
    ∃ t ss, ∀ r, stretches (.run r v :: us) = .reps v (r + t) :: ss := by
  simp only [stretches_cons]
  rcases stretches us with _ | ⟨_ | ⟨v', t⟩, ss⟩
  · exact ⟨0, [], fun _ => rfl⟩
  · exact ⟨0, _, fun _ => rfl⟩
  · by_cases hv : v = v'
    · exact ⟨t, ss, fun _ => if_pos hv⟩
    · exact ⟨0, _, fun _ => if_neg hv⟩

theorem stageB_of_stretches {us : List AUnit} {x : Stretch} {ss : List Stretch} (h : stretches us = x :: ss) :
    stageB us = x.bytes ++ ss.flatMap Stretch.bytes := by rw [stageB, h, List.flatMap_cons]

@[simp] theorem stageB_nil : stageB [] = [] := rfl

/-! #### Repeat stretches -/

theorem repSegments_of_lt (v : Byte) {t : Nat} (h : t < 127) :
    repSegments v t = if t = 0 then [] else [0x80#8 ||| BitVec.ofNat 8 t, v] := by
  rw [repSegments, Nat.div_eq_of_lt h, Nat.mod_eq_of_lt h]
  rfl

theorem repSegments_add (v : Byte) (t : Nat) : repSegments v (127 + t) = 0xFF#8 :: v :: repSegments v t := by
  have hdiv : (127 + t) / 127 = t / 127 + 1 := by omega
  have hmod : (127 + t) % 127 = t % 127 := by omega
  rw [repSegments, hdiv, hmod, List.replicate_succ]
  rfl

theorem repSegments_length (v : Byte) (t : Nat) : (repSegments v t).length = 2 * ((t + 126) / 127) := by
  by_cases h : t % 127 = 0 <;> simp [repSegments, h] <;> omega

/-- A repeat stretch that ends is stored on its own (R171, R172, R175). -/
theorem stageB_run_of_ends (r : Nat) {v : Byte} {us : List AUnit} (h : EndsReps v us) :
    stageB (.run r v :: us) = repSegments v r ++ stageB us := by
  have hjoin : joinUnit (.run r v) (stretches us) = .reps v r :: stretches us := by
    rcases us with _ | ⟨⟨r', v'⟩ | b, us⟩
    · rfl
    · obtain ⟨t, ss, hss⟩ := stretches_run v' us
      rw [hss r']
      exact if_neg fun hv => h r' us (by rw [hv])
    · obtain ⟨bs, ss, hss⟩ := stretches_lit b us
      rw [hss]
      rfl
  exact stageB_of_stretches ((stretches_cons _ us).trans hjoin)

/-- A run unit of the open stretch's value adds to it (R171). -/
theorem stageB_run_run (r r' : Nat) (v : Byte) (us : List AUnit) :
    stageB (.run r v :: .run r' v :: us) = stageB (.run (r + r') v :: us) := by
  obtain ⟨t, ss, hss⟩ := stretches_run v us
  have hjoin : stretches (.run r v :: .run r' v :: us) = .reps v (r + r' + t) :: ss := by
    rw [stretches_cons, hss, Nat.add_assoc]
    exact if_pos rfl
  rw [stageB, hjoin, stageB, hss]

/-- A stretch that holds 127 repeats begins with a full segment (R173). -/
theorem stageB_run_overflow (m : Nat) (v : Byte) (us : List AUnit) :
    stageB (.run (127 + m) v :: us) = 0xFF#8 :: v :: stageB (.run m v :: us) := by
  obtain ⟨t, ss, hss⟩ := stretches_run v us
  rw [stageB_of_stretches (hss _), stageB_of_stretches (hss _), Stretch.bytes, Nat.add_assoc, repSegments_add]
  rfl

/-! #### Literal stretches -/

/-- Any fuel that covers the list gives the same segments. -/
theorem litSegments_fuel {f g : Nat} {bs : List Byte} (hf : bs.length ≤ f) (hg : bs.length ≤ g) :
    litSegments f bs = litSegments g bs := by
  induction f generalizing g bs with
  | zero =>
    rw [List.length_eq_zero_iff.1 (Nat.le_zero.1 hf)]
    cases g <;> rfl
  | succ f ih =>
    cases bs with
    | nil => cases g <;> rfl
    | cons b bs =>
      cases g with
      | zero => simp at hg
      | succ g =>
        rw [List.length_cons] at hf hg
        simp only [litSegments]
        rw [ih (g := g)] <;> (rw [List.length_drop, List.length_cons]; omega)

/-- A literal stretch's first segment, then the rest. -/
theorem lits_bytes {bs : List Byte} (h : bs ≠ []) :
    (Stretch.lits bs).bytes =
      BitVec.ofNat 8 (bs.take 127).length :: bs.take 127 ++ (Stretch.lits (bs.drop 127)).bytes := by
  cases bs with
  | nil => exact absurd rfl h
  | cons b bs =>
    rw [Stretch.bytes, List.length_cons, litSegments]
    refine congrArg _ (litSegments_fuel ?_ (Nat.le_refl _))
    rw [List.length_drop, List.length_cons]
    omega

theorem litSegments_length {fuel : Nat} {bs : List Byte} (h : bs.length ≤ fuel) :
    (litSegments fuel bs).length = bs.length + (bs.length + 126) / 127 := by
  induction fuel generalizing bs with
  | zero =>
    rw [List.length_eq_zero_iff.1 (Nat.le_zero.1 h)]
    rfl
  | succ fuel ih =>
    cases bs with
    | nil => rfl
    | cons b bs =>
      have hrest : ((b :: bs).drop 127).length ≤ fuel := by
        rw [List.length_drop, List.length_cons] at *
        omega
      rw [litSegments, List.length_append, ih hrest]
      simp only [List.length_cons, List.length_take, List.length_drop]
      omega

/-- Literal units go on a literal stretch. -/
theorem stretches_lits_join {us : List AUnit} {cs : List Byte} {ss : List Stretch} (h : stretches us = .lits cs :: ss)
    (bs : List Byte) : stretches (bs.map AUnit.lit ++ us) = .lits (bs ++ cs) :: ss := by
  induction bs with
  | nil => exact h
  | cons b bs ih =>
    rw [List.map_cons, List.cons_append, stretches_cons, ih]
    rfl

/-- Literal units before which none stands and after which the stretch ends are a stretch. -/
theorem stretches_lits {us : List AUnit} (h : EndsLits us) {bs : List Byte} (hne : bs ≠ []) :
    stretches (bs.map AUnit.lit ++ us) = .lits bs :: stretches us := by
  obtain ⟨bs, b, rfl⟩ := (List.eq_nil_or_concat bs).resolve_left hne
  have hlast : stretches (.lit b :: us) = .lits [b] :: stretches us := by
    rcases us with _ | ⟨⟨r, v⟩ | c, us⟩
    · rfl
    · obtain ⟨t, ss, hss⟩ := stretches_run v us
      rw [stretches_cons, hss]
      rfl
    · exact absurd rfl (h c us)
  rw [List.concat_eq_append, List.map_append, List.append_assoc]
  exact stretches_lits_join hlast bs

/-- A literal segment ends where it is full or the stretch ends; it is stored on its own (R169, R171, R172). -/
theorem stageB_lits {bs : List Byte} {us : List AUnit} (hne : bs ≠ []) (h127 : bs.length ≤ 127)
    (hend : bs.length = 127 ∨ EndsLits us) :
    stageB (bs.map AUnit.lit ++ us) = BitVec.ofNat 8 bs.length :: bs ++ stageB us := by
  have hfirst : ∃ cs ss, stretches (bs.map AUnit.lit ++ us) = .lits (bs ++ cs) :: ss ∧
      stageB us = (Stretch.lits cs).bytes ++ ss.flatMap Stretch.bytes ∧ (bs.length = 127 ∨ cs = []) := by
    by_cases h : EndsLits us
    · exact ⟨[], stretches us, by rw [stretches_lits h hne, List.append_nil], rfl, .inr rfl⟩
    · have hfull := hend.resolve_right h
      simp only [EndsLits, ne_eq, not_forall, Decidable.not_not] at h
      obtain ⟨b, us', rfl⟩ := h
      obtain ⟨cs, ss, hss⟩ := stretches_lit b us'
      exact ⟨b :: cs, ss, stretches_lits_join hss bs, stageB_of_stretches hss, .inl hfull⟩
  obtain ⟨cs, ss, hss, hrest, hcut⟩ := hfirst
  have htake : (bs ++ cs).take 127 = bs ∧ (bs ++ cs).drop 127 = cs := by
    rcases hcut with hfull | rfl
    · rw [← hfull]
      simp
    · simpa using h127
  rw [stageB_of_stretches hss, hrest, lits_bytes (by simp [hne]), htake.1, htake.2, List.append_assoc]

/-! ### The size of PackEnc's output (R179) -/

/-- How many samples a stretch stands for. -/
def Stretch.count : Stretch → Nat
  | .lits bs => bs.length
  | .reps _ t => t

theorem joinUnit_count (u : AUnit) (ss : List Stretch) :
    ((joinUnit u ss).map Stretch.count).sum = u.samples.length + (ss.map Stretch.count).sum := by
  unfold joinUnit
  split
  · simp [Stretch.count, AUnit.samples]; omega
  · simp [Stretch.count, AUnit.samples]
  · split <;> simp [Stretch.count, AUnit.samples]; omega
  · simp [Stretch.count, AUnit.samples]

theorem stretches_count (us : List AUnit) : ((stretches us).map Stretch.count).sum = unitSamples us := by
  induction us with
  | nil => rfl
  | cons u us ih => rw [stretches_cons, joinUnit_count, ih, unitSamples_cons]

theorem Stretch.bytes_length (x : Stretch) :
    x.bytes.length = match x with
      | .lits bs => bs.length + (bs.length + 126) / 127
      | .reps _ t => 2 * ((t + 126) / 127) := by
  cases x with
  | lits bs => exact litSegments_length (Nat.le_refl _)
  | reps v t => exact repSegments_length v t

theorem stageB_length_le_double (us : List AUnit) : (stageB us).length ≤ 2 * unitSamples us := by
  rw [← stretches_count, stageB]
  induction stretches us with
  | nil => simp
  | cons x ss ih =>
    have hx : x.bytes.length ≤ 2 * x.count := by
      rw [Stretch.bytes_length]
      cases x <;> simp only [Stretch.count] <;> omega
    rw [List.flatMap_cons, List.length_append, List.map_cons, List.sum_cons]
    omega

/-- Stretches of units that fit: no two literal stretches in a row, and repeat stretches of 3 or more (R160, R169). -/
def Spaced : List Stretch → Prop
  | [] => True
  | .lits _ :: ss => (∀ cs ss', ss ≠ .lits cs :: ss') ∧ Spaced ss
  | .reps _ t :: ss => 3 ≤ t ∧ Spaced ss

theorem Spaced.joinUnit {u : AUnit} {ss : List Stretch} (hu : u.fits) (h : Spaced ss) : Spaced (joinUnit u ss) := by
  unfold Sys2Proof.Machine.joinUnit
  split
  · exact h
  · rename_i hlits
    exact ⟨hlits, h⟩
  · split
    · obtain ⟨ht, hss⟩ := h
      exact ⟨by omega, hss⟩
    · exact ⟨hu.1, h⟩
  · exact ⟨hu.1, h⟩

theorem spaced_stretches {us : List AUnit} (h : ∀ u ∈ us, u.fits) : Spaced (stretches us) := by
  induction us with
  | nil => trivial
  | cons u us ih =>
    obtain ⟨hu, hus⟩ := List.forall_mem_cons.mp h
    exact (ih hus).joinUnit hu

/-- R179 (b). A repeat stretch saves a byte or more, which pays for the part of a segment that the literal stretch
before it leaves empty. -/
theorem Spaced.length_le {ss : List Stretch} (h : Spaced ss) :
    (ss.flatMap Stretch.bytes).length ≤ (ss.map Stretch.count).sum + ((ss.map Stretch.count).sum + 126) / 127 ∧
      ∀ v t ss', ss = .reps v t :: ss' → (ss.flatMap Stretch.bytes).length + 1 ≤
        (ss.map Stretch.count).sum + ((ss.map Stretch.count).sum + 126) / 127 := by
  induction ss with
  | nil => exact ⟨Nat.zero_le _, nofun⟩
  | cons x ss ih =>
    simp only [List.flatMap_cons, List.length_append, List.map_cons, List.sum_cons, Stretch.bytes_length]
    cases x with
    | reps v t =>
      obtain ⟨ht, hss⟩ := h
      obtain ⟨hle, -⟩ := ih hss
      simp only [Stretch.count]
      exact ⟨by omega, fun _ _ _ _ => by omega⟩
    | lits bs =>
      obtain ⟨hnext, hss⟩ := h
      obtain ⟨hle, hsaved⟩ := ih hss
      refine ⟨?_, nofun⟩
      rcases ss with _ | ⟨cs | ⟨v, t⟩, ss⟩
      · simp [Stretch.count]
      · exact absurd rfl (hnext cs ss)
      · have hsaved := hsaved v t ss rfl
        simp only [Stretch.count] at hsaved ⊢
        omega

/-- With no three consecutive equal samples every unit is literal (R160). -/
theorem unitsA_of_no_triple {S : List Byte}
    (h : ∀ j, j + 2 < S.length → ¬(S[j]? = S[j + 1]? ∧ S[j + 1]? = S[j + 2]?)) : unitsA S = S.map AUnit.lit := by
  refine unitsA_induction (S := S) (motive := fun p us => us = (S.drop p).map AUnit.lit) (by simp) fun p hp us ih => ?_
  have hshort : ¬2 < runLen S p 255 := by
    intro hrun
    have hrest := runLen_le_rest hp.le 255
    have h1 : S[p + 1]? = S[p]? := runLen_get (show 1 < runLen S p 255 by omega)
    have h2 : S[p + 2]? = S[p]? := runLen_get hrun
    exact h p (by omega) ⟨h1.symm, h1.trans h2.symm⟩
  rw [unitOf, if_neg hshort] at ih ⊢
  rw [ih, List.drop_eq_getElem_cons hp]
  rfl

/-- Literal units alone are one literal stretch. -/
theorem stageB_all_lits (bs : List Byte) :
    (stageB (bs.map AUnit.lit)).length = bs.length + (bs.length + 126) / 127 := by
  by_cases hne : bs = []
  · simp [hne]
  · have hone := stretches_lits (us := []) nofun hne
    rw [List.append_nil] at hone
    rw [stageB_of_stretches hone, List.length_append, Stretch.bytes_length]
    rfl

/-- Settles O45: the units fit, so their stretches are spaced; without three equal samples in a row there is one. -/
theorem packOutputSize : Obligations.PackOutputSize := by
  intro S
  have hdouble := stageB_length_le_double (unitsA S)
  have hspaced := (spaced_stretches (unitsA_fits S)).length_le.1
  rw [stretches_count, unitSamples_unitsA] at hspaced
  rw [unitSamples_unitsA] at hdouble
  refine ⟨hdouble, hspaced, fun h => ?_⟩
  rw [packEnc, unitsA_of_no_triple h, stageB_all_lits]

end Sys2Proof.Machine

namespace Sys2Proof.Machine

/-! ### What Stage B owes (R170-R175)

At each step the bytes settled in DST and the segments of what is held back and still to come make up the output `B`. -/

theorem Ends.readByte {P : State → Prop} {sp : Space} {i : Nat} {s : State} {f : Byte → Out}
    (h : Ends P (f (s.byteAt sp i))) : Ends P (Sys2Proof.Machine.withByte sp i s f) :=
  fun t ht => h t (withByte_next.mp ht).2

/-- What is held back goes before the units `us`: an open repeat stretch as one run unit of its counter, an open literal
segment, whose control byte `x` is to be back-patched, as its literal units. -/
inductive Owes (B : List Byte) (us : List AUnit) (s : State) : Prop
  | none (hm : s.mode = .none) (h : s.bytesOf .dst s.out ++ stageB us = B)
  | run (hm : s.mode = .run) (h : s.bytesOf .dst s.out ++ stageB (.run s.rc s.rv :: us) = B)
  | lit (hm : s.mode = .lit) (done : List Byte) (x : Byte) (bs : List Byte)
      (hdst : s.bytesOf .dst s.out = done ++ x :: bs) (hhdr : done.length = s.hdr) (hlc : bs.length = s.lc)
      (h : done ++ stageB (bs.map AUnit.lit ++ us) = B)

section
variable {B : List Byte} {us : List AUnit} {s : State}

theorem Owes.regs (h : Owes B us s) {t : State} (hsame : (t.dst, t.epoch, t.out, t.mode, t.rc, t.rv, t.hdr, t.lc) =
    (s.dst, s.epoch, s.out, s.mode, s.rc, s.rv, s.hdr, s.lc)) : Owes B us t := by
  simp only [Prod.mk.injEq] at hsame
  obtain ⟨hdst, hepoch, hout, hmode, hrc, hrv, hhdr, hlc⟩ := hsame
  have hbytes : t.bytesOf .dst t.out = s.bytesOf .dst s.out := by rw [hout, bytesOf_of_buf (sp := .dst) hdst hepoch]
  cases h with
  | none hm h => exact .none (hmode.trans hm) (by rw [hbytes, h])
  | run hm h => exact .run (hmode.trans hm) (by rw [hbytes, hrc, hrv, h])
  | lit hm done x bs hs hd hb h =>
    exact .lit (hmode.trans hm) done x bs (hbytes.trans hs) (hd.trans hhdr.symm) (hb.trans hlc.symm) h

theorem Owes.of_none (h : Owes B us s) (hm : s.mode = .none) : s.bytesOf .dst s.out ++ stageB us = B := by
  cases h with
  | none _ h => exact h
  | run hm' => cases hm.symm.trans hm'
  | lit hm' => cases hm.symm.trans hm'

theorem Owes.of_run (h : Owes B us s) (hm : s.mode = .run) :
    s.bytesOf .dst s.out ++ stageB (.run s.rc s.rv :: us) = B := by
  cases h with
  | none hm' => cases hm.symm.trans hm'
  | run _ h => exact h
  | lit hm' => cases hm.symm.trans hm'

theorem Owes.of_lit (h : Owes B us s) (hm : s.mode = .lit) :
    ∃ done x bs, s.bytesOf .dst s.out = done ++ x :: bs ∧ done.length = s.hdr ∧ bs.length = s.lc ∧
      done ++ stageB (bs.map AUnit.lit ++ us) = B := by
  cases h with
  | none hm' => cases hm.symm.trans hm'
  | run hm' => cases hm.symm.trans hm'
  | lit _ done x bs hdst hhdr hlc h => exact ⟨done, x, bs, hdst, hhdr, hlc, h⟩

theorem Mode.eq_none {m : Mode} (hrun : m ≠ .run) (hlit : m ≠ .lit) : m = .none := by
  cases m with
  | none => rfl
  | run => exact absurd rfl hrun
  | lit => exact absurd rfl hlit

theorem bytesOf_patchDst (s : State) (n i : Nat) (b : Byte) :
    ({ s with dst := Memory.write s.dst i b } : State).bytesOf .dst n = (s.bytesOf .dst n).set i b :=
  bytesOf_write fun j => by simpa using byteAt_setBuf_write s .dst .dst i j b

/-! #### The parts of the steps -/

/-- R174: the segment closed is settled where it is full or the stretch ends. -/
theorem closeLiteral_owes (h : Owes B us s) (hm : s.mode = .lit) {c : Nat} (hc : s.lc = c) (h1 : 1 ≤ c) (h127 : c ≤ 127)
    (hend : c = 127 ∨ EndsLits us) :
    Ends (fun t => Owes B us t ∧ t.mode = .none ∧ (t.r, t.v, t.rc) = (s.r, s.v, s.rc)) (closeLiteral c s) := by
  intro t ht
  obtain ⟨-, rfl⟩ := closeLiteral_next.mp ht
  obtain ⟨done, x, bs, hdst, hhdr, hlc, h⟩ := h.of_lit hm
  have hlen : bs.length = c := hlc.trans hc
  have hstored := bytesOf_patchDst s s.out s.hdr (BitVec.ofNat 8 c)
  rw [hdst, ← hhdr, List.set_append_right _ _ (Nat.le_refl _), Nat.sub_self, List.set_cons_zero, hhdr] at hstored
  rw [stageB_lits (List.length_pos_iff.mp (by omega)) (by omega) (hlen.symm ▸ hend), hlen, ← List.append_assoc] at h
  exact ⟨.none rfl ((congrArg (· ++ stageB us) hstored).trans h), rfl, rfl⟩

theorem closeIfLit_owes (h : Owes B us s) (hend : EndsLits us) (hlc : s.mode = .lit → 1 ≤ s.lc ∧ s.lc ≤ 126) :
    Ends (fun t => Owes B us t ∧ t.mode ≠ .lit ∧ (t.r, t.v, t.rc) = (s.r, s.v, s.rc)) (closeIfLit s) := by
  refine .ite (fun hm t ht => ?_) fun hm => .next ⟨h, hm, rfl⟩
  have hlc := hlc hm
  obtain ⟨h, hm, hregs⟩ := closeLiteral_owes h hm rfl hlc.1 (by omega) (.inr hend) t ht
  exact ⟨h, by simp [hm], hregs⟩

theorem closeIfLit_atEnd (h : Owes B [] s) (hrun : s.mode ≠ .run) (hlc : s.mode = .lit → 1 ≤ s.lc ∧ s.lc ≤ 126) :
    Ends (fun t => t.bytesOf .dst t.out = B) (closeIfLit s) := by
  refine .ite (fun hm t ht => ?_) fun hm => .next (by simpa using h.of_none (Mode.eq_none hrun hm))
  have hlc := hlc hm
  obtain ⟨h, hm, -⟩ := closeLiteral_owes h hm rfl hlc.1 (by omega) (.inr nofun) t ht
  simpa using h.of_none hm

/-- What is left of a repeat stretch that ends is settled. -/
theorem flushRun_owes (h : Owes B us s) (hm : s.mode = .run) (hrc : s.rc ≤ 126) (hend : EndsReps s.rv us) :
    Ends (fun t => t.bytesOf .dst t.out ++ stageB us = B ∧ t = { s with dst := t.dst, out := t.out }) (flushRun s) := by
  have h := h.of_run hm
  rw [stageB_run_of_ends _ hend, repSegments_of_lt _ (by omega), ← List.append_assoc] at h
  refine .ite (fun hpos t ht => ?_) fun hpos => .next ⟨?_, rfl⟩
  · obtain ⟨-, rfl⟩ := emitRepeat_next.mp ht
    rw [if_neg (by omega)] at h
    have hstored := bytesOf_storeDst_pair s s.out (0x80#8 ||| BitVec.ofNat 8 s.rc) s.rv
    exact ⟨(congrArg (· ++ stageB us) hstored).trans h, rfl⟩
  · rwa [if_pos (by omega), List.append_nil] at h

theorem flushIfOther_owes (h : Owes B (.run s.r s.v :: us) s) (hlit : s.mode ≠ .lit) (hrc : s.rc ≤ 126) :
    Ends (fun t => Owes B (.run t.r t.v :: us) t ∧ t.mode ≠ .lit ∧ (t.mode = .run → t.rv = t.v)) (flushIfOther s) := by
  refine .ite (fun ⟨hm, hv⟩ => ?_) fun hn => .next ⟨h, hlit, fun hm => ?_⟩
  · have hend : EndsReps s.rv (.run s.r s.v :: us) := fun r us' he => by
      injection he with hunit
      injection hunit with _ hv'
      exact hv hv'.symm
    refine (flushRun_owes h hm hrc hend).andThen fun t ⟨hB, ht⟩ => .next ⟨.none rfl ?_, nofun, nofun⟩
    rw [ht] at hB ⊢
    exact hB
  · exact Decidable.not_not.mp fun hv => hn ⟨hm, hv⟩

/-- R171: the unit's repeats are held back in the stretch of its value. -/
theorem openRun_owes (h : Owes B (.run s.r s.v :: us) s) (hlit : s.mode ≠ .lit) (hrv : s.mode = .run → s.rv = s.v) :
    Owes B us { openRun s with rc := (openRun s).rc + s.r, fsm := .pOvf } := by
  unfold openRun
  split
  · rename_i hrun
    have h := h.of_none (Mode.eq_none hrun hlit)
    rw [← Nat.zero_add s.r] at h
    exact .run rfl h
  · rename_i hrun
    have hm : s.mode = .run := Decidable.not_not.mp hrun
    have h := h.of_run hm
    rw [← hrv hm, stageB_run_run] at h
    exact .run hm h

theorem flushIfRun_owes (h : Owes B us s) (hrc : s.rc ≤ 126) (hend : ∀ v, EndsReps v us) :
    Ends (fun t => Owes B us t ∧ t.mode ≠ .run ∧ t.v = s.v) (flushIfRun s) := by
  refine .ite (fun hm => ?_) fun hm => .next ⟨h, hm, rfl⟩
  refine (flushRun_owes h hm hrc (hend _)).andThen fun t ⟨hB, ht⟩ => .next ⟨.none rfl hB, nofun, ?_⟩
  rw [ht]

/-- R172: a literal segment is open, with nothing in it if it is new. -/
theorem openLit_owes (h : Owes B us s) (hrun : s.mode ≠ .run) :
    Ends (fun t => Owes B us t ∧ t.mode = .lit ∧ t.v = s.v) (openLit s) := by
  refine .ite (fun hm t ht => ?_) fun hm => .next ⟨h, Decidable.not_not.mp hm, rfl⟩
  obtain ⟨u, hu, ht⟩ := andThen_next.mp ht
  obtain ⟨-, rfl⟩ := emit_next.mp hu
  cases ht
  exact ⟨.lit rfl _ _ [] (bytesOf_storeDst s s.out 0x00#8) (bytesOf_length ..) rfl (h.of_none (Mode.eq_none hrun hm)),
    rfl, rfl⟩

/-- R172: the literal is in the open segment, which closes when it is full. -/
theorem appendLit_owes (h : Owes B (.lit s.v :: us) s) (hm : s.mode = .lit) : Ends (Owes B us) (appendLit s) := by
  refine .andThen (P := fun t => Owes B us { t with lc := t.lc + 1 } ∧ t.mode = .lit) (fun t ht => ?_)
    fun t ⟨h, hm⟩ => .ite (fun h127 u hu => ?_) fun _ => .next h
  · obtain ⟨-, rfl⟩ := emit_next.mp ht
    obtain ⟨done, x, bs, hdst, hhdr, hlc, h⟩ := h.of_lit hm
    refine ⟨.lit hm done x (bs ++ [s.v]) ?_ hhdr ?_ ?_, hm⟩
    · refine (bytesOf_storeDst s s.out s.v).trans ?_
      rw [hdst, List.append_assoc]
      rfl
    · rw [List.length_append, hlc]
      rfl
    · rw [← h, List.map_append, List.append_assoc]
      rfl
  · exact (closeLiteral_owes h hm h127 (by decide) (by decide) (.inl rfl) u hu).1

/-! #### The steps -/

theorem stepPLitUnit_owes (hrc : s.rc ≤ 126) (h : Owes B (.lit (s.byteAt .tmp s.a) :: us) s) :
    Ends (Owes B us) (stepPLitUnit s) := by
  refine .readByte ?_
  refine .andThen (flushIfRun_owes (h.regs ?_) hrc nofun) fun s1 ⟨h1, hrun1, hv1⟩ => ?_
  · rfl
  · refine (openLit_owes h1 hrun1).andThen fun s2 ⟨h2, hlit2, hv2⟩ => ?_
    rw [show s.byteAt .tmp s.a = s2.v from (hv2.trans hv1).symm] at h2
    exact (appendLit_owes h2 hlit2).andThen fun _ h3 => .next (h3.regs rfl)

section
variable (hrc : s.rc ≤ 126) (hlc : s.mode = .lit → 1 ≤ s.lc ∧ s.lc ≤ 126)
include hrc hlc

theorem stepPRunUnit_owes (h : Owes B (.run (s.byteAt .tmp s.a).toNat (s.byteAt .tmp (s.a + 1)) :: us) s) :
    Ends (Owes B us) (stepPRunUnit s) := by
  refine .readByte (.readByte ?_)
  refine .andThen (closeIfLit_owes (h.regs ?_) nofun hlc) fun s1 ⟨h1, hlit1, hregs⟩ => ?_
  · rfl
  · simp only [Prod.mk.injEq] at hregs
    obtain ⟨hr, hv, hrc1⟩ := hregs
    rw [← hr, ← hv] at h1
    exact (flushIfOther_owes h1 hlit1 (hrc1 ▸ hrc)).andThen fun _ ⟨h2, hlit2, hrv⟩ => .next (openRun_owes h2 hlit2 hrv)

/-- P_END settles what is held back (R175). -/
theorem stepPEnd_owes (h : Owes B [] s) : Ends (fun t => t.bytesOf .dst t.out = B) (stepPEnd s) := by
  rw [stepPEnd]
  by_cases hm : s.mode = .run
  · rw [if_pos hm]
    refine (flushRun_owes h hm hrc nofun).andThen fun t ⟨hB, ht⟩ => ?_
    rw [closeIfLit, if_neg (by rw [ht]; simp [hm])]
    rw [stageB_nil, List.append_nil] at hB
    exact .next hB
  · rw [if_neg hm]
    exact (closeIfLit_atEnd h hm hlc).andThen fun _ hB => .next hB

end

/-- P_OVF settles a full segment, as long as there is one (R173). -/
theorem stepPOvf_owes (h : Owes B us s) (hm : s.mode = .run) :
    Ends (fun t => Owes B us t ∧ t.reading = s.reading ∧ (t.fsm = s.fsm ∨ t.fsm = .pAwait)) (stepPOvf s) := by
  refine .ite (fun h127 t ht => ?_) fun _ => .next ⟨h.regs rfl, rfl, .inr rfl⟩
  rw [execPacksegRepeat_of_ne (by decide)] at ht
  obtain ⟨u, hu, ht⟩ := andThen_next.mp ht
  obtain ⟨-, rfl⟩ := emitRepeat_next.mp hu
  cases ht
  have h := h.of_run hm
  rw [← Nat.add_sub_of_le h127, stageB_run_overflow] at h
  have hstored := bytesOf_storeDst_pair s s.out 0xFF#8 s.rv
  refine ⟨.run hm (.trans ?_ h), rfl, .inl rfl⟩
  refine (congrArg (· ++ stageB (.run (s.rc - 127) s.rv :: us)) hstored).trans ?_
  rw [List.append_assoc]
  rfl

end

end Sys2Proof.Machine

namespace Sys2Proof.Machine

/-! ### What Stage B has yet to read (R168, R170-R172) -/

/-- The units that ParseA reads from the cursor on. -/
def State.unread (s : State) : Option (List AUnit) :=
  parseAFrom s.info s.k (s.bytesFrom .tmp s.a (s.tmplen.toNat - s.a))

section
variable {s t : State} {us : List AUnit}

/-- What Stage B reads stays while it emits. -/
theorem unread_of_reading (h : t.reading = s.reading) : t.unread = s.unread ∧ t.stageABuffer = s.stageABuffer := by
  simp only [State.reading, Prod.mk.injEq] at h
  obtain ⟨-, -, htmplen, ha, hk, hinfo, htmp, hepoch⟩ := h
  constructor
  · rw [State.unread, State.unread, hinfo, hk, ha, htmplen, bytesFrom_of_buf (sp := .tmp) htmp hepoch]
  · rw [State.stageABuffer, State.stageABuffer, htmplen, bytesOf_of_buf (sp := .tmp) htmp hepoch]

theorem unread_end (ha : s.tmplen.toNat ≤ s.a) : s.unread = some [] := by
  rw [State.unread, Nat.sub_eq_zero_of_le ha, bytesFrom_zero, parseAFrom_nil]

theorem unread_info (hk : s.k = 8) (ha : s.a < s.tmplen.toNat) (h : s.unread = some us) :
    ({ s with info := s.byteAt .tmp s.a, a := s.a + 1, k := 0 } : State).unread = some us := by
  rw [State.unread, hk, bytesFrom_rest ha] at h
  have hne : s.bytesFrom .tmp (s.a + 1) (s.tmplen.toNat - (s.a + 1)) ≠ [] := by
    intro hnil
    rw [hnil, parseAFrom_info_one] at h
    cases h
  rwa [parseAFrom_open _ _ hne] at h

theorem unread_run (hk : s.k < 8) (ha : s.a < s.tmplen.toNat) (hbit : s.info.getLsbD (7 - s.k) = true)
    (h : s.unread = some us) : ∃ us', us = .run (s.byteAt .tmp s.a).toNat (s.byteAt .tmp (s.a + 1)) :: us' ∧
      ({ s with a := s.a + 2, k := s.k + 1 } : State).unread = some us' := by
  rw [State.unread, bytesFrom_rest ha] at h
  have ha1 : s.a + 1 < s.tmplen.toNat := by
    by_contra hlast
    rw [Nat.sub_eq_zero_of_le (Nat.le_of_not_lt hlast), bytesFrom_zero, parseAFrom_run_one (by omega) hbit] at h
    cases h
  rw [bytesFrom_rest ha1, parseAFrom_run (by omega) hbit, Option.map_eq_some_iff] at h
  obtain ⟨us', h, rfl⟩ := h
  exact ⟨us', rfl, h⟩

theorem unread_lit (hk : s.k < 8) (ha : s.a < s.tmplen.toNat) (hbit : s.info.getLsbD (7 - s.k) = false)
    (h : s.unread = some us) : ∃ us', us = .lit (s.byteAt .tmp s.a) :: us' ∧
      ({ s with a := s.a + 1, k := s.k + 1 } : State).unread = some us' := by
  rw [State.unread, bytesFrom_rest ha, parseAFrom_lit (by omega) hbit, Option.map_eq_some_iff] at h
  obtain ⟨us', h, rfl⟩ := h
  exact ⟨us', rfl, h⟩

end

/-! ### Stage B's machine computes StageB (R177) -/

/-- With Stage A's buffer `T` in TMP, Stage B is on its way to the output `B`: it owes it before the units yet to read,
in P_END before none, and in FINISH it is in DST. -/
def State.Repacks (T B : List Byte) (s : State) : Prop :=
  s.stageABuffer = T ∧
    match s.fsm with
    | .pAwait | .pUnit | .pOvf => ∃ us, s.unread = some us ∧ Owes B us s
    | .pEnd => Owes B [] s
    | .finish => s.bytesOf .dst s.out = B
    | _ => False

theorem State.StageBBounds.segment_length {s : State} (h : s.StageBBounds) (hm : s.mode = .lit) :
    1 ≤ s.lc ∧ s.lc ≤ 126 := by
  obtain ⟨-, -, -, -, hlit, -⟩ := h
  obtain ⟨h1, h126, -⟩ := hlit hm
  exact ⟨h1, h126⟩

section
variable {T B : List Byte} {us : List AUnit} {s : State} (hbuffer : s.stageABuffer = T) (hunread : s.unread = some us)
  (howes : Owes B us s)
include hbuffer hunread howes

theorem stepPAwait_repacks : Ends (State.Repacks T B) (stepPAwait s) := by
  refine .ite (fun hend => .next ⟨hbuffer, ?_⟩) fun ha =>
    .ite (fun hk => .readByte (.next ⟨hbuffer, us, ?_, ?_⟩)) fun _ => .next ⟨hbuffer, us, hunread, howes.regs rfl⟩
  · cases (unread_end hend).symm.trans hunread
    exact howes.regs rfl
  · exact unread_info hk (Nat.lt_of_not_le ha) hunread
  · exact howes.regs rfl

theorem stepPUnit_repacks (hb : s.StageBBounds) (hrc : s.rc ≤ 126) (hk : s.k < 8) (ha : s.a < s.tmplen.toNat) :
    Ends (State.Repacks T B) (stepPUnit s) := by
  refine .ite (fun hbit t ht => ?_) fun hbit t ht => ?_
  · obtain ⟨us', rfl, hnext⟩ := unread_run hk ha hbit hunread
    obtain ⟨hemits, hf⟩ := stepPRunUnit_emits hb.hdr_lt t ht
    obtain ⟨hu, ht'⟩ := unread_of_reading hemits.reading
    refine ⟨ht'.trans hbuffer, ?_⟩
    simp only [hf]
    exact ⟨us', hu.trans hnext, stepPRunUnit_owes hrc hb.segment_length howes t ht⟩
  · obtain ⟨us', rfl, hnext⟩ := unread_lit hk ha (Bool.eq_false_of_not_eq_true hbit) hunread
    obtain ⟨hemits, hf⟩ := stepPLitUnit_emits hb.hdr_lt t ht
    obtain ⟨hu, ht'⟩ := unread_of_reading hemits.reading
    refine ⟨ht'.trans hbuffer, ?_⟩
    simp only [hf]
    exact ⟨us', hu.trans hnext, stepPLitUnit_owes hrc howes t ht⟩

theorem stepPOvf_repacks (hf : s.fsm = .pOvf) (hm : s.mode = .run) : Ends (State.Repacks T B) (stepPOvf s) := by
  intro t ht
  obtain ⟨howes', hreading, hf'⟩ := stepPOvf_owes howes hm t ht
  obtain ⟨hu, ht'⟩ := unread_of_reading hreading
  refine ⟨ht'.trans hbuffer, ?_⟩
  rcases hf' with hf' | hf' <;> simp only [hf', hf] <;> exact ⟨us, hu.trans hunread, howes'⟩

end

theorem repacks_engineStep {T B : List Byte} {s : State} (hb : s.BoundsOk) (hf : s.fsm ≠ .finish)
    (hs : s.Repacks T B) : Ends (State.Repacks T B) (engineStep s) := by
  obtain ⟨hbuffer, hs⟩ := hs
  obtain ⟨-, hb⟩ := hb
  cases hf : s.fsm <;> simp only [hf] at hs hb
  all_goals simp only [engineStep, hf]
  case pAwait =>
    obtain ⟨us, hunread, howes⟩ := hs
    exact stepPAwait_repacks hbuffer hunread howes
  case pUnit =>
    obtain ⟨us, hunread, howes⟩ := hs
    obtain ⟨hb, hrc, hk, ha⟩ := hb
    exact stepPUnit_repacks hbuffer hunread howes hb hrc hk ha
  case pOvf =>
    obtain ⟨us, hunread, howes⟩ := hs
    obtain ⟨-, hm, -⟩ := hb
    exact stepPOvf_repacks hbuffer hunread howes hf hm
  case pEnd =>
    obtain ⟨hb, hrc, -⟩ := hb
    intro t ht
    obtain ⟨hemits, hf'⟩ := stepPEnd_emits hb.hdr_lt t ht
    refine ⟨(unread_of_reading hemits.reading).2.trans hbuffer, ?_⟩
    simp only [hf']
    exact stepPEnd_owes hrc hb.segment_length hs t ht
  case finish => contradiction

/-- Stage B reaches FINISH one step before the operation's end. -/
theorem engineSteps_repack {T B : List Byte} {s : State} (hb : s.BoundsOk) (hs : s.Repacks T B) :
    ∃ k t, k + 1 ≤ s.stepsLeft ∧ engineSteps k s = .next t ∧ t.fsm = .finish ∧ t.Repacks T B := by
  induction hn : s.stepsLeft using Nat.strong_induction_on generalizing s with
  | _ n ih =>
    subst hn
    by_cases hf : s.fsm = .finish
    · exact ⟨0, s, by simp [State.stepsLeft, hf], rfl, hf, hs⟩
    · have hbusy : s.fsm ≠ .idle := by
        intro hidle
        simp [State.Repacks, hidle] at hs
      obtain ⟨u, hu, hub⟩ := engineStep_bounds hb
      have hless := stepsLeft_engineStep hb hbusy hu
      obtain ⟨k, t, hk, hsteps, ht⟩ := ih _ hless hub (repacks_engineStep hb hf hs u hu) rfl
      exact ⟨k + 1, t, by omega, by rw [engineSteps_succ, hu, andThen_of_next, hsteps], ht⟩

/-- From the registers R166 sets and the STAGEA form of `S` in TMP, the machine finishes with `PackEnc(S)` in DST. -/
theorem engineSteps_stageB {s : State} {S : List Byte} (hp : s.params.ok) (hn : s.n ≤ s.params.nmax)
    (hS : S.length = s.n) (hbuffer : s.stageABuffer = stageA S) (hf : s.fsm = .pAwait) (ha : s.a = 0) (hk : s.k = 8)
    (hm : s.mode = .none) (hrc : s.rc = 0) (hout : s.out = 0) :
    ∃ k t, k ≤ 6 * s.n + 2 ∧ engineSteps k s = .next t ∧ t.fsm = .finish ∧ t.stageABuffer = stageA S ∧
      t.bytesOf .dst t.out = packEnc S := by
  have hsize := stageA_length_le S
  rw [← hbuffer, State.stageABuffer, bytesOf_length, hS] at hsize
  have hunread : s.unread = some (unitsA S) := by
    rw [State.unread, hk, ha, Nat.sub_zero, bytesFrom_of_zero]
    exact (congrArg (parseAFrom s.info 8) hbuffer).trans (parseAFrom_layout _ (unitsA_fits S))
  have hroom : s.out + heldBack s.mode s.rc + 2 * unitSamples (unitsA S) + 0 ≤ 2 * s.n := by
    rw [hout, hm, heldBack_none, unitSamples_unitsA, hS]
    omega
  have hpacking : Packing s (unitsA S) 0 :=
    ⟨hp, hn, hsize, by omega, by omega, hunread, fun hl => absurd (hm.symm.trans hl) nofun, hroom⟩
  have hb : s.BoundsOk := by
    refine ⟨hp, ?_⟩
    simp only [hf]
    exact ⟨hpacking.stageBBounds fun hl => absurd (hm.symm.trans hl) nofun, by omega⟩
  have hs : s.Repacks (stageA S) (packEnc S) := by
    refine ⟨hbuffer, ?_⟩
    simp only [hf]
    exact ⟨_, hunread, .none hm (by rw [hout]; rfl)⟩
  obtain ⟨k, t, hk, hsteps, htf, hbuffer', ht⟩ := engineSteps_repack hb hs
  simp only [State.stepsLeft, hf] at hk
  simp only [htf] at ht
  exact ⟨k, t, by omega, hsteps, htf, hbuffer', ht⟩

/-- Settles O41: what is parsed are the units of `S`, and each step keeps what Stage B owes. -/
theorem stageBMachineAgrees : Obligations.StageBMachineAgrees := by
  intro s S us hp hn hS hbuffer hparse hf ha hk hm hrc _ hout
  obtain ⟨k, t, hk, hsteps, ht, -, hstored⟩ := engineSteps_stageB hp hn hS hbuffer hf ha hk hm hrc hout
  cases (hbuffer ▸ parseA_stageA S).symm.trans hparse
  exact ⟨k, t, hk, hsteps, ht, hstored⟩

/-! ### The adaptive command (R180) -/

/-- Settles O27: accepted, the command runs Stage A's machine and then Stage B's, and completes where that ends. -/
theorem packCommandEncodes : Obligations.PackCommandEncodes := by
  intro s hp hn
  have hhead : State.AtUnitHead { s.accept 0x00000038#32 with fsm := .aHead } [] :=
    atUnitHead_start hp hn rfl rfl rfl rfl rfl rfl
  obtain ⟨k, t, hk, hstepsA, hbuffer, hf, -, hregs⟩ := engineSteps_stageA hhead rfl
  have hframe := frame_engineSteps hstepsA
  simp only [State.frame, Prod.mk.injEq] at hframe hregs
  obtain ⟨hparams, -, -, htn, -⟩ := hframe
  obtain ⟨ha, hk8, hm, hrc, -, hout⟩ := hregs
  obtain ⟨k', u, hk', hstepsB, hu, hbuffer', hstored⟩ :=
    engineSteps_stageB (by rw [hparams]; exact hp) (by rw [htn, hparams]; exact hn)
      (by rw [htn]; exact stream_length ..) hbuffer hf ha hk8 hm hrc hout
  have hsize : (packEnc (s.input 8)).length ≤ 2 * s.lenReg.toNat := by
    simpa [State.input] using (packOutputSize (s.input 8)).1
  obtain ⟨-, hnmax, -⟩ := hp
  obtain ⟨houtlen, hencoded⟩ := complete_encodes (B := packEnc (s.input 8)) (by omega) hstored
  have hbuffer' : u.complete.stageABuffer = stageA (s.input 8) := hbuffer'
  have htmplen : u.complete.tmplen.toNat = (stageA (s.input 8)).length := by
    simpa [State.stageABuffer] using congrArg List.length hbuffer'
  refine ⟨u.complete, exec_accept_completes rfl hn (engineSteps_trans hstepsA hstepsB) hu ?_, rfl, rfl, houtlen,
    hencoded, htmplen, hbuffer'⟩
  rw [htn] at hk'
  simp only [State.accept_n] at hk hk'
  unfold stepBound
  omega

end Sys2Proof.Machine

namespace Sys2Proof.Machine

/-! ### The steps of Stage B (R170-R175) -/

/-- Settles O23: it is the record's meaning. -/
theorem infoByteOpensABatch : Obligations.InfoByteOpensABatch := fun _ _ => rfl

/-- Two operations one after the other, each with its answer. -/
theorem andThen_of_eq {o : Out} {f : State → Out} {t u : State} (h : o = .next t) (h' : f t = .next u) :
    andThen o f = .next u := andThen_next.mpr ⟨t, h, h'⟩

/-! What the parts of P_UNIT and P_END answer, in each of their cases. -/

section
variable {s : State}

theorem flushRun_of_zero (h : s.rc = 0) : flushRun s = .next s := if_neg (by omega)

theorem flushRun_of_pos (h : 0 < s.rc) (hroom : s.out + 1 < s.params.dstBytes) :
    flushRun s = .next { s with
      dst := Memory.write (Memory.write s.dst s.out (0x80#8 ||| BitVec.ofNat 8 s.rc)) (s.out + 1) s.rv
      out := s.out + 2 } := (if_pos h).trans (emitRepeat_next.mpr ⟨hroom, rfl⟩)

theorem closeIfLit_of_ne (h : s.mode ≠ .lit) : closeIfLit s = .next s := if_neg h

theorem closeIfLit_of_lit (h : s.mode = .lit) (hroom : s.hdr < s.params.dstBytes) :
    closeIfLit s = .next { s with dst := Memory.write s.dst s.hdr (BitVec.ofNat 8 s.lc), mode := .none } :=
  (if_pos h).trans (closeLiteral_next.mpr ⟨hroom, rfl⟩)

theorem flushIfRun_of_ne (h : s.mode ≠ .run) : flushIfRun s = .next s := if_neg h

theorem flushIfRun_of_run (h : s.mode = .run) {t : State} (hflush : flushRun s = .next t) :
    flushIfRun s = .next { t with rc := 0, mode := .none } := (if_pos h).trans (andThen_of_eq hflush rfl)

theorem flushIfRun_of_zero (h : s.mode = .run) (hrc : s.rc = 0) : flushIfRun s = .next { s with mode := .none } := by
  rw [flushIfRun_of_run h (flushRun_of_zero hrc), hrc]

theorem openLit_of_lit (h : s.mode = .lit) : openLit s = .next s := if_neg (Decidable.not_not.mpr h)

theorem openLit_of_ne (h : s.mode ≠ .lit) (hroom : s.out < s.params.dstBytes) :
    openLit s = .next { s with
      dst := Memory.write s.dst s.out 0x00#8, hdr := s.out, out := s.out + 1, lc := 0, mode := .lit } :=
  (if_pos h).trans (andThen_of_eq (emit_of_lt hroom) rfl)

theorem appendLit_of_ne (h : s.lc ≠ 126) (hroom : s.out < s.params.dstBytes) :
    appendLit s = .next { s with dst := Memory.write s.dst s.out s.v, out := s.out + 1, lc := s.lc + 1 } :=
  andThen_of_eq (emit_of_lt hroom) (if_neg (by simpa using h))

theorem appendLit_of_eq (h : s.lc = 126) (hroom : s.out < s.params.dstBytes) (hhdr : s.hdr < s.params.dstBytes) :
    appendLit s = .next { s with
      dst := Memory.write (Memory.write s.dst s.out s.v) s.hdr 127#8, out := s.out + 1, lc := 127, mode := .none } := by
  have hclose : appendLit s = .next { s with
      dst := Memory.write (Memory.write s.dst s.out s.v) s.hdr 127#8
      out := s.out + 1, lc := s.lc + 1, mode := .none } :=
    andThen_of_eq (emit_of_lt hroom) ((if_pos (by simpa using h)).trans (closeLiteral_next.mpr ⟨hhdr, rfl⟩))
  rwa [h] at hclose

end

/-! P_UNIT with a run unit (R171): it is read, an open literal segment is closed, and the repeats are counted. -/

/-- `s` with a run unit read at the cursor. -/
def State.readRun (s : State) : State :=
  { s with r := (s.byteAt .tmp s.a).toNat, v := s.byteAt .tmp (s.a + 1), a := s.a + 2, k := s.k + 1 }

/-- The end of P_UNIT with a run unit, once no literal segment is open. -/
def countRun (s : State) : Out :=
  andThen (flushIfOther s) fun s' => .next { openRun s' with rc := (openRun s').rc + s'.r, fsm := .pOvf }

section
variable {s t u : State}

theorem engineStep_pUnit_run (hf : s.fsm = .pUnit) (hbit : s.info.getLsbD (7 - s.k) = true)
    (hroom : s.a + 1 < s.params.tmpBytes) (hclose : closeIfLit s.readRun = .next t) (hcount : countRun t = .next u) :
    engineStep s = .next u := by
  rw [engineStep, hf]
  simp only [stepPUnit, if_pos hbit, stepPRunUnit]
  rw [withByte_of_lt (Nat.lt_of_succ_lt hroom), withByte_of_lt hroom]
  exact andThen_of_eq hclose hcount

theorem countRun_opens (hm : s.mode ≠ .run) :
    countRun s = .next { s with mode := .run, rv := s.v, rc := s.r, fsm := .pOvf } := by
  refine andThen_of_eq (if_neg fun ⟨hm', _⟩ => hm hm') ?_
  rw [openRun, if_pos hm, Nat.zero_add]

theorem countRun_joins (hm : s.mode = .run) (hv : s.rv = s.v) :
    countRun s = .next { s with rc := s.rc + s.r, fsm := .pOvf } := by
  refine andThen_of_eq (if_neg fun ⟨_, hv'⟩ => hv' hv) ?_
  rw [openRun, if_neg (Decidable.not_not.mpr hm)]

theorem countRun_replaces (hm : s.mode = .run) (hv : s.rv ≠ s.v) {dst : Memory} {out : Nat}
    (hflush : flushRun s = .next { s with dst := dst, out := out }) :
    countRun s = .next { s with dst := dst, out := out, rv := s.v, rc := s.r, fsm := .pOvf } := by
  refine andThen_of_eq ((if_pos ⟨hm, hv⟩).trans (andThen_of_eq hflush rfl)) ?_
  rw [openRun, if_pos (by simp), Nat.zero_add, hm]

end

/-! P_UNIT with a literal unit (R172): it is read, an open repeat stretch is flushed, and the literal is stored. -/

/-- `s` with a literal unit read at the cursor. -/
def State.readLit (s : State) : State := { s with v := s.byteAt .tmp s.a, a := s.a + 1, k := s.k + 1 }

section
variable {s t u w : State}

theorem engineStep_pUnit_lit (hf : s.fsm = .pUnit) (hbit : s.info.getLsbD (7 - s.k) = false)
    (hroom : s.a < s.params.tmpBytes) (hflush : flushIfRun s.readLit = .next t) (hopen : openLit t = .next u)
    (happend : appendLit u = .next w) : engineStep s = .next { w with fsm := .pAwait } := by
  rw [engineStep, hf]
  simp only [stepPUnit, hbit, Bool.false_eq_true, if_false, stepPLitUnit]
  rw [withByte_of_lt hroom]
  exact andThen_of_eq hflush (andThen_of_eq hopen (andThen_of_eq happend rfl))

/-! P_END (R175). -/

theorem engineStep_pEnd_run (hf : s.fsm = .pEnd) (hm : s.mode = .run) {dst : Memory} {out : Nat}
    (hflush : flushRun s = .next { s with dst := dst, out := out }) :
    engineStep s = .next { s with dst := dst, out := out, mode := .none, fsm := .finish } := by
  rw [engineStep, hf]
  exact andThen_of_eq ((if_pos hm).trans hflush) (andThen_of_eq (closeIfLit_of_ne (ne_of_eq_of_ne hm nofun)) rfl)

theorem engineStep_pEnd_of_ne (hf : s.fsm = .pEnd) (hm : s.mode ≠ .run) (hclose : closeIfLit s = .next t) :
    engineStep s = .next { t with mode := .none, fsm := .finish } := by
  rw [engineStep, hf]
  exact andThen_of_eq (if_neg hm) (andThen_of_eq hclose rfl)

end

/-- Settles O59: each step by the answers of its parts, from the state without the turn taken. -/
theorem stageBSteps : Obligations.StageBSteps := by
  intro s ts hturn
  rw [step_engine hturn]
  refine ⟨fun hf => ⟨fun ha => ?_, fun ha hk hroom => ?_, fun ha hk => ?_⟩, fun hf _ hbit hroom => ?_,
    fun hf _ hbit hroom => ?_, fun hf => ⟨fun hrc hroom => ?_, fun hrc => ?_⟩, fun hf => ?_⟩
  · rw [engineStep, hf]
    exact if_pos ha
  · rw [engineStep_pAwait_runs (s := { s with turns := ts }) hf ha hroom hk]
    rfl
  · rw [engineStep, hf]
    exact (if_neg (Nat.not_le.mpr ha)).trans (if_neg hk)
  · have hunit {t u : State} := engineStep_pUnit_run (s := { s with turns := ts }) (t := t) (u := u) hf hbit hroom
    refine ⟨fun hm => ?_, fun hm hhdr => ?_, fun hm hv => ?_, fun hm hv hrc => ?_, fun hm hv hrc hout => ?_⟩
    · exact hunit (closeIfLit_of_ne (ne_of_eq_of_ne hm nofun)) (countRun_opens (ne_of_eq_of_ne hm nofun))
    · exact hunit (closeIfLit_of_lit hm hhdr) (countRun_opens nofun)
    · exact hunit (closeIfLit_of_ne (ne_of_eq_of_ne hm nofun)) (countRun_joins hm hv)
    · exact hunit (closeIfLit_of_ne (ne_of_eq_of_ne hm nofun))
        (countRun_replaces (s := State.readRun { s with turns := ts }) hm hv (flushRun_of_zero hrc))
    · exact hunit (closeIfLit_of_ne (ne_of_eq_of_ne hm nofun))
        (countRun_replaces (s := State.readRun { s with turns := ts }) hm hv (flushRun_of_pos hrc hout))
  · have hunit {t u w : State} :=
      engineStep_pUnit_lit (s := { s with turns := ts }) (t := t) (u := u) (w := w) hf hbit hroom
    refine ⟨fun hm hout => ?_, fun hm hlc hout => ?_, fun hm hlc hout hhdr => ?_, fun hm hrc hout => ?_,
      fun hm hrc hout => ?_⟩
    · exact hunit (flushIfRun_of_ne (ne_of_eq_of_ne hm nofun))
        (openLit_of_ne (ne_of_eq_of_ne hm nofun) (Nat.lt_of_succ_lt hout)) (appendLit_of_ne nofun hout)
    · exact hunit (flushIfRun_of_ne (ne_of_eq_of_ne hm nofun)) (openLit_of_lit hm) (appendLit_of_ne hlc hout)
    · exact hunit (flushIfRun_of_ne (ne_of_eq_of_ne hm nofun)) (openLit_of_lit hm) (appendLit_of_eq hlc hout hhdr)
    · exact hunit (flushIfRun_of_zero (s := State.readLit { s with turns := ts }) hm hrc)
        (openLit_of_ne nofun (Nat.lt_of_succ_lt hout)) (appendLit_of_ne nofun hout)
    · have h1 : s.out + 1 < s.params.dstBytes := by omega
      have h2 : s.out + 2 < s.params.dstBytes := by omega
      exact hunit (flushIfRun_of_run (s := State.readLit { s with turns := ts }) hm (flushRun_of_pos hrc h1))
        (openLit_of_ne nofun h2) (appendLit_of_ne nofun hout)
  · rw [engineStep_pOvf_runs (s := { s with turns := ts }) hf hrc]
    exact andThen_of_eq (exec_packsegRepeat_next.mpr ⟨by decide, hroom, rfl⟩) rfl
  · rw [engineStep, hf]
    exact if_neg (Nat.not_le.mpr hrc)
  · refine ⟨fun hm hrc _ hout => ?_, fun hm hrc => ?_, fun hm hhdr => ?_, fun hm => ?_⟩
    · exact engineStep_pEnd_run (s := { s with turns := ts }) hf hm (flushRun_of_pos hrc hout)
    · exact engineStep_pEnd_run (s := { s with turns := ts }) hf hm (flushRun_of_zero hrc)
    · exact engineStep_pEnd_of_ne (s := { s with turns := ts }) hf (ne_of_eq_of_ne hm nofun) (closeIfLit_of_lit hm hhdr)
    · exact engineStep_pEnd_of_ne (s := { s with turns := ts }) hf (ne_of_eq_of_ne hm nofun)
        (closeIfLit_of_ne (ne_of_eq_of_ne hm nofun))

end Sys2Proof.Machine

namespace Sys2Proof.Machine

/-! ### The step in DECODE (R201, R202, R204, R205) -/

/-- Each of the five commands has a word that decodes to it (R72), and to place the command is to accept that word. -/
theorem word_of_command {i : Instr} (h : i.format = .cmd32) :
    ∃ c, decodeCommand c = .ok i ∧ ∀ s : State, s.place i = { s.accept c with turns := [] } := by
  cases i with
  | encN1 => exact ⟨_, decodeCommand_ok_iff.mpr rfl, fun _ => rfl⟩
  | encN2 => exact ⟨_, decodeCommand_ok_iff.mpr rfl, fun _ => rfl⟩
  | encN4 => exact ⟨_, decodeCommand_ok_iff.mpr rfl, fun _ => rfl⟩
  | encB8 => exact ⟨_, decodeCommand_ok_iff.mpr rfl, fun _ => rfl⟩
  | encA8 => exact ⟨_, decodeCommand_ok_iff.mpr rfl, fun _ => rfl⟩
  | nibrec => cases h
  | byterec => cases h
  | packsegRepeat => cases h
  | packsegLiteral => cases h
  | stageaInfo => cases h

section
variable {s : State} {i : Instr}

theorem step_of_no_turns (h : s.turns = []) : step s = runOperation s := by
  rw [step, nextTurn, h]

theorem runOperation_of_command (hf : s.fsm = .decode) (hi : decodeCommand s.cmd = .ok i) :
    runOperation s = exec i s := by
  rw [runOperation, if_pos hf, hi]

theorem runOperation_of_illegal {e : DecodeError} (hf : s.fsm = .decode) (he : decodeCommand s.cmd = .error e) :
    runOperation s = .next (s.raise .unsupportedFormat) := by
  rw [runOperation, if_pos hf, he]

theorem engineStep_dispatch (hf : s.fsm = .decode) (hi : decodeCommand s.cmd = .ok i) (hn : s.n ≤ s.params.nmax) :
    engineStep s = .next { s with fsm := headOf i } := by
  rw [engineStep, hf]
  show stepDecode s = _
  rw [stepDecode, hi]
  exact if_neg (Nat.not_lt.mpr hn)

end

/-- Settles O7: the operation that is left in DECODE is the command's meaning, and `place` accepts the command's
word. -/
theorem stepRunsTheDecodedCommand : Obligations.StepRunsTheDecodedCommand := by
  have hstep (s : State) (i : Instr) (hturns : s.turns = []) (hf : s.fsm = .decode)
      (hi : decodeCommand s.cmd = .ok i) : step s = exec i s :=
    (step_of_no_turns hturns).trans (runOperation_of_command hf hi)
  refine ⟨hstep, fun s i hformat => ?_⟩
  obtain ⟨c, hi, hplace⟩ := word_of_command hformat
  rw [hplace]
  exact hstep _ i rfl rfl hi

/-- Settles O10: error entry is all that is left of the operation. -/
theorem illegalWordEntersError : Obligations.IllegalWordEntersError := fun _ _ hturns hf he =>
  (step_of_no_turns hturns).trans (runOperation_of_illegal hf he)

/-- Settles O11: each command begins with the length check. -/
theorem overlongStreamEntersError : Obligations.OverlongStreamEntersError := by
  intro s i hformat hn
  obtain ⟨c, hi, -⟩ := word_of_command hformat
  rw [exec_of_decodeCommand hi]
  exact if_pos hn

/-- Settles O12: DECODE dispatches to the head of the command's encoder. -/
theorem dispatchGoesToTheEncoder : Obligations.DispatchGoesToTheEncoder := by
  intro s ts i hturn hf hi hn
  have hstep : step s = .next { s with turns := ts, fsm := headOf i } :=
    (step_engine hturn).trans (engineStep_dispatch (s := { s with turns := ts }) hf hi hn)
  refine ⟨?_, ?_, ?_⟩
  · rintro (rfl | rfl | rfl) <;> exact hstep
  · rintro rfl
    exact hstep
  · rintro rfl
    exact hstep

/-- Settles O60, by what completion sets. -/
theorem finishStep : Obligations.FinishStep := by
  intro s ts hturn hf
  rw [step_engine hturn, engineStep, hf]
  rfl

/-! ### The empty stream (R213) -/

theorem headOf_cases {c : Word} {i : Instr} (hi : decodeCommand c = .ok i) :
    headOf i = .nHead ∨ headOf i = .bHead ∨ headOf i = .aHead := by
  rcases decodeCommand_cases hi with ⟨rfl, -⟩ | ⟨rfl, -⟩ | ⟨rfl, -⟩ | ⟨rfl, -⟩ | ⟨rfl, -⟩ <;> simp [headOf]

/-- With nothing to encode, each encoder goes from its head to FINISH and leaves the block as accepted, but for the
`k` of Stage B. -/
theorem engineSteps_accept_empty {s : State} (c : Word) (hlen : s.lenReg = 0#32) {head : Fsm}
    (hhead : head = .nHead ∨ head = .bHead ∨ head = .aHead) :
    ∃ j k, j ≤ 5 ∧ engineSteps j { s.accept c with fsm := head } = .next { s.accept c with k := k, fsm := .finish } := by
  have hend : (s.accept c).n ≤ (s.accept c).pos := by simp [hlen]
  rcases hhead with rfl | rfl | rfl
  · exact ⟨1, 0, by decide, (engineSteps_one _).trans (engineStep_nHead_end rfl hend)⟩
  · exact ⟨1, 0, by decide, (engineSteps_one _).trans (engineStep_bHead_end rfl hend)⟩
  · have hskip : engineSteps 1 { s.accept c with fsm := .aHead } = .next { s.accept c with fsm := .aEnd } :=
      (engineSteps_one _).trans (if_pos hend)
    have hclose : engineSteps 3 { s.accept c with fsm := .aEnd } = .next { s.accept c with k := 8, fsm := .finish } := rfl
    exact ⟨4, 8, by decide, engineSteps_trans hskip hclose⟩

/-- Settles O29: the encoder is at its end where it starts, and FINISH completes with nothing emitted. -/
theorem emptyStreamSucceeds : Obligations.EmptyStreamSucceeds := by
  intro s i c hlen hi
  obtain ⟨j, k, hj, hsteps⟩ := engineSteps_accept_empty c hlen (headOf_cases hi)
  have hn : s.lenReg.toNat = 0 := by simp [hlen]
  refine ⟨_, exec_accept_completes hi (by omega) hsteps rfl ?_, rfl, rfl, rfl, rfl, rfl, rfl, rfl, rfl⟩
  simp only [stepBound, hn]
  omega

/-! ### How an operation ends (R207) -/

/-- What the encoder of command `i` leaves in `t` for a stream in `s`: `TMPLEN`, and `OUTLEN` bytes of DST. -/
def Encoded (s : State) (c : Word) (i : Instr) (t : State) : Prop :=
  (i = .encN1 ∨ i = .encN2 ∨ i = .encN4) ∧ t.tmplen = 0#32 ∧
      t.outlen.toNat = (nibEnc (s.input (cmdBW c))).length ∧ t.encodedBuffer = nibEnc (s.input (cmdBW c)) ∨
    i = .encB8 ∧ t.tmplen = 0#32 ∧ t.outlen.toNat = (byteEnc (s.input 8)).length ∧
      t.encodedBuffer = byteEnc (s.input 8) ∨
    i = .encA8 ∧ t.tmplen.toNat = (stageA (s.input 8)).length ∧
      t.outlen.toNat = (packEnc (s.input 8)).length ∧ t.encodedBuffer = packEnc (s.input 8)

/-- An accepted command of a stream that fits completes with its encoder's output. -/
theorem exec_accept_encodes {c : Word} {i : Instr} (hi : decodeCommand c = .ok i) {s : State} (hp : s.params.ok)
    (hn : s.lenReg.toNat ≤ s.params.nmax) :
    ∃ t, exec i (s.accept c) = .next t ∧ t.fsm = .idle ∧ t.status = 0x02#32 ∧ Encoded s c i t := by
  have nibble (hinstr : i = .encN1 ∨ i = .encN2 ∨ i = .encN4) (hw : NibbleWidth (cmdBW c)) :
      ∃ t, exec i (s.accept c) = .next t ∧ t.fsm = .idle ∧ t.status = 0x02#32 ∧ Encoded s c i t := by
    obtain ⟨t, h, hidle, hstatus, houtlen, hbuffer, htmplen⟩ := exec_nibbleCommand hi hw hp hn
    exact ⟨t, h, hidle, hstatus, .inl ⟨hinstr, htmplen, houtlen, hbuffer⟩⟩
  rcases (commandsAreExactlyFiveWords c i).mp hi with
    ⟨rfl, rfl⟩ | ⟨rfl, rfl⟩ | ⟨rfl, rfl⟩ | ⟨rfl, rfl⟩ | ⟨rfl, rfl⟩
  · exact nibble (.inl rfl) (.inl rfl)
  · exact nibble (.inr (.inl rfl)) (.inr (.inl rfl))
  · exact nibble (.inr (.inr rfl)) (.inr (.inr rfl))
  · obtain ⟨t, h, hidle, hstatus, houtlen, hbuffer, htmplen⟩ := byteCommandEncodes s hp hn
    exact ⟨t, h, hidle, hstatus, .inr (.inl ⟨rfl, htmplen, houtlen, hbuffer⟩)⟩
  · obtain ⟨t, h, hidle, hstatus, houtlen, hbuffer, htmplen, -⟩ := packCommandEncodes s hp hn
    exact ⟨t, h, hidle, hstatus, .inr (.inr ⟨rfl, htmplen, houtlen, hbuffer⟩)⟩

/-- Settles O28: an illegal word and an over-long stream enter their errors, and every other command encodes within the
frame. -/
theorem operationSummary : Obligations.OperationSummary := by
  intro s c hp
  cases hi : decodeCommand c with
  | error e =>
    exact ⟨_, illegalWordEntersError _ e rfl rfl hi, rfl, rfl, rfl, fun _ => rfl, rfl, rfl, rfl, fun _ => rfl⟩
  | ok i =>
    have hformat := format_of_decodeCommand hi
    have hstep : step { s.accept c with turns := [] } = exec i (State.accept { s with turns := [] } c) :=
      stepRunsTheDecodedCommand.1 _ i rfl rfl hi
    rw [hstep]
    by_cases hn : s.params.nmax < s.lenReg.toNat
    · refine ⟨_, overlongStreamEntersError _ i hformat hn, rfl, rfl, rfl, fun _ => rfl, ?_⟩
      exact (if_pos hn).mpr ⟨rfl, rfl, rfl, fun _ => rfl⟩
    · obtain ⟨t, h, hidle, hstatus, hencoded⟩ :=
        exec_accept_encodes (s := { s with turns := [] }) hi hp (Nat.le_of_not_lt hn)
      obtain ⟨hcmd, hlen, -, -, -, -, -, -, hsrc⟩ := commandFrame i _ t hformat h
      exact ⟨t, h, hidle, hcmd, hlen, hsrc, (if_neg hn).mpr ⟨hstatus, hencoded⟩⟩

end Sys2Proof.Machine

namespace Sys2Proof.Machine

/-! ### The host's moves (R200, R209, R212) -/

section
variable {s : State}

theorem step_host {m : HostMove} {ts : List Turn} (h : s.turns = .host m :: ts) :
    step s = .next (hostMove m { s with turns := ts }) := by
  rw [step, nextTurn, h]
  rfl

theorem busy_of_not_idle (h : s.fsm ≠ .idle) : s.busy = true := decide_eq_true h

theorem not_busy_iff : s.busy = false ↔ s.fsm = .idle := by simp [State.busy]

theorem resultValid_iff : s.resultValid = true ↔ s.doneBit = true ∧ s.errField = 0#3 := by simp [State.resultValid]

/-! #### A register write: CMD and LEN of an idle block (R11, R12, R275) -/

theorem regWrite_of_busy (h : s.fsm ≠ .idle) (n : Nat) (v : Word) : s.regWrite n v = s := if_pos (busy_of_not_idle h)

theorem regWrite_cmd (h : s.fsm = .idle) (c : Word) : s.regWrite 0 c = s.accept c := by
  simp [State.regWrite, not_busy_iff.mpr h]

theorem regWrite_len (h : s.fsm = .idle) (v : Word) : s.regWrite 1 v = { s with lenReg := v } := by
  simp [State.regWrite, not_busy_iff.mpr h]

theorem regWrite_readOnly {n : Nat} (h : 2 ≤ n) (v : Word) : s.regWrite n v = s := by
  obtain ⟨k, rfl⟩ := Nat.exists_eq_add_of_le' h
  exact ite_self s

/-! #### A register read: what is stored, but OUTLEN and TMPLEN of a busy block (R274) -/

theorem regRead_outlen (h : s.fsm = .idle) : s.regRead 3 = s.answer s.outlen := by
  simp [State.regRead, not_busy_iff.mpr h]

theorem regRead_tmplen (h : s.fsm = .idle) : s.regRead 4 = s.answer s.tmplen := by
  simp [State.regRead, not_busy_iff.mpr h]

theorem regRead_outlen_of_busy (h : s.fsm ≠ .idle) : s.regRead 3 = s.answerDraw := if_pos (busy_of_not_idle h)

theorem regRead_tmplen_of_busy (h : s.fsm ≠ .idle) : s.regRead 4 = s.answerDraw := if_pos (busy_of_not_idle h)

theorem regRead_unmapped {n : Nat} (h : 5 ≤ n) : s.regRead n = s.answer 0#32 := by
  obtain ⟨k, rfl⟩ := Nat.exists_eq_add_of_le' h
  rfl

/-! #### The buffers (R41) -/

theorem srcWrite_stores {i : Nat} (hidle : s.fsm = .idle) (hi : i < s.params.srcBytes) (b : Byte) :
    s.srcWrite i b = { s with src := Memory.write s.src i b } := if_pos ⟨not_busy_iff.mpr hidle, hi⟩

theorem srcWrite_ignored {i : Nat} (h : s.fsm ≠ .idle ∨ s.params.srcBytes ≤ i) (b : Byte) : s.srcWrite i b = s := by
  refine if_neg ?_
  rintro ⟨hbusy, hi⟩
  exact h.elim (absurd (not_busy_iff.mp hbusy)) (Nat.not_le.mpr hi)

theorem srcRead_answers {i : Nat} (h : i < s.params.srcBytes) :
    s.srcRead i = s.answer ((s.byteAt .src i).setWidth 32) := if_pos h

theorem srcRead_draws {i : Nat} (h : s.params.srcBytes ≤ i) : s.srcRead i = s.answerDrawByte := if_neg (Nat.not_lt.mpr h)

theorem dstRead_answers {i : Nat} (hi : i < s.params.dstBytes) (hidle : s.fsm = .idle) (hdone : s.doneBit = true)
    (herr : s.errField = 0#3) (hout : i < s.outlen.toNat) :
    s.dstRead i = s.answer ((s.byteAt .dst i).setWidth 32) :=
  if_pos ⟨hi, not_busy_iff.mpr hidle, resultValid_iff.mpr ⟨hdone, herr⟩, hout⟩

theorem dstRead_draws {i : Nat} (h : s.params.dstBytes ≤ i ∨ s.fsm ≠ .idle ∨ s.doneBit = false ∨ s.errField ≠ 0#3 ∨
    s.outlen.toNat ≤ i) : s.dstRead i = s.answerDrawByte := by
  refine if_neg ?_
  rintro ⟨hi, hbusy, hvalid, hout⟩
  obtain ⟨hdone, herr⟩ := resultValid_iff.mp hvalid
  rcases h with h | h | h | h | h
  · exact Nat.not_le.mpr hi h
  · exact h (not_busy_iff.mp hbusy)
  · exact Bool.eq_false_iff.mp h hdone
  · exact h herr
  · exact Nat.not_le.mpr hout h

end

/-- Settles O9: the acceptance of an idle block sets every register of R32, a busy block ignores the write. -/
theorem commandAcceptance : Obligations.CommandAcceptance := by
  intro s ts c hturn
  rw [step_host hturn]
  exact ⟨fun h => congrArg _ (regWrite_cmd (s := { s with turns := ts }) h c),
    fun h => congrArg _ (regWrite_of_busy (s := { s with turns := ts }) h 0 c)⟩

/-- Settles O13: a host's turn is its move, and each row is the lemma about that move. -/
theorem hostMovesTable : Obligations.HostMovesTable := by
  intro s ts next u read draw drawByte
  have answers {m : HostMove} {t : State} (h : hostMove m u = t) : next m = .next t := congrArg _ h
  exact ⟨fun c h => answers (regWrite_cmd (s := u) h c),
    fun x h => answers (regWrite_len (s := u) h x),
    fun n x h => answers (regWrite_readOnly h x),
    fun n x h => answers (regWrite_of_busy (s := u) h n x),
    rfl, rfl, rfl,
    fun h => ⟨answers (regRead_outlen (s := u) h), answers (regRead_tmplen (s := u) h)⟩,
    fun h => ⟨answers (regRead_outlen_of_busy (s := u) h), answers (regRead_tmplen_of_busy (s := u) h)⟩,
    fun n h => answers (regRead_unmapped h),
    fun i b h hi => answers (srcWrite_stores (s := u) h hi b),
    fun i b h => answers (srcWrite_ignored (s := u) h b),
    fun i h => answers (srcRead_answers (s := u) h),
    fun i h => answers (srcRead_draws (s := u) h),
    fun i hi h hdone herr hout => answers (dstRead_answers (s := u) hi h hdone herr hout),
    fun i h => answers (dstRead_draws (s := u) h),
    rfl⟩

/-- A move that neither accepts a command nor resets touches at most LEN, SRC and what a read returns. -/
theorem hostMove_keepsResult (s : State) {m : HostMove} (hreset : m ≠ .reset) (haccept : ∀ c, m ≠ .regWrite 0 c) :
    ((hostMove m s).cmd, (hostMove m s).result) = (s.cmd, s.result) := by
  cases m with
  | regRead n =>
    show ((s.regRead n).cmd, (s.regRead n).result) = _
    unfold State.regRead
    repeat' split
    all_goals rfl
  | regWrite n v =>
    show ((s.regWrite n v).cmd, (s.regWrite n v).result) = _
    unfold State.regWrite
    split
    · rfl
    · split
      · exact absurd rfl (haccept v)
      · rfl
      · rfl
  | srcWrite i b =>
    show ((s.srcWrite i b).cmd, (s.srcWrite i b).result) = _
    unfold State.srcWrite
    split <;> rfl
  | srcRead i =>
    show ((s.srcRead i).cmd, (s.srcRead i).result) = _
    unfold State.srcRead
    split <;> rfl
  | dstRead i =>
    show ((s.dstRead i).cmd, (s.dstRead i).result) = _
    unfold State.dstRead
    split <;> rfl
  | reset => exact absurd rfl hreset

/-- Settles O15: a host's turn is its move, and the move keeps the result and CMD. -/
theorem resultsAreStable : Obligations.ResultsAreStable := by
  intro s ts m _ hturn hreset haccept
  have hkeeps := hostMove_keepsResult { s with turns := ts } hreset haccept
  simp only [State.result, Prod.mk.injEq] at hkeeps
  obtain ⟨hcmd, hstatus, houtlen, htmplen, hbuffer⟩ := hkeeps
  exact ⟨_, step_host hturn, hstatus, houtlen, htmplen, hcmd, hbuffer⟩

end Sys2Proof.Machine

namespace Sys2Proof.Machine

/-! ### The reference decoders (R221-R224) -/

/-- In format `f` the bytes `B` decode to the samples `S`, under any fuel that covers `B`. -/
def Decodes (f : Format) (B S : List Byte) : Prop := ∀ fuel, B.length ≤ fuel → decodeStreamFrom f fuel B = some S

theorem Decodes.nil (f : Format) : Decodes f [] [] := fun fuel _ => by cases fuel <;> rfl

/-- A record's samples take no more bytes than follow it. -/
theorem recordSamples_rest_le {i : Instr} {rest xs rest' : List Byte} (h : recordSamples i rest = some (xs, rest')) :
    rest'.length ≤ rest.length := by
  cases i with
  | packsegLiteral count =>
    simp only [recordSamples] at h
    split at h <;> cases h
    rw [List.length_drop]
    exact Nat.sub_le _ _
  | _ => cases h <;> exact Nat.le_refl _

theorem encode_bytes_ne_nil {i : Instr} {code : List Byte} (h : encode i = .bytes code) : code ≠ [] := by
  cases i <;> cases h <;> exact List.cons_ne_nil _ _

/-- A well-formed record's code in front of a stream puts the record's samples in front of the stream's. -/
theorem Decodes.record {i : Instr} {code rest rest' xs S : List Byte} (hwf : i.wf = true)
    (hcode : encode i = .bytes code) (hsamples : recordSamples i rest = some (xs, rest'))
    (h : Decodes i.format rest' S) : Decodes i.format (code ++ rest) (xs ++ S) := by
  intro fuel hfuel
  have hrecord := decodeRecord_of_encode hwf hcode rest
  have hrest := recordSamples_rest_le hsamples
  obtain ⟨b, bs, rfl⟩ := List.exists_cons_of_ne_nil (encode_bytes_ne_nil hcode)
  rw [List.cons_append] at hrecord hfuel ⊢
  rw [List.length_cons, List.length_append] at hfuel
  cases fuel with
  | zero => omega
  | succ fuel => simp only [decodeStreamFrom, hrecord, hsamples, h fuel (by omega), Option.map_some]

/-! ### The run encoders round-trip (R227, R228) -/

/-- Samples of a run, as many as one likes of those `RunLen` counts, are copies of its head. -/
theorem drop_eq_replicate_append {S : List Byte} {p cap n : Nat} (hp : p < S.length) (hn : n ≤ runLen S p cap) :
    S.drop p = List.replicate n S[p] ++ S.drop (p + n) := by
  induction n with
  | zero => rfl
  | succ n ih =>
    have hrest := runLen_le_rest hp.le cap
    have hlt : p + n < S.length := by omega
    have hnext : S[p + n] = S[p] := by simpa [hlt, hp] using runLen_get (show n < runLen S p cap from hn)
    rw [ih (Nat.le_of_succ_le hn), List.drop_eq_getElem_cons hlt, hnext, List.replicate_succ', List.append_assoc]
    rfl

theorem Decodes.nibrec {l : Nat} (hl : l < 16) {x : Byte} (hx : x.toNat < 16) {B S : List Byte}
    (h : Decodes .nibrec B S) :
    Decodes .nibrec ((BitVec.ofNat 8 l <<< 4 ||| x) :: B) (List.replicate (l + 1) x ++ S) := by
  refine Decodes.record (i := .nibrec (BitVec.ofNat 4 l) (x.setWidth 4)) (code := [_]) rfl
    (congrArg (fun b => Code.bytes [b]) (nibrecByte_eq_append l hx).symm) ?_ h
  have hlength : (BitVec.ofNat 4 l).toNat = l := Nat.mod_eq_of_lt hl
  have hvalue : (x.setWidth 4).setWidth 8 = x := by bv_omega
  rw [recordSamples, hlength, hvalue]

/-- The nibble format round-trips every stream whose samples fit a value field. -/
theorem nibDec_nibEnc {S : List Byte} (hS : ∀ x ∈ S, x.toNat < 16) : nibDec (nibEnc S) = some S := by
  have hdecodes : Decodes .nibrec (nibEnc S) (S.drop 0) := by
    refine nibEnc_induction (motive := fun p B => Decodes .nibrec B (S.drop p)) ?_ fun p hp B ih => ?_
    · rw [List.drop_length]
      exact .nil _
    · have h1 := runLen_pos hp 16
      have h16 := runLen_le_cap S p (show 1 ≤ 16 by decide)
      have hrecord := ih.nibrec (l := runLen S p 16 - 1) (by omega) (hS S[p] (List.getElem_mem hp))
      rwa [Nat.sub_add_cancel h1, ← drop_eq_replicate_append hp (Nat.le_refl _)] at hrecord
  exact hdecodes _ (Nat.le_refl _)

/-- Settles O47: at each of the three widths the samples fit a value field. -/
theorem nibbleRoundTrip : Obligations.NibbleRoundTrip := fun _ _ hw hS =>
  nibDec_nibEnc fun x hx => Nat.lt_of_lt_of_le (hS x hx) (NibbleWidth.two_pow_le hw)

theorem Decodes.byterec {l : Nat} (hl : l < 256) (x : Byte) {B S : List Byte} (h : Decodes .byterec B S) :
    Decodes .byterec (BitVec.ofNat 8 l :: x :: B) (List.replicate (l + 1) x ++ S) := by
  refine Decodes.record (i := .byterec (BitVec.ofNat 8 l) x) (code := [_, _]) rfl rfl ?_ h
  have hlength : (BitVec.ofNat 8 l).toNat = l := Nat.mod_eq_of_lt hl
  rw [recordSamples, hlength]

theorem byteDec_byteEnc (S : List Byte) : byteDec (byteEnc S) = some S := by
  have hdecodes : Decodes .byterec (byteEnc S) (S.drop 0) := by
    refine byteEnc_induction (motive := fun p B => Decodes .byterec B (S.drop p)) ?_ fun p hp B ih => ?_
    · rw [List.drop_length]
      exact .nil _
    · have h1 := runLen_pos hp 256
      have h256 := runLen_le_cap S p (show 1 ≤ 256 by decide)
      have hrecord := ih.byterec (l := runLen S p 256 - 1) (by omega) S[p]
      rwa [Nat.sub_add_cancel h1, ← drop_eq_replicate_append hp (Nat.le_refl _)] at hrecord
  exact hdecodes _ (Nat.le_refl _)

/-- Settles O48: each record gives back its run, and takes two bytes. -/
theorem byteRoundTrip : Obligations.ByteRoundTrip := fun S => ⟨byteDec_byteEnc S, byteEnc_length_even S⟩

/-! ### The adaptive format round-trips (R229) -/

/-- Stage A's units stand for the samples of the stream, in order. -/
theorem unitsA_samples (S : List Byte) : (unitsA S).flatMap AUnit.samples = S := by
  refine unitsA_induction (motive := fun p us => us.flatMap AUnit.samples = S.drop p) (by simp) fun p hp us ih => ?_
  have hunit (r : Nat) (v : Byte) : (unitOf r v).samples = List.replicate (unitOf r v).samples.length v := by
    unfold unitOf
    split <;> simp [AUnit.samples]
  have hcount : (unitOf (runLen S p 255) S[p]).samples.length ≤ runLen S p 255 :=
    Nat.le_of_add_le_add_left (unitOf_samples_le S[p] (runLen_pos hp 255) (Nat.le_refl (p + _)))
  rw [List.flatMap_cons, ih, drop_eq_replicate_append hp hcount, ← hunit]

/-- The samples a stretch stands for (R169). -/
def Stretch.samples : Stretch → List Byte
  | .lits bs => bs
  | .reps v total => List.replicate total v

theorem joinUnit_samples (u : AUnit) (ss : List Stretch) :
    (joinUnit u ss).flatMap Stretch.samples = u.samples ++ ss.flatMap Stretch.samples := by
  unfold joinUnit
  split
  · rfl
  · rfl
  · split
    · next hv =>
      subst hv
      simp only [List.flatMap_cons, Stretch.samples, AUnit.samples, List.replicate_add, List.append_assoc]
    · rfl
  · rfl

theorem stretches_samples (us : List AUnit) : (stretches us).flatMap Stretch.samples = us.flatMap AUnit.samples := by
  induction us with
  | nil => rfl
  | cons u us ih => rw [stretches_cons, joinUnit_samples, ih, List.flatMap_cons]

/-- A segment's control byte is its kind bit above its count (R80). -/
theorem controlByte_eq_or (kind : BitVec 1) {c : Nat} (hc : c < 128) :
    kind ++ BitVec.ofNat 7 c = kind.setWidth 8 <<< 7 ||| BitVec.ofNat 8 c := by
  have hcount : (BitVec.ofNat 7 c).setWidth 8 = BitVec.ofNat 8 c := by bv_omega
  rw [← hcount, ← BitVec.setWidth_append_eq_shiftLeft_setWidth_or, BitVec.setWidth_eq]

theorem segmentCount_toNat {c : Nat} (hc : c < 128) : (BitVec.ofNat 7 c).toNat = c := Nat.mod_eq_of_lt hc

/-- A count of 1 to 127 is not reserved (R80). -/
theorem segmentCount_wf {c : Nat} (h1 : 1 ≤ c) (h127 : c ≤ 127) : (BitVec.ofNat 7 c != 0#7) = true :=
  bne_iff_ne.mpr (by bv_omega)

section
variable {B S : List Byte} (h : Decodes .packseg B S)
include h

theorem Decodes.repeatSegment {c : Nat} (h1 : 1 ≤ c) (h127 : c ≤ 127) (v : Byte) :
    Decodes .packseg ((0x80#8 ||| BitVec.ofNat 8 c) :: v :: B) (List.replicate c v ++ S) := by
  have hcode : encode (.packsegRepeat (BitVec.ofNat 7 c) v) = .bytes [0x80#8 ||| BitVec.ofNat 8 c, v] :=
    congrArg (fun b => Code.bytes [b, v]) (controlByte_eq_or 1#1 (by omega))
  refine Decodes.record (i := .packsegRepeat ..) (segmentCount_wf h1 h127) hcode ?_ h
  rw [recordSamples, segmentCount_toNat (by omega)]

theorem Decodes.literalSegment {bs : List Byte} (hne : bs ≠ []) (h127 : bs.length ≤ 127) :
    Decodes .packseg (BitVec.ofNat 8 bs.length :: bs ++ B) (bs ++ S) := by
  have hcode : encode (.packsegLiteral (BitVec.ofNat 7 bs.length)) = .bytes [BitVec.ofNat 8 bs.length] :=
    congrArg (fun b => Code.bytes [b]) ((controlByte_eq_or 0#1 (by omega)).trans (BitVec.zero_or ..))
  have hwf := segmentCount_wf (List.length_pos_of_ne_nil hne) h127
  refine Decodes.record (i := .packsegLiteral _) (rest := bs ++ B) hwf hcode ?_ h
  rw [recordSamples, segmentCount_toNat (by omega), if_pos (by simp), List.take_left, List.drop_left]

theorem Decodes.repSegments (v : Byte) (total : Nat) :
    Decodes .packseg (repSegments v total ++ B) (List.replicate total v ++ S) := by
  induction total using Nat.strong_induction_on with
  | _ total ih =>
    rcases Nat.lt_or_ge total 127 with hlt | hge
    · rw [repSegments_of_lt v hlt]
      split
      · next h0 =>
        subst h0
        exact h
      · next h0 => exact h.repeatSegment (Nat.pos_of_ne_zero h0) hlt.le v
    · obtain ⟨rest, rfl⟩ := Nat.exists_eq_add_of_le hge
      rw [repSegments_add, List.replicate_add, List.append_assoc]
      exact (ih rest (by omega)).repeatSegment (c := 127) (by decide) (Nat.le_refl _) v

theorem Decodes.litSegments {fuel : Nat} {bs : List Byte} (hfuel : bs.length ≤ fuel) :
    Decodes .packseg (litSegments fuel bs ++ B) (bs ++ S) := by
  induction fuel generalizing bs with
  | zero =>
    rw [List.length_eq_zero_iff.mp (Nat.le_zero.mp hfuel)]
    exact h
  | succ fuel ih =>
    cases bs with
    | nil => exact h
    | cons b bs =>
      have hrest : ((b :: bs).drop 127).length ≤ fuel := by
        rw [List.length_drop, List.length_cons] at *
        omega
      have hsegment := (ih hrest).literalSegment (bs := (b :: bs).take 127) (by simp) (List.length_take_le ..)
      rw [← List.append_assoc, ← List.append_assoc, List.take_append_drop] at hsegment
      exact hsegment

theorem Decodes.stretch (x : Stretch) : Decodes .packseg (x.bytes ++ B) (x.samples ++ S) := by
  cases x with
  | lits bs => exact h.litSegments (Nat.le_refl _)
  | reps v total => exact h.repSegments v total

end

/-- Stage B's segments decode to the samples of the units. -/
theorem decodes_stageB (us : List AUnit) : Decodes .packseg (stageB us) (us.flatMap AUnit.samples) := by
  rw [stageB, ← stretches_samples]
  induction stretches us with
  | nil => exact .nil _
  | cons x ss ih => exact ih.stretch x

theorem packDec_packEnc (S : List Byte) : packDec (packEnc S) = some S := by
  have hdecodes := decodes_stageB (unitsA S)
  rw [unitsA_samples] at hdecodes
  exact hdecodes _ (Nat.le_refl _)

/-- A stream that decodes has as many samples as its segments count. -/
theorem segmentCountsFrom_sum {fuel : Nat} {B S : List Byte} (h : decodeStreamFrom .packseg fuel B = some S) :
    (segmentCountsFrom fuel B).sum = S.length := by
  induction fuel generalizing B S with
  | zero =>
    cases B <;> cases h
    rfl
  | succ fuel ih =>
    cases B with
    | nil =>
      cases h
      rfl
    | cons b bs =>
      rw [decodeStreamFrom] at h
      rw [segmentCountsFrom]
      cases hrecord : decodeRecord .packseg (b :: bs) with
      | error e => simp [hrecord] at h
      | ok r =>
        obtain ⟨i, rest⟩ := r
        have hformat := Laws.OwnFormat.format_of_decodeRecord hrecord
        simp only [hrecord] at h
        cases i with
        | packsegRepeat count v =>
          obtain ⟨more, hmore, rfl⟩ := Option.map_eq_some_iff.mp h
          simp [ih hmore]
        | packsegLiteral count =>
          by_cases hcount : count.toNat ≤ rest.length
          · simp only [recordSamples, if_pos hcount] at h
            obtain ⟨more, hmore, rfl⟩ := Option.map_eq_some_iff.mp h
            simp [ih hmore, hcount]
          · simp [recordSamples, hcount] at h
        | _ => cases hformat

/-- Settles O49: segments give back their stretches, stretches the units, and units the stream. -/
theorem packRoundTrip : Obligations.PackRoundTrip := fun S =>
  ⟨packDec_packEnc S, segmentCountsFrom_sum (packDec_packEnc S), unitsA_samples S⟩

/-! ### What the hardware leaves in DST decodes (R207, R227-R229) -/

theorem nibDec_of_exec {c : Word} {i : Instr} (hi : decodeCommand c = .ok i) (hw : NibbleWidth (cmdBW c))
    {s t : State} (hp : s.params.ok) (hn : s.lenReg.toNat ≤ s.params.nmax) (ht : exec i (s.accept c) = .next t) :
    nibDec t.encodedBuffer = some (s.input (cmdBW c)) := by
  obtain ⟨u, hu, -, -, -, hbuffer, -⟩ := exec_nibbleCommand hi hw hp hn
  cases hu.symm.trans ht
  rw [hbuffer]
  exact nibDec_nibEnc (List.forall_mem_map.mpr fun j _ => nibbleSample_lt hw j)

/-- Settles O50: each command leaves its encoder's output, which decodes to the stream. -/
theorem hardwareOutputDecodes : Obligations.HardwareOutputDecodes := by
  intro s t hp hn
  refine ⟨nibDec_of_exec rfl (.inl rfl) hp hn, nibDec_of_exec rfl (.inr (.inl rfl)) hp hn,
    nibDec_of_exec rfl (.inr (.inr rfl)) hp hn, fun ht => ?_, fun ht => ?_⟩
  · obtain ⟨u, hu, -, -, -, hbuffer, -⟩ := byteCommandEncodes s hp hn
    cases hu.symm.trans ht
    rw [hbuffer, byteDec_byteEnc]
  · obtain ⟨u, hu, -, -, -, hbuffer, -⟩ := packCommandEncodes s hp hn
    cases hu.symm.trans ht
    rw [hbuffer, packDec_packEnc]

end Sys2Proof.Machine

namespace Sys2Proof.Machine

/-! ### Every operation ends (R283), in one transition as step by step (R278) -/

/-- From a state that meets R31's bounds the engine reaches IDLE within the steps left. -/
theorem engineSteps_stop {s : State} (hb : s.BoundsOk) :
    ∃ k t, k ≤ s.stepsLeft ∧ engineSteps k s = .next t ∧ t.fsm = .idle := by
  induction hn : s.stepsLeft using Nat.strong_induction_on generalizing s with
  | _ n ih =>
    subst hn
    by_cases hidle : s.fsm = .idle
    · exact ⟨0, s, Nat.zero_le _, rfl, hidle⟩
    · obtain ⟨u, hu, hub⟩ := engineStep_bounds hb
      have hless := stepsLeft_engineStep hb hidle hu
      obtain ⟨k, t, hk, hsteps, ht⟩ := ih _ hless hub rfl
      exact ⟨k + 1, t, by omega, by rw [engineSteps_succ, hu, andThen_of_next, hsteps], ht⟩

/-- A refused word or an over-long stream is refused by the step in DECODE. -/
theorem engineStep_refuses {s : State} (hf : s.fsm = .decode)
    (h : (∃ e, decodeCommand s.cmd = .error e) ∨ s.params.nmax < s.n) : ∃ e, engineStep s = .next (s.raise e) := by
  rcases decode_cases hf with ⟨e, -, he, -⟩ | ⟨i, hi, hn, -, -⟩
  · exact ⟨e, he⟩
  · rcases h with ⟨e, he⟩ | hlong
    · cases he.symm.trans hi
    · exact absurd hlong (Nat.not_lt.mpr hn)

/-- Settles O34: acceptance meets the bounds, and in DECODE the steps left are those of R283's bound. -/
theorem operationTerminates : Obligations.OperationTerminates := by
  refine fun s c hp => ⟨engineSteps_stop (boundsOk_accept c hp), fun h => ?_⟩
  obtain ⟨e, he⟩ := engineStep_refuses (State.accept_fsm s c) h
  exact ⟨_, (engineSteps_one _).trans he, State.raise_fsm _ e⟩

/-! #### No engine step leads to DECODE: only acceptance does (R200) -/

/-- The last link of a chain decides where the chain ends. -/
theorem Ends.last {P : State → Prop} {o : Out} {f : State → Out} (h : ∀ s, Ends P (f s)) :
    Ends P (Machine.andThen o f) :=
  Ends.andThen (P := fun _ => True) (fun _ _ => trivial) fun s _ => h s

theorem scan_leaves_decode {below : Bool} {i : Nat} {x : Byte} {again leave : State → State} {s : State}
    (hs : s.fsm ≠ .decode) (hagain : ∀ u, (again u).fsm = u.fsm) (hleave : ∀ u, (leave u).fsm ≠ .decode) :
    Ends (fun t => t.fsm ≠ .decode) (scan below i x again leave s) :=
  .scan (fun _ _ _ => hleave _) fun _ _ _ _ => by
    rw [hagain]
    exact hs

theorem stepPOvf_leaves_decode {s : State} (hf : s.fsm = .pOvf) : Ends (fun t => t.fsm ≠ .decode) (stepPOvf s) := by
  refine .ite (fun _ => ?_) fun _ => .next nofun
  rw [execPacksegRepeat_of_ne (by decide)]
  refine Ends.andThen (P := fun u => u.fsm = .pOvf) (fun u hu => ?_) fun u hu => .next (by simp [hu])
  obtain ⟨-, rfl⟩ := emitRepeat_next.mp hu
  exact hf

theorem stepPUnit_leaves_decode (s : State) : Ends (fun t => t.fsm ≠ .decode) (stepPUnit s) :=
  .ite (fun _ => .withByte fun _ => .withByte fun _ => .last fun _ => .last fun _ => .next nofun) fun _ =>
    .withByte fun _ => .last fun _ => .last fun _ => .last fun _ => .next nofun

theorem engineStep_leaves_decode (s : State) : Ends (fun t => t.fsm ≠ .decode) (engineStep s) := by
  cases hf : s.fsm
  case decode =>
    rcases decode_cases hf with ⟨e, -, he, -⟩ | ⟨i, hi, -, he, -⟩ <;> rw [he]
    · exact .next nofun
    · refine .next ?_
      rcases headOf_cases hi with h | h | h <;> simp [h]
  all_goals simp only [engineStep, hf]
  case idle => exact .next (by simp [hf])
  case nHead => exact .ite (fun _ => .next nofun) fun _ => .withSample fun _ _ _ _ => .next nofun
  case nScan => exact scan_leaves_decode (by simp [hf]) (fun _ => rfl) nofun
  case nEmit => exact .last fun _ => .next nofun
  case bHead => exact .ite (fun _ => .next nofun) fun _ => .withSample fun _ _ _ _ => .next nofun
  case bScan => exact scan_leaves_decode (by simp [hf]) (fun _ => rfl) nofun
  case bEmit => exact .last fun _ => .next nofun
  case aHead => exact .ite (fun _ => .next nofun) fun _ => .withSample fun _ _ _ _ => .next nofun
  case aScan => exact scan_leaves_decode (by simp [hf]) (fun _ => rfl) nofun
  case aEmit => exact .last fun _ => .last fun _ => .last fun _ => .next nofun
  case aEnd => exact .last fun _ => .next nofun
  case pAwait =>
    exact .ite (fun _ => .next nofun) fun _ => .ite (fun _ => .withByte fun _ => .last fun _ => .next nofun) fun _ =>
      .next nofun
  case pUnit => exact stepPUnit_leaves_decode s
  case pOvf => exact stepPOvf_leaves_decode hf
  case pEnd => exact .last fun _ => .last fun _ => .next nofun
  case finish => exact .next nofun

/-! #### One transition or many steps -/

/-- A run that has ended idle ends there with one step more, too. -/
theorem runEngine_succ_of_idle {fuel : Nat} {s t : State} (h : runEngine fuel s = .next t) (ht : t.fsm = .idle) :
    runEngine (fuel + 1) s = .next t := by
  induction fuel generalizing s with
  | zero =>
    cases h
    exact runEngine_idle _ ht
  | succ fuel ih =>
    by_cases hs : s.fsm = .idle
    · rw [runEngine_idle _ hs] at h ⊢
      exact h
    · rw [runEngine, if_neg hs] at h ⊢
      obtain ⟨u, hu, h⟩ := andThen_next.mp h
      rw [hu, andThen_of_next, ih h]

/-- The engine's step after DECODE, and the rest of the operation from there (R201). -/
theorem runOperation_after_decode {s t : State} (hf : s.fsm = .decode) (hw : s.w = cmdBW s.cmd)
    (h : runOperation s = .next t) : ∃ u, engineStep s = .next u ∧ runEngine (stepBound s.n) u = .next t := by
  rw [runOperation_of_decode hf hw, runEngine, if_neg (by simp [hf])] at h
  exact andThen_next.mp h

/-- A busy engine's step outside DECODE, and the rest of the operation from there. -/
theorem runOperation_after_step {s t : State} (hbusy : s.fsm ≠ .idle) (hf : s.fsm ≠ .decode)
    (h : runOperation s = .next t) (ht : t.fsm = .idle) :
    ∃ u, engineStep s = .next u ∧ runEngine (stepBound s.n) u = .next t := by
  rw [runOperation, if_neg hf, stepBound, runEngine, if_neg hbusy] at h
  obtain ⟨u, hu, h⟩ := andThen_next.mp h
  exact ⟨u, hu, runEngine_succ_of_idle h ht⟩

theorem engineStep_keeps_n_turns {s u : State} (h : engineStep s = .next u) : u.n = s.n ∧ u.turns = s.turns := by
  have hframe := frame_engineStep h
  simp only [State.frame, Prod.mk.injEq] at hframe
  obtain ⟨-, -, -, hn, -, hturns, -⟩ := hframe
  exact ⟨hn, hturns⟩

/-- An operation made in one transition is one engine step and the rest of the operation in one transition. -/
theorem runOperation_peel {s t : State} (hbusy : s.fsm ≠ .idle) (hw : s.fsm = .decode → s.w = cmdBW s.cmd)
    (h : runOperation s = .next t) (ht : t.fsm = .idle) : ∃ u, engineStep s = .next u ∧ runOperation u = .next t := by
  obtain ⟨u, hu, hrest⟩ : ∃ u, engineStep s = .next u ∧ runEngine (stepBound s.n) u = .next t := by
    by_cases hf : s.fsm = .decode
    · exact runOperation_after_decode hf (hw hf) h
    · exact runOperation_after_step hbusy hf h ht
  refine ⟨u, hu, ?_⟩
  rw [runOperation, if_neg (engineStep_leaves_decode s u hu), (engineStep_keeps_n_turns hu).1, hrest]

theorem step_operation (s : State) (ts : List Turn) :
    step { s with turns := .operation :: ts } = runOperation { s with turns := ts } := rfl

/-- Settles O19: the engine's step keeps the count of samples, on which the fuel depends, and does not lead back to
DECODE, so that the rest is the same run. -/
theorem oneTransitionEqualsManySteps : Obligations.OneTransitionEqualsManySteps := by
  intro s t hbusy hw h ht
  obtain ⟨u, hu, hrest⟩ :=
    runOperation_peel (s := { s with turns := [] }) hbusy hw ((step_operation s []).symm.trans h) ht
  have hturns : u.turns = [] := (engineStep_keeps_n_turns hu).2
  have hu' : ({ u with turns := [] } : State) = u := by rw [← hturns]
  refine ⟨u, (step_engine rfl).trans hu, (step_operation u []).trans ?_⟩
  rw [hu', hrest]

end Sys2Proof.Machine

namespace Sys2Proof.Machine

/-! ### What the host has read does not touch the engine (R53, R275)

An engine step is followed from a state and from the same state in which the host has been told another value. -/

/-- The state in which the host's reads have returned `x` last, and `d` draws. -/
def State.told (s : State) (x : Word) (d : Nat) : State := { s with rdata := x, draws := d }

/-- `o'` answers as `o` does, but for what the host has been told. -/
def Told (x : Word) (d : Nat) (o o' : Out) : Prop := o' = andThen o fun s => .next (s.told x d)

/-- An indexed read at or past the buffer's capacity is a fault. -/
theorem withByte_of_not_lt {sp : Space} {i : Nat} {s : State} {f : Byte → Out} (h : ¬i < s.params.bytes sp) :
    withByte sp i s f = .fault (.bufferOverrun sp i) := by simp [withByte, bufRead, h]

section
variable {x : Word} {d : Nat}

theorem Told.next (s : State) : Told x d (.next s) (.next (s.told x d)) := rfl

theorem Told.andThen {o o' : Out} {f f' : State → Out} (ho : Told x d o o')
    (hf : ∀ s, Told x d (f s) (f' (s.told x d))) : Told x d (andThen o f) (andThen o' f') := by
  rw [Told] at ho
  subst ho
  cases o with
  | next s => exact hf s
  | fault => rfl
  | refused => rfl

theorem Told.ite {c : Prop} [Decidable c] {o p o' p' : Out} (h : Told x d o o') (h' : Told x d p p') :
    Told x d (if c then o else p) (if c then o' else p') := by
  split
  · exact h
  · exact h'

variable (s : State)

theorem Told.withByte {sp : Space} {i : Nat} {f f' : Byte → Out} (hf : ∀ b, Told x d (f b) (f' b)) :
    Told x d (withByte sp i s f) (withByte sp i (s.told x d) f') := by
  have hbyte : (s.told x d).byteAt sp i = s.byteAt sp i := by cases sp <;> rfl
  by_cases hi : i < s.params.bytes sp
  · rw [withByte_of_lt hi, withByte_of_lt (s := s.told x d) hi, hbyte]
    exact hf _
  · rw [withByte_of_not_lt hi, withByte_of_not_lt (s := s.told x d) hi]
    rfl

theorem Told.bufWrite (sp : Space) (i : Nat) (b : Byte) :
    Told x d (bufWrite sp i b s) (bufWrite sp i b (s.told x d)) := by
  refine .ite ?_ rfl
  cases sp <;> rfl

theorem Told.emit (b : Byte) : Told x d (emit b s) (emit b (s.told x d)) :=
  (Told.bufWrite s _ _ _).andThen fun _ => .next _

theorem Told.tmpAppend (b : Byte) : Told x d (tmpAppend b s) (tmpAppend b (s.told x d)) :=
  (Told.bufWrite s _ _ _).andThen fun _ => .next _

theorem Told.emitRepeat (c : Nat) (v : Byte) : Told x d (emitRepeat c v s) (emitRepeat c v (s.told x d)) :=
  (Told.emit s _).andThen fun s => .emit s _

theorem Told.closeLiteral (c : Nat) : Told x d (closeLiteral c s) (closeLiteral c (s.told x d)) :=
  (Told.bufWrite s _ _ _).andThen fun _ => .next _

theorem Told.withSample {i : Nat} {f f' : Byte → State → Out} (hf : ∀ y t, Told x d (f y t) (f' y (t.told x d))) :
    Told x d (withSample i s f) (withSample i (s.told x d) f') :=
  .ite (hf _ _) (.withByte s fun _ => hf _ _)

theorem Told.scan {below : Bool} {i : Nat} {y : Byte} {again again' leave leave' : State → State}
    (hagain : ∀ t, again' (t.told x d) = (again t).told x d) (hleave : ∀ t, leave' (t.told x d) = (leave t).told x d) :
    Told x d (scan below i y again leave s) (scan below i y again' leave' (s.told x d)) := by
  refine .ite (.withSample s fun z t => ?_) ?_
  · rw [hagain, hleave, ← apply_ite fun u => State.told u x d]
    exact .next _
  · rw [hleave]
    exact .next _

/-! #### Every step of the encoders -/

theorem stepNHead_told : Told x d (stepNHead s) (stepNHead (s.told x d)) :=
  .ite (.next _) (.withSample s fun _ _ => .next _)

theorem stepNScan_told : Told x d (stepNScan s) (stepNScan (s.told x d)) := .scan s (fun _ => rfl) fun _ => rfl

theorem stepNEmit_told : Told x d (stepNEmit s) (stepNEmit (s.told x d)) :=
  .andThen (.andThen (.emit s _) fun _ => .next _) fun _ => .next _

theorem stepBHead_told : Told x d (stepBHead s) (stepBHead (s.told x d)) :=
  .ite (.next _) (.withSample s fun _ _ => .next _)

theorem stepBScan_told : Told x d (stepBScan s) (stepBScan (s.told x d)) := .scan s (fun _ => rfl) fun _ => rfl

theorem stepBEmit_told : Told x d (stepBEmit s) (stepBEmit (s.told x d)) :=
  .andThen (.andThen (.emit s _) fun s => .andThen (.emit s _) fun _ => .next _) fun _ => .next _

theorem stepAHead_told : Told x d (stepAHead s) (stepAHead (s.told x d)) :=
  .ite (.next _) (.withSample s fun _ _ => .next _)

theorem stepAScan_told : Told x d (stepAScan s) (stepAScan (s.told x d)) := .scan s (fun _ => rfl) fun _ => rfl

theorem openBatch_told : Told x d (openBatch s) (openBatch (s.told x d)) :=
  .ite (.andThen (.tmpAppend { s with ip := s.t } _) fun _ => .next _) (.next _)

theorem placeUnit_told : Told x d (placeUnit s) (placeUnit (s.told x d)) :=
  .ite
    (.andThen (.tmpAppend { s with info := s.info ||| (0x80#8 >>> s.k) } _) fun s =>
      .andThen (.tmpAppend s _) fun _ => .next _)
    (.andThen (.tmpAppend s _) fun _ => .next _)

theorem countUnit_told : Told x d (countUnit s) (countUnit (s.told x d)) :=
  .ite (.andThen (.bufWrite s _ _ _) fun _ => .next _) (.next _)

theorem stepAEmit_told : Told x d (stepAEmit s) (stepAEmit (s.told x d)) :=
  (openBatch_told s).andThen fun s => (placeUnit_told s).andThen fun s => (countUnit_told s).andThen fun _ => .next _

theorem stepAEnd_told : Told x d (stepAEnd s) (stepAEnd (s.told x d)) :=
  .andThen (.ite (.bufWrite s _ _ _) (.next _)) fun _ => .next _

theorem stepPAwait_told : Told x d (stepPAwait s) (stepPAwait (s.told x d)) :=
  .ite (.next _) (.ite (.withByte s fun _ => .next _) (.next _))

theorem flushRun_told : Told x d (flushRun s) (flushRun (s.told x d)) := .ite (.emitRepeat s _ _) (.next _)

theorem closeIfLit_told : Told x d (closeIfLit s) (closeIfLit (s.told x d)) := .ite (.closeLiteral s _) (.next _)

theorem flushIfOther_told : Told x d (flushIfOther s) (flushIfOther (s.told x d)) :=
  .ite ((flushRun_told s).andThen fun _ => .next _) (.next _)

theorem openRun_told : openRun (s.told x d) = (openRun s).told x d :=
  (apply_ite (State.told · x d) (s.mode ≠ .run) { s with mode := .run, rv := s.v, rc := 0 } s).symm

theorem stepPRunUnit_told : Told x d (stepPRunUnit s) (stepPRunUnit (s.told x d)) := by
  refine .withByte s fun count => .withByte s fun value => ?_
  refine (closeIfLit_told { s with r := count.toNat, v := value, a := s.a + 2, k := s.k + 1 }).andThen fun s => ?_
  refine (flushIfOther_told s).andThen fun s => ?_
  rw [openRun_told]
  exact .next _

theorem flushIfRun_told : Told x d (flushIfRun s) (flushIfRun (s.told x d)) :=
  .ite ((flushRun_told s).andThen fun _ => .next _) (.next _)

theorem openLit_told : Told x d (openLit s) (openLit (s.told x d)) :=
  .ite (.andThen (.emit { s with hdr := s.out } _) fun _ => .next _) (.next _)

theorem appendLit_told : Told x d (appendLit s) (appendLit (s.told x d)) :=
  (Told.emit s _).andThen fun s => .ite (.closeLiteral { s with lc := s.lc + 1 } _) (.next _)

theorem stepPLitUnit_told : Told x d (stepPLitUnit s) (stepPLitUnit (s.told x d)) := by
  refine .withByte s fun value => ?_
  refine (flushIfRun_told { s with v := value, a := s.a + 1, k := s.k + 1 }).andThen fun s => ?_
  exact (openLit_told s).andThen fun s => (appendLit_told s).andThen fun _ => .next _

/-- Stated for any count: for the literal 127 `rfl` would unfold the subtraction. -/
theorem takeRepeats_told (c : Nat) :
    Told x d (.next { s with rc := s.rc - c }) (.next { s.told x d with rc := (s.told x d).rc - c }) := .next _

theorem stepPOvf_told : Told x d (stepPOvf s) (stepPOvf (s.told x d)) := by
  have hfull : Told x d (execPacksegRepeat 127#7 s.rv s) (execPacksegRepeat 127#7 s.rv (s.told x d)) := by
    rw [execPacksegRepeat_of_ne (by decide), execPacksegRepeat_of_ne (by decide)]
    exact .emitRepeat s _ _
  exact .ite (hfull.andThen fun s => takeRepeats_told s 127) (.next _)

theorem stepPEnd_told : Told x d (stepPEnd s) (stepPEnd (s.told x d)) :=
  .andThen (.ite (flushRun_told s) (.next _)) fun s => (closeIfLit_told s).andThen fun _ => .next _

theorem stepDecode_told : Told x d (stepDecode s) (stepDecode (s.told x d)) := by
  rw [stepDecode, stepDecode, show (s.told x d).cmd = s.cmd from rfl]
  cases decodeCommand s.cmd with
  | error => exact .next _
  | ok => exact .ite (.next _) (.next _)

theorem engineStep_told : Told x d (engineStep s) (engineStep (s.told x d)) := by
  rw [engineStep, engineStep, show (s.told x d).fsm = s.fsm from rfl]
  cases s.fsm with
  | idle => exact .next _
  | decode => exact stepDecode_told s
  | nHead => exact stepNHead_told s
  | nScan => exact stepNScan_told s
  | nEmit => exact stepNEmit_told s
  | bHead => exact stepBHead_told s
  | bScan => exact stepBScan_told s
  | bEmit => exact stepBEmit_told s
  | aHead => exact stepAHead_told s
  | aScan => exact stepAScan_told s
  | aEmit => exact stepAEmit_told s
  | aEnd => exact stepAEnd_told s
  | pAwait => exact stepPAwait_told s
  | pUnit => exact .ite (stepPRunUnit_told s) (stepPLitUnit_told s)
  | pOvf => exact stepPOvf_told s
  | pEnd => exact stepPEnd_told s
  | finish => exact .next _

/-! #### The rest of an operation -/

theorem runEngine_told (fuel : Nat) : Told x d (runEngine fuel s) (runEngine fuel (s.told x d)) := by
  induction fuel generalizing s with
  | zero => exact .next _
  | succ fuel ih => exact .ite (.next _) ((engineStep_told s).andThen ih)

theorem runOperation_told : Told x d (runOperation s) (runOperation (s.told x d)) := by
  refine .ite ?_ (runEngine_told s _)
  rw [show (s.told x d).cmd = s.cmd from rfl]
  cases hi : decodeCommand s.cmd with
  | error => exact .next _
  | ok i =>
    simp only [exec_of_decodeCommand hi]
    exact .ite (.next _) (runEngine_told { s with w := cmdBW s.cmd, fsm := headOf i } _)

theorem Told.answer {o o' : Out} {t : State} (h : Told x d o o') (ht : o = .next t) : o' = .next (t.told x d) := by
  rw [Told, ht] at h
  exact h

end

/-! ### Host moves on a busy block, and reset (R270, R275) -/

/-- Every move but reset only tells a busy block's host something (R275). -/
theorem hostMove_of_busy {s : State} {m : HostMove} (hbusy : s.fsm ≠ .idle) (hreset : m ≠ .reset) :
    ∃ x d, hostMove m s = s.told x d := by
  cases m with
  | regRead n =>
    show ∃ x d, s.regRead n = s.told x d
    unfold State.regRead
    repeat' split
    all_goals exact ⟨_, _, rfl⟩
  | regWrite n v => exact ⟨_, _, regWrite_of_busy hbusy n v⟩
  | srcWrite i b => exact ⟨_, _, srcWrite_ignored (.inl hbusy) b⟩
  | srcRead i =>
    show ∃ x d, s.srcRead i = s.told x d
    unfold State.srcRead
    split <;> exact ⟨_, _, rfl⟩
  | dstRead i => exact ⟨_, _, dstRead_draws (.inr (.inl hbusy))⟩
  | reset => exact absurd rfl hreset

/-- Settles O18: on a busy block the move changes at most what the host has been told, and the rest of the operation
takes no notice of that. -/
theorem hostMovesDuringAnOperationDoNotTouchIt : Obligations.HostMovesDuringAnOperationDoNotTouchIt := by
  intro s t m hbusy hreset h
  obtain ⟨x, d, hmove⟩ := hostMove_of_busy (s := { s with turns := [.operation] }) hbusy hreset
  have hrest : runOperation (State.told { s with turns := [] } x d) = .next (t.told x d) :=
    (runOperation_told _).answer ((step_operation s []).symm.trans h)
  exact ⟨_, (step_host rfl).trans (congrArg _ hmove), (step_operation (s.told x d) []).trans hrest⟩

/-- Settles O14: a write on a busy block leaves it as it is. -/
theorem writesWhileBusyAreIgnored : Obligations.WritesWhileBusyAreIgnored := by
  intro s ts hbusy
  obtain ⟨-, -, -, hreg, -, -, -, -, -, -, -, hsrc, -⟩ := hostMovesTable s ts
  exact ⟨fun n x => hreg n x hbusy, fun i b => hsrc i b (.inl hbusy)⟩

/-- Settles O16: reset asks nothing of the state. -/
theorem resetFromAnyState : Obligations.ResetFromAnyState := fun _ _ h =>
  ⟨_, step_host h, rfl, rfl, rfl, rfl, rfl, rfl, rfl, rfl, rfl, rfl, rfl, rfl⟩

end Sys2Proof.Machine
